-- ==== Sys2Proof/Word.lean ====
section
/-! DEFINITION. The word types of the TSVU (command word, parameter word, buffer word) and the two
fixed-size register arrays of 10_state.md R30: `Three` for the triples `i = 0, 1, 2` and `Two` for
the filters `f = 0, 1`. -/

namespace Sys2Proof

/-- A command word or a buffer word, 32 bits (30_encoding.md R100, 20_memory.md R80). -/
abbrev Word := BitVec 32

/-- A Parameter Array word, 16 bits (10_state.md R50). -/
abbrev Param := BitVec 16

/-- A register array over the triples `i = 0, 1, 2` (00_scope.md R2). -/
structure Three (α : Type) where
  x0 : α
  x1 : α
  x2 : α
deriving DecidableEq, Repr

/-- `NAME[i]` of 00_scope.md R19. -/
def Three.get {α : Type} (t : Three α) : Fin 3 → α
  | 0 => t.x0
  | 1 => t.x1
  | 2 => t.x2

/-- The array whose entry `i` is `f i`: the result of a loop `for i in 0..2`. -/
def Three.ofFn {α : Type} (f : Fin 3 → α) : Three α := ⟨f 0, f 1, f 2⟩

/-- The same function applied to each entry. -/
def Three.map {α β : Type} (f : α → β) (t : Three α) : Three β := ⟨f t.x0, f t.x1, f t.x2⟩

/-- A register array over the filters `f = 0, 1` (00_scope.md R2). -/
structure Two (α : Type) where
  x0 : α
  x1 : α
deriving DecidableEq, Repr

/-- `NAME[f]` of 00_scope.md R19. -/
def Two.get {α : Type} (t : Two α) : Fin 2 → α
  | 0 => t.x0
  | 1 => t.x1

/-- The array whose entry `f` is `g f`: the result of a loop `for f in 0..1`. -/
def Two.ofFn {α : Type} (g : Fin 2 → α) : Two α := ⟨g 0, g 1⟩

/-- The same function applied to each entry. -/
def Two.map {α β : Type} (g : α → β) (t : Two α) : Two β := ⟨g t.x0, g t.x1⟩

end Sys2Proof
end

