-- ==== Sys2Proof/Config.lean ====
section
/-! DEFINITION. The constants of 00_scope.md section 5 (R20 to R29), each at the value the spec
gives it. The spec leaves one parameter open, the number of voices of a surrounding system
(92_eei_decisions.md D56), and no definition of one voice unit uses it (log 10). -/

namespace Sys2Proof.Config

/-- `FS_HZ`, ticks per second of audio; it enters the unit only through `ticksPerMs`, `tune` and
`lfoK` (R20). -/
def fsHz : Nat := 48000

/-- `TICKS_PER_MS` (R21). -/
def ticksPerMs : Nat := 48

/-- `TUNE[0..12]`: the phase increments of MIDI notes 120 to 132 (R22). -/
def tuneTable : List Int :=
  [749115498, 793660223, 840853716, 890853480, 943826385, 999949222, 1059409297]
    ++ [1122405052, 1189146729, 1259857073, 1334772074, 1414141751, 1498230996]

/-- `TUNE[k]`; the uses keep `k` in 0..12. -/
def tune (k : Nat) : Int := tuneTable.getD k 0

/-- `LFO_K`, the phase increment of a 1 Hz LFO (R23). -/
def lfoK : Nat := 89478

/-- `P_MAX`, the largest oscillator pitch word (R24). -/
def pMax : Int := 33791

/-- `CUT_MAX`, the largest cutoff pitch word (R25). -/
def cutMax : Int := 29952

/-- `L_MAX`, full scale of the envelope level (R26). -/
def lMax : Nat := 2147483648

/-- `QD_MAX`, the filter damping at resonance 0 (R27). -/
def qdMax : Int := 24576

/-- `QD_MIN`, the filter damping at resonance 1 (R27). -/
def qdMin : Int := 512

/-- `LFSR_SEED` (R28). -/
def lfsrSeed : BitVec 16 := 0xACE1#16

/-- `LFSR_TAPS` (R28). -/
def lfsrTaps : BitVec 16 := 0xB400#16

/-- `SINQ[0..64]`: one quarter of a sine wave (R29), eight entries to a row as in the spec. -/
def sinqTable : List Int :=
  [0, 804, 1608, 2410, 3212, 4011, 4808, 5602]
    ++ [6393, 7179, 7962, 8739, 9512, 10278, 11039, 11793]
    ++ [12539, 13279, 14010, 14732, 15446, 16151, 16846, 17530]
    ++ [18204, 18868, 19519, 20159, 20787, 21403, 22005, 22594]
    ++ [23170, 23731, 24279, 24811, 25329, 25832, 26319, 26790]
    ++ [27245, 27683, 28105, 28510, 28898, 29268, 29621, 29956]
    ++ [30273, 30571, 30852, 31113, 31356, 31580, 31785, 31971]
    ++ [32137, 32285, 32412, 32521, 32609, 32678, 32728, 32757]
    ++ [32767]

/-- `SINQ[k]`; the uses keep `k` in 0..64. -/
def sinq (k : Nat) : Int := sinqTable.getD k 0

end Sys2Proof.Config
end

