-- ==== Sys2Proof/Machine/State.lean ====
section
/-! DEFINITION. The state of the machine: the registers of one TSVU exactly as 10_state.md R30 lists
them (`Regs`), the audio buffer the host owns (20_memory.md R80), and the model's own fields that say
what the surroundings do next; the reset state (70_reset_and_hazards.md R255); the reasons a step can
stop, of which the spec has none (60_exceptions.md R235). -/

namespace Sys2Proof.Machine

/-- `VSTATE` (10_state.md R31); code 3 is never written and has no value here (log 8). -/
inductive VState where
  | idle
  | sounding
  | releasing
deriving DecidableEq, Repr

/-- `ENV_STAGE` (10_state.md R41); codes 5 to 7 are never written and have no value here (log 8). -/
inductive Stage where
  | idle
  | attack
  | decay
  | sustain
  | release
deriving DecidableEq, Repr

/-- The registers of oscillator `i` (10_state.md R39, R40). -/
structure Osc where
  /-- `OSC_PHASE[i]` -/
  phase : BitVec 32
  /-- `C_WAVE[i]` -/
  cWave : Param
  /-- `C_OCT[i]` -/
  cOct : Param
  /-- `C_SEMI[i]` -/
  cSemi : Param
  /-- `C_LEVEL[i]` -/
  cLevel : Param
deriving DecidableEq, Repr

/-- The registers of envelope `i` (10_state.md R41 to R45). -/
structure Env where
  /-- `ENV_STAGE[i]` -/
  stage : Stage
  /-- `ENV_L[i]` -/
  level : BitVec 32
  /-- `ENV_INC_A[i]` -/
  incA : BitVec 32
  /-- `ENV_DEC_D[i]` -/
  decD : BitVec 32
  /-- `ENV_S_TARGET[i]` -/
  sTarget : BitVec 32
  /-- `ENV_N_R[i]` -/
  nR : BitVec 22
  /-- `ENV_DEC_R[i]` -/
  decR : BitVec 32
deriving DecidableEq, Repr

/-- The register of LFO `i` (10_state.md R47). -/
structure Lfo where
  /-- `LFO_PHASE[i]` -/
  phase : BitVec 32
deriving DecidableEq, Repr

/-- The registers of filter `f` (10_state.md R48). -/
structure Flt where
  /-- `FLT_LOW[f]`, signed -/
  low : BitVec 32
  /-- `FLT_BAND[f]`, signed -/
  band : BitVec 32
  /-- `C_TYPE[f]` -/
  cType : Param
  /-- `C_ENVDEPTH[f]` -/
  cEnvDepth : Param
deriving DecidableEq, Repr

/-- "The complete state of one TSVU is the registers of this table and nothing else" (10_state.md
R30). -/
structure Regs where
  /-- `VSTATE` (R31) -/
  vstate : VState
  /-- `NOTE` (R32) -/
  note : BitVec 7
  /-- `KEYLEVEL` (R33) -/
  keyLevel : BitVec 16
  /-- `BEND`, signed (R34) -/
  bend : BitVec 11
  /-- `LAST_CC` (R35) -/
  lastCc : BitVec 14
  /-- `CLEARED` (R36) -/
  cleared : Bool
  /-- `RESP` (R37) -/
  resp : Bool
  /-- `RP` (R38) -/
  rp : BitVec 16
  /-- `RC` (R38) -/
  rc : BitVec 13
  /-- `OSC_PHASE[i]` and the oscillator caches (R39, R40) -/
  osc : Three Osc
  /-- `ENV_*[i]` (R41 to R45) -/
  env : Three Env
  /-- `LFO_PHASE[i]` (R47) -/
  lfo : Three Lfo
  /-- `FLT_*[f]` and the filter caches (R48) -/
  flt : Two Flt
  /-- `NOISE_LFSR` (R49) -/
  lfsr : BitVec 16
  /-- `PA[0..127]` (R50) -/
  pa : Vector Param 128
deriving DecidableEq, Repr

/-- When the voice unit reads a Parameter Array word (10_state.md R51). -/
inductive ReadClass where
  | cached
  | latched
  | live
  | stored
deriving DecidableEq, Repr

/-- The audio buffer as cells (address, byte): word `a` of 20_memory.md R80 is the four cells at
`4 * a` to `4 * a + 3`, least significant byte first (log 2; no operation of the unit reads a cell
alone). -/
abbrev Memory := List Host.Cell

/-- What one of the surroundings does at one point of the unit's life (00_scope.md R7, log 3). -/
inductive Input where
  /-- The host presents a command word at the command port (30_encoding.md R101). -/
  | command (w : Word)
  /-- The parameter writer's `PSET idx, val` (20_memory.md R84). -/
  | pset (idx : BitVec 7) (val : Param)
  /-- The buffer owner, or another voice unit, writes a buffer word (20_memory.md R88). -/
  | bufferWrite (addr : BitVec 16) (val : Word)
  /-- The reset input is asserted (70_reset_and_hazards.md R255). -/
  | reset
  /-- Nobody does anything: the unit makes a step of its own, a tick if a RENDER runs. -/
  | pause
  /-- The host waits until the command before is complete (30_encoding.md R118: "between the commands
  around it"). -/
  | await
deriving DecidableEq, Repr

/-- The machine: one TSVU, its buffer, and the model's own fields. -/
structure State where
  /-- The registers of the TSVU (10_state.md R30). -/
  regs : Regs
  /-- The audio buffer, the host's (20_memory.md R80). -/
  buffer : Memory
  /-- MODEL's own: what the surroundings do next, in order (20_memory.md R85; log 3). -/
  inputs : List Input
  /-- MODEL's own: how many `note_cleared` events were emitted (60_exceptions.md R238; log 7). -/
  noteCleared : Nat
  /-- MODEL's own: the `start` field of the last RENDER that began a block, with which the buffer
  owner keeps its duty (b) of 20_memory.md R88 (log 6). -/
  winStart : BitVec 16
deriving DecidableEq, Repr

/-- The reasons a step can fault: none, "The set of exception causes is empty" (60_exceptions.md
R235). -/
inductive Fault where
deriving DecidableEq, Repr

/-- The reasons a step can refuse. -/
inductive Refusal where
  /-- Raised by an arm of `exec` for a command whose meaning is not written; no arm raises it. Safe: a
  refused command has no next state. -/
  | notModelled (mnemonic : String)
deriving DecidableEq, Repr

/-- An oscillator at reset (70_reset_and_hazards.md R255). -/
def Osc.reset : Osc := { phase := 0, cWave := 0, cOct := 0, cSemi := 0, cLevel := 0 }

/-- An envelope at reset: `ENV_N_R` = 1, the rest 0 (70_reset_and_hazards.md R255). -/
def Env.reset : Env :=
  { stage := .idle, level := 0, incA := 0, decD := 0, sTarget := 0, nR := 1, decR := 0 }

/-- An LFO at reset (70_reset_and_hazards.md R255). -/
def Lfo.reset : Lfo := { phase := 0 }

/-- A filter at reset (70_reset_and_hazards.md R255). -/
def Flt.reset : Flt := { low := 0, band := 0, cType := 0, cEnvDepth := 0 }

/-- The registers after reset, every one at the value of the table of 70_reset_and_hazards.md R255. -/
def Regs.reset : Regs where
  vstate := .idle
  note := 0
  keyLevel := 0
  bend := 0
  lastCc := 0
  cleared := false
  resp := false
  rp := 0
  rc := 0
  osc := ⟨Osc.reset, Osc.reset, Osc.reset⟩
  env := ⟨Env.reset, Env.reset, Env.reset⟩
  lfo := ⟨Lfo.reset, Lfo.reset, Lfo.reset⟩
  flt := ⟨Flt.reset, Flt.reset⟩
  lfsr := Config.lfsrSeed
  pa := Vector.replicate 128 0

/-- The machine right after reset: the registers as 70_reset_and_hazards.md R255 says, nothing listed
in the buffer (R256, log 1), nothing presented at any port ("the unit fetches nothing and simply
waits for its first command"). -/
def State.reset : State where
  regs := Regs.reset
  buffer := []
  inputs := []
  noteCleared := 0
  winStart := 0

end Sys2Proof.Machine
end

