-- ==== Sys2Proof/Syntax.lean ====
section
/-! DEFINITION. The commands of the TSVU: one constructor per row of opcode_table.json
(30_encoding.md R102), each operand at the width of its field (R103). -/

namespace Sys2Proof

/-- A decoded command. Reserved bits are not recorded (30_encoding.md R112). -/
inductive Instr where
  /-- `NOP` (40_commands.md R120). -/
  | nop
  /-- `CANPLAY sound` (R121). -/
  | canplay (sound : BitVec 8)
  /-- `START note, vel, pw` (R122). -/
  | start (note : BitVec 7) (vel : BitVec 8) (pw : BitVec 14)
  /-- `STOP tail` (R123): 1 allows the tail-off, 0 kills. -/
  | stop (tail : BitVec 1)
  /-- `PWHEEL pw` (R124). -/
  | pwheel (pw : BitVec 14)
  /-- `CTRL id, val` (R125). -/
  | ctrl (id : BitVec 7) (val : BitVec 7)
  /-- `RENDER start, num` (R126). -/
  | render (start : BitVec 16) (num : BitVec 13)
  /-- The reserved opcode 7 (R127). -/
  | reserved7
deriving DecidableEq, Repr

end Sys2Proof
end

