-- ==== Sys2Proof/WellFormed.lean ====
section
/-! DEFINITION. Well-formedness. A term of `Instr` carries the width of each operand in its type, and
every pattern of those widths is in range (30_encoding.md R114), so every `Instr` is well formed. The
check the spec asks for is the assembler's, on a line of a listing whose operands are plain numbers:
"An operand that does not fit its field is an assembly error, not truncated" (R116). -/

namespace Sys2Proof

/-- The names of Parameter Array words that a `PSET` line may use instead of an index (30_encoding.md
R118, 10_state.md R52); a reserved word has no name. -/
inductive ParamName where
  | oscWave (i : Fin 3)
  | oscOct (i : Fin 3)
  | oscSemi (i : Fin 3)
  | oscLevel (i : Fin 3)
  | envEnable (i : Fin 3)
  | envAttack (i : Fin 3)
  | envDecay (i : Fin 3)
  | envSustain (i : Fin 3)
  | envRelease (i : Fin 3)
  | lfoWave (i : Fin 3)
  | lfoRate (i : Fin 3)
  | lfoDepth (i : Fin 3)
  | lfoDest (i : Fin 3)
  | fltType (f : Fin 2)
  | fltCutoff (f : Fin 2)
  | fltRes (f : Fin 2)
  | fltEnvDepth (f : Fin 2)
  | filterSeq
  | noiseLevel
  | drive
  | outGain
  /-- `FX0` to `FX3` (10_state.md R74). -/
  | fx (k : Fin 4)
deriving DecidableEq, Repr

/-- One line of a listing (30_encoding.md R116 to R118), its operands as the numbers written: the
commands, the four pseudo-commands of R117, a raw command word, and a parameter-port transaction. -/
inductive AsmLine where
  | nop
  | canplay (sound : Nat)
  | start (note : Nat) (vel : Nat) (pw : Nat)
  | stop (tail : Nat)
  | pwheel (pw : Nat)
  | ctrl (id : Nat) (val : Nat)
  | render (first : Nat) (num : Nat)
  /-- `NOTEON note, vel` (R117). -/
  | noteon (note : Nat) (vel : Nat)
  /-- `RELEASE` (R117). -/
  | release
  /-- `KILL` (R117). -/
  | kill
  /-- `CENTER` (R117). -/
  | center
  /-- A command word written as a number, as 95_test_vectors.md P5 writes the reserved opcode. -/
  | word (w : Nat)
  /-- `PSET idx, val` (R118). -/
  | pset (idx : Nat) (val : Nat)
  /-- `PSET name, val` (R118). -/
  | psetNamed (name : ParamName) (val : Nat)
deriving DecidableEq, Repr

/-- Every operand fits its field (30_encoding.md R116; field widths R103, R118). -/
def AsmLine.wellFormed : AsmLine → Bool
  | .nop => true
  | .canplay sound => sound < 256
  | .start note vel pw => note < 128 && vel < 256 && pw < 16384
  | .stop tail => tail < 2
  | .pwheel pw => pw < 16384
  | .ctrl id val => id < 128 && val < 128
  | .render first num => first < 65536 && num < 8192
  | .noteon note vel => note < 128 && vel < 256
  | .release => true
  | .kill => true
  | .center => true
  | .word w => w < 4294967296
  | .pset idx val => idx < 128 && val < 65536
  | .psetNamed _ val => val < 65536

end Sys2Proof
end

