-- ==== Sys2Proof/Machine/Operands.lean ====
section
/-! DEFINITION. The number formats and primitives of 00_scope.md section 4 (R10 to R17), the index map
of the Parameter Array (10_state.md R52) and its read classes (R51). All arithmetic is on exact
integers (00_scope.md R9, R11). -/

namespace Sys2Proof.Machine

/-- `asr(v, n) = floor(v / 2^n)` (00_scope.md R12). -/
def asr (v : Int) (n : Nat) : Int := v / ((2 ^ n : Nat) : Int)

/-- `clamp(v, lo, hi)` (00_scope.md R14). -/
def clamp (v lo hi : Int) : Int := if v < lo then lo else if hi < v then hi else v

/-- `sat32(v)` (00_scope.md R15). -/
def sat32 (v : Int) : Int := clamp v (-2147483648) 2147483647

/-- `ceil_div(a, b)` (00_scope.md R16), `b >= 1` at every use. -/
def ceilDiv (a b : Nat) : Nat := (a + b - 1) / b

/-- `zext_16(v)` (00_scope.md R10). -/
def zext16 (w : Param) : Nat := w.toNat

/-- `sext_16(v)` (00_scope.md R10). -/
def sext16 (w : Param) : Int :=
  if 32768 ≤ w.toNat then (w.toNat : Int) - 65536 else (w.toNat : Int)

/-- `sext_32(v)` (00_scope.md R10): the value of a signed 32-bit register. -/
def sext32 (w : Word) : Int :=
  if 2147483648 ≤ w.toNat then (w.toNat : Int) - 4294967296 else (w.toNat : Int)

/-- `u115(w)`: a word read as a U1.15 gain, unity `0x8000`, clamped (00_scope.md R17). -/
def u115 (w : Param) : Nat := min (zext16 w) 0x8000

/-- Index `16i + k` of the Parameter Array (10_state.md R52). -/
def triIdx (i : Fin 3) (k : Nat) : BitVec 7 := BitVec.ofNat 7 (16 * i.val + k)

/-- Index `0x30 + 8f + k` of the Parameter Array (10_state.md R52). -/
def fltIdx (f : Fin 2) (k : Nat) : BitVec 7 := BitVec.ofNat 7 (0x30 + 8 * f.val + k)

/-- `OSCi_WAVE` (10_state.md R53). -/
def oscWaveIdx (i : Fin 3) : BitVec 7 := triIdx i 0
/-- `OSCi_OCT` (10_state.md R54). -/
def oscOctIdx (i : Fin 3) : BitVec 7 := triIdx i 1
/-- `OSCi_SEMI` (10_state.md R55). -/
def oscSemiIdx (i : Fin 3) : BitVec 7 := triIdx i 2
/-- `OSCi_LEVEL` (10_state.md R56). -/
def oscLevelIdx (i : Fin 3) : BitVec 7 := triIdx i 3
/-- `ENVi_ENABLE` (10_state.md R57). -/
def envEnableIdx (i : Fin 3) : BitVec 7 := triIdx i 4
/-- `ENVi_ATTACK` (10_state.md R58). -/
def envAttackIdx (i : Fin 3) : BitVec 7 := triIdx i 5
/-- `ENVi_DECAY` (10_state.md R59). -/
def envDecayIdx (i : Fin 3) : BitVec 7 := triIdx i 6
/-- `ENVi_SUSTAIN` (10_state.md R60). -/
def envSustainIdx (i : Fin 3) : BitVec 7 := triIdx i 7
/-- `ENVi_RELEASE` (10_state.md R61). -/
def envReleaseIdx (i : Fin 3) : BitVec 7 := triIdx i 8
/-- `LFOi_WAVE` (10_state.md R62). -/
def lfoWaveIdx (i : Fin 3) : BitVec 7 := triIdx i 9
/-- `LFOi_RATE` (10_state.md R63). -/
def lfoRateIdx (i : Fin 3) : BitVec 7 := triIdx i 10
/-- `LFOi_DEPTH` (10_state.md R64). -/
def lfoDepthIdx (i : Fin 3) : BitVec 7 := triIdx i 11
/-- `LFOi_DEST` (10_state.md R65). -/
def lfoDestIdx (i : Fin 3) : BitVec 7 := triIdx i 12
/-- `FLTf_TYPE` (10_state.md R66). -/
def fltTypeIdx (f : Fin 2) : BitVec 7 := fltIdx f 0
/-- `FLTf_CUTOFF` (10_state.md R67). -/
def fltCutoffIdx (f : Fin 2) : BitVec 7 := fltIdx f 1
/-- `FLTf_RES` (10_state.md R68). -/
def fltResIdx (f : Fin 2) : BitVec 7 := fltIdx f 2
/-- `FLTf_ENVDEPTH` (10_state.md R69). -/
def fltEnvDepthIdx (f : Fin 2) : BitVec 7 := fltIdx f 3
/-- `FILTER_SEQ` (10_state.md R70). -/
def filterSeqIdx : BitVec 7 := 0x40#7
/-- `NOISE_LEVEL` (10_state.md R71). -/
def noiseLevelIdx : BitVec 7 := 0x41#7
/-- `DRIVE` (10_state.md R72). -/
def driveIdx : BitVec 7 := 0x42#7
/-- `OUT_GAIN` (10_state.md R73). -/
def outGainIdx : BitVec 7 := 0x43#7

/-- `FXk` (10_state.md R74). -/
def fxIdx (k : Fin 4) : BitVec 7 := BitVec.ofNat 7 (0x44 + k.val)

/-- The index a parameter's name stands for (10_state.md R52). -/
def nameIdx : ParamName → BitVec 7
  | .oscWave i => oscWaveIdx i
  | .oscOct i => oscOctIdx i
  | .oscSemi i => oscSemiIdx i
  | .oscLevel i => oscLevelIdx i
  | .envEnable i => envEnableIdx i
  | .envAttack i => envAttackIdx i
  | .envDecay i => envDecayIdx i
  | .envSustain i => envSustainIdx i
  | .envRelease i => envReleaseIdx i
  | .lfoWave i => lfoWaveIdx i
  | .lfoRate i => lfoRateIdx i
  | .lfoDepth i => lfoDepthIdx i
  | .lfoDest i => lfoDestIdx i
  | .fltType f => fltTypeIdx f
  | .fltCutoff f => fltCutoffIdx f
  | .fltRes f => fltResIdx f
  | .fltEnvDepth f => fltEnvDepthIdx f
  | .filterSeq => filterSeqIdx
  | .noiseLevel => noiseLevelIdx
  | .drive => driveIdx
  | .outGain => outGainIdx
  | .fx k => fxIdx k

/-- The read class of each Parameter Array word, by the map of 10_state.md R52. -/
def readClass (idx : BitVec 7) : ReadClass :=
  let k := idx.toNat
  if k < 0x30 then
    if k % 16 ≤ 3 then .cached
    else if k % 16 ≤ 8 then .latched
    else if k % 16 ≤ 12 then .live
    else .stored
  else if k < 0x40 then
    if k % 8 = 0 ∨ k % 8 = 3 then .cached
    else if k % 8 = 1 ∨ k % 8 = 2 then .live
    else .stored
  else if k ≤ 0x43 then .live
  else .stored

end Sys2Proof.Machine
end

