-- ==== Sys2Proof/Machine/Ops.lean ====
section
/-! DEFINITION. The operations over the two memories: the audio buffer (20_memory.md R80 to R83) and the
Parameter Array (R84). Taking an exception and returning from one have no operation here: "The TSVU
raises no exception" (60_exceptions.md R235, R241, R242). -/

namespace Sys2Proof.Machine

/-- What an address that is not listed reads as (log 1). -/
def Memory.unlisted : BitVec 8 := 0#8

/-- The number of cells of the buffer space: 65536 words of four cells (20_memory.md R80). -/
def Memory.cells : Nat := 262144

/-- Addresses strictly rising, all of them at least `lo`, inside the space, and no cell equal to what
an unlisted address reads as. -/
def Memory.wfFrom (lo : Nat) : Memory → Bool
  | [] => true
  | c :: m =>
    decide (lo ≤ c.1) && decide (c.1 < Memory.cells) && decide (c.2 ≠ Memory.unlisted)
      && Memory.wfFrom (c.1 + 1) m

/-- The canonical form: equal buffers are equal lists. -/
def Memory.wf (m : Memory) : Bool := Memory.wfFrom 0 m

/-- The cell at an address. -/
def Memory.readByte : Memory → Nat → BitVec 8
  | [], _ => Memory.unlisted
  | c :: m, a => if c.1 = a then c.2 else Memory.readByte m a

/-- The memory with one cell replaced, in canonical form again. -/
def Memory.writeByte : Memory → Nat → BitVec 8 → Memory
  | [], a, v => if v = Memory.unlisted then [] else [(a, v)]
  | c :: m, a, v =>
    if a < c.1 then
      if v = Memory.unlisted then c :: m else (a, v) :: c :: m
    else if a = c.1 then
      if v = Memory.unlisted then m else (a, v) :: m
    else c :: Memory.writeByte m a v

/-- The first cell of word `addr` (log 2). -/
def cellOf (addr : BitVec 16) : Nat := 4 * addr.toNat

/-- `MemRead(addr, 1)`: one whole 32-bit word (20_memory.md R81). -/
def Memory.readWord (m : Memory) (addr : BitVec 16) : Word :=
  m.readByte (cellOf addr + 3) ++ m.readByte (cellOf addr + 2) ++ m.readByte (cellOf addr + 1)
    ++ m.readByte (cellOf addr)

/-- `MemWrite(addr, 1, v)`: replaces the whole word (20_memory.md R81). -/
def Memory.writeWord (m : Memory) (addr : BitVec 16) (v : Word) : Memory :=
  (((m.writeByte (cellOf addr) (v.extractLsb' 0 8)).writeByte (cellOf addr + 1)
    (v.extractLsb' 8 8)).writeByte (cellOf addr + 2) (v.extractLsb' 16 8)).writeByte
      (cellOf addr + 3) (v.extractLsb' 24 8)

/-- `accumulate(addr, out)`: the word plus the sample, modulo 2^32 (20_memory.md R82). -/
def Memory.accumulate (m : Memory) (addr : BitVec 16) (out : Int) : Memory :=
  m.writeWord addr (BitVec.ofInt 32 (((m.readWord addr).toNat : Int) + out))

/-- `PA[k]` (00_scope.md R19, 10_state.md R50). -/
def paRead (pa : Vector Param 128) (idx : BitVec 7) : Param := pa[idx.toNat]'idx.isLt

/-- `PA[idx] <- val`, the whole word at once (20_memory.md R84). -/
def paWrite (pa : Vector Param 128) (idx : BitVec 7) (val : Param) : Vector Param 128 :=
  pa.set idx.toNat val idx.isLt

/-- The oscillator part of `load_caches()` (40_commands.md R128). -/
def loadOsc (pa : Vector Param 128) (i : Fin 3) (o : Osc) : Osc :=
  { o with
    cWave := paRead pa (oscWaveIdx i)
    cOct := paRead pa (oscOctIdx i)
    cSemi := paRead pa (oscSemiIdx i)
    cLevel := paRead pa (oscLevelIdx i) }

/-- The filter part of `load_caches()` (40_commands.md R128). -/
def loadFlt (pa : Vector Param 128) (f : Fin 2) (t : Flt) : Flt :=
  { t with
    cType := paRead pa (fltTypeIdx f)
    cEnvDepth := paRead pa (fltEnvDepthIdx f) }

/-- `load_caches()`: the six cached words of each kind, all at one instant (40_commands.md R128). -/
def loadCaches (r : Regs) : Regs :=
  { r with
    osc := Three.ofFn fun i => loadOsc r.pa i (r.osc.get i)
    flt := Two.ofFn fun f => loadFlt r.pa f (r.flt.get f) }

end Sys2Proof.Machine
end

