-- ==== Sys2Proof/Machine/Envelope.lean ====
section
/-! DEFINITION. The envelope generator: key-on, key-off, kill, tick and output (42_envelope.md R160 to
R168). -/

namespace Sys2Proof.Machine

/-- `max(1, T * 48)`: the tick count of a time word (42_envelope.md R162). -/
def envTicks (t : Param) : Nat := max 1 (zext16 t * Config.ticksPerMs)

/-- `env_key_on(i)` (42_envelope.md R163): the five latched words are read here and nowhere else; the
level and `ENV_DEC_R` keep their values. -/
def envKeyOn (pa : Vector Param 128) (i : Fin 3) (e : Env) : Env :=
  let enabled : Bool := paRead pa (envEnableIdx i) != 0#16
  let nA := if enabled then envTicks (paRead pa (envAttackIdx i)) else 1
  let nD := if enabled then envTicks (paRead pa (envDecayIdx i)) else 1
  let sus := if enabled then u115 (paRead pa (envSustainIdx i)) else 0x8000
  let nR := if enabled then envTicks (paRead pa (envReleaseIdx i)) else 1
  { e with
    sTarget := BitVec.ofNat 32 (sus * 65536)
    incA := BitVec.ofNat 32 (ceilDiv Config.lMax nA)
    decD := BitVec.ofNat 32 (ceilDiv (Config.lMax - sus * 65536) nD)
    nR := BitVec.ofNat 22 nR
    stage := .attack }

/-- `env_key_off(i)`: only from ATTACK, DECAY and SUSTAIN (42_envelope.md R164). -/
def envKeyOff (e : Env) : Env :=
  match e.stage with
  | .attack | .decay | .sustain =>
    { e with decR := BitVec.ofNat 32 (ceilDiv e.level.toNat e.nR.toNat), stage := .release }
  | .release | .idle => e

/-- `env_kill(i)` (42_envelope.md R165). -/
def envKill (e : Env) : Env := { e with level := 0, stage := .idle }

/-- The register part of `env_tick(i)` (42_envelope.md R166): the level is an exact integer until it
is stored. -/
def envTick (e : Env) : Env :=
  let l : Int := e.level.toNat
  match e.stage with
  | .attack =>
    if l + e.incA.toNat ≥ Config.lMax then
      { e with level := BitVec.ofNat 32 Config.lMax, stage := .decay }
    else { e with level := BitVec.ofInt 32 (l + e.incA.toNat) }
  | .decay =>
    if l - e.decD.toNat ≤ e.sTarget.toNat then { e with level := e.sTarget, stage := .sustain }
    else { e with level := BitVec.ofInt 32 (l - e.decD.toNat) }
  | .sustain => e
  | .release =>
    if l - e.decR.toNat ≤ 0 then { e with level := 0, stage := .idle }
    else { e with level := BitVec.ofInt 32 (l - e.decR.toNat) }
  | .idle => { e with level := 0 }

/-- The output `asr(ENV_L[i], 16)` (42_envelope.md R167), which `env_tick` returns after its
advance. -/
def envOut (e : Env) : Int := asr e.level.toNat 16

end Sys2Proof.Machine
end

