-- ==== Sys2Proof/Machine/Waveform.lean ====
section
/-! DEFINITION. The waveforms, pure functions of a selector word and a phase (41_oscillator.md R140 to
R144), used by the oscillators, the LFOs and the filter coefficient. -/

namespace Sys2Proof.Machine

/-- `sin_q15(ph)` (41_oscillator.md R141). -/
def sinQ15 (ph : BitVec 32) : Int :=
  let q := (ph.extractLsb' 30 2).toNat
  let idx := (ph.extractLsb' 24 6).toNat
  let fr := (ph.extractLsb' 16 8).toNat
  let a := if q = 0 ∨ q = 2 then Config.sinq idx else Config.sinq (64 - idx)
  let b := if q = 0 ∨ q = 2 then Config.sinq (idx + 1) else Config.sinq (63 - idx)
  let v := a + asr ((b - a) * fr) 8
  if 2 ≤ q then -v else v

/-- `saw_q15(ph)` (41_oscillator.md R142). -/
def sawQ15 (ph : BitVec 32) : Int :=
  max (((ph.extractLsb' 16 16).toNat : Int) - 32768) (-32767)

/-- `square_q15(ph)` (41_oscillator.md R143). -/
def squareQ15 (ph : BitVec 32) : Int :=
  if (ph.extractLsb' 31 1).toNat = 0 then 32767 else -32767

/-- `tri_q15(ph)` (41_oscillator.md R144). -/
def triQ15 (ph : BitVec 32) : Int :=
  let t : Int := (ph.extractLsb' 16 16).toNat
  if t < 32768 then -32767 + 2 * t else 32767 - 2 * (t - 32768)

/-- `wave(sel, ph)`: every selector but 1, 2, 3 is sine (41_oscillator.md R140). -/
def wave (sel : Param) (ph : BitVec 32) : Int :=
  if sel = 1#16 then sawQ15 ph
  else if sel = 2#16 then squareQ15 ph
  else if sel = 3#16 then triQ15 ph
  else sinQ15 ph

end Sys2Proof.Machine
end

