-- ==== Sys2Proof/Machine/Oscillator.lean ====
section
/-! DEFINITION. Pitch words and the oscillator's part of a tick (41_oscillator.md R145 to R150). -/

namespace Sys2Proof.Machine

/-- `pitch_to_inc(p)`: the phase increment of a pitch word (41_oscillator.md R146). -/
def pitchToInc (p : Int) : Int :=
  let c := (clamp p 0 Config.pMax).toNat
  let s := c / 256
  let fr := c % 256
  let o := s / 12
  let k := s % 12
  let base := Config.tune k + asr ((Config.tune (k + 1) - Config.tune k) * fr) 8
  asr base (10 - o)

/-- `osc_pitch(i, vib_i)`: note, octave, semitone, wheel and vibrato (41_oscillator.md R147). -/
def oscPitch (note : BitVec 7) (bend : BitVec 11) (o : Osc) (vib : Int) : Int :=
  let oct := clamp (sext16 o.cOct) (-4) 4
  let semi := clamp (sext16 o.cSemi) (-12) 12
  256 * ((note.toNat : Int) + 12 * oct + semi) + bend.toInt + vib

/-- The raw sample of `osc_tick`: the waveform at the present phase (41_oscillator.md R148). -/
def oscRaw (o : Osc) : Int := wave o.cWave o.phase

/-- The register part of `osc_tick`: the phase advances by the increment of the present pitch
(41_oscillator.md R148). -/
def oscAdvance (note : BitVec 7) (bend : BitVec 11) (o : Osc) (vib : Int) : Osc :=
  { o with
    phase := BitVec.ofInt 32 ((o.phase.toNat : Int) + pitchToInc (oscPitch note bend o vib)) }

/-- The raw sample scaled by the cached level, then by the tremolo factor (41_oscillator.md R149,
R150). -/
def oscScaled (o : Osc) (trem : Int) : Int :=
  asr (asr (oscRaw o * u115 o.cLevel) 15 * trem) 15

end Sys2Proof.Machine
end

