-- ==== Sys2Proof/Machine/Filter.lean ====
section
/-! DEFINITION. The state-variable filter (44_filter.md R195 to R203). -/

namespace Sys2Proof.Machine

/-- Types 1, 2 and 3 filter; every other word is off (44_filter.md R196). -/
def fltOn (t : Flt) : Bool := t.cType == 1#16 || t.cType == 2#16 || t.cType == 3#16

/-- The modulated, clamped cutoff pitch word `pc` (44_filter.md R198). -/
def fltPitch (pa : Vector Param 128) (f : Fin 2) (t : Flt) (e : Int) : Int :=
  clamp ((zext16 (paRead pa (fltCutoffIdx f)) : Int) + asr (sext16 t.cEnvDepth * e) 15)
    0 Config.cutMax

/-- The frequency coefficient `fc` of a cutoff pitch word (44_filter.md R198). -/
def fltCoeff (pc : Int) : Int := 2 * sinQ15 (BitVec.ofInt 32 (asr (pitchToInc pc) 1))

/-- The damping coefficient `qd` of a resonance word (44_filter.md R199). -/
def fltDamping (res : Param) : Int :=
  Config.qdMax - asr ((Config.qdMax - Config.qdMin) * u115 res) 15

/-- The new low-pass signal from the old state (44_filter.md R197, R200). -/
def fltLow (t : Flt) (fc : Int) : Int := sat32 (sext32 t.low + asr (fc * sext32 t.band) 15)

/-- The new high-pass signal from the input, the new low and the old band (44_filter.md R197). -/
def fltHigh (t : Flt) (fc qd x : Int) : Int :=
  sat32 (sat32 (x * 256) - fltLow t fc - asr (qd * sext32 t.band) 14)

/-- The new band-pass signal from the old band and the new high (44_filter.md R197). -/
def fltBand (t : Flt) (fc qd x : Int) : Int :=
  sat32 (sext32 t.band + asr (fc * fltHigh t fc qd x) 15)

/-- `fc` of filter `f` in a tick with envelope output `e`. -/
def fltFc (pa : Vector Param 128) (f : Fin 2) (t : Flt) (e : Int) : Int :=
  fltCoeff (fltPitch pa f t e)

/-- `qd` of filter `f` in a tick. -/
def fltQd (pa : Vector Param 128) (f : Fin 2) : Int := fltDamping (paRead pa (fltResIdx f))

/-- The sample `filter_tick(f, x_in, e)` returns (44_filter.md R197, R201, R202). -/
def fltOut (pa : Vector Param 128) (f : Fin 2) (t : Flt) (x e : Int) : Int :=
  let fc := fltFc pa f t e
  let qd := fltQd pa f
  if t.cType = 1#16 then asr (fltLow t fc) 8
  else if t.cType = 2#16 then asr (fltHigh t fc qd x) 8
  else if t.cType = 3#16 then asr (fltBand t fc qd x) 8
  else x

/-- The register part of `filter_tick(f, x_in, e)`: held when the filter is off (44_filter.md R197,
R202). -/
def fltAdvance (pa : Vector Param 128) (f : Fin 2) (t : Flt) (x e : Int) : Flt :=
  if fltOn t then
    { t with
      low := BitVec.ofInt 32 (fltLow t (fltFc pa f t e))
      band := BitVec.ofInt 32 (fltBand t (fltFc pa f t e) (fltQd pa f) x) }
  else t

end Sys2Proof.Machine
end

