-- ==== Sys2Proof/Machine/Flags.lean ====
section
/-! DEFINITION. The status bits and the STATUS word. The TSVU has no condition codes (10_state.md R77):
its flag-like bits are CLEARED (R36) and RESP (R37), read through the STATUS word (R76). -/

namespace Sys2Proof.Machine

/-- The encoding of `VSTATE` (10_state.md R31). -/
def VState.code : VState → BitVec 2
  | .idle => 0#2
  | .sounding => 1#2
  | .releasing => 2#2

/-- The encoding of `ENV_STAGE` (10_state.md R41). -/
def Stage.code : Stage → BitVec 3
  | .idle => 0#3
  | .attack => 1#3
  | .decay => 2#3
  | .sustain => 3#3
  | .release => 4#3

/-- The STATUS word, a read-only view: reading it changes nothing (10_state.md R76). -/
def statusWord (r : Regs) : Word :=
  0#12 ++ r.note ++ r.env.x2.stage.code ++ r.env.x1.stage.code ++ r.env.x0.stage.code
    ++ BitVec.ofBool r.resp ++ BitVec.ofBool r.cleared ++ r.vstate.code

/-- The voice becomes IDLE with its event: `VSTATE <- IDLE; CLEARED <- 1; emit note_cleared`
(40_commands.md R123, R126; 60_exceptions.md R238). -/
def freeVoice (s : State) : State :=
  { s with
    regs := { s.regs with vstate := .idle, cleared := true }
    noteCleared := s.noteCleared + 1 }

end Sys2Proof.Machine
end

