-- ==== Sys2Proof/Machine/Lfo.lean ====
section
/-! DEFINITION. The LFO's part of a tick (43_lfo.md R180 to R187). -/

namespace Sys2Proof.Machine

/-- The LFO's output `lfo`, at the phase before this tick's advance (43_lfo.md R182). -/
def lfoOutput (pa : Vector Param 128) (i : Fin 3) (l : Lfo) : Int :=
  asr (wave (paRead pa (lfoWaveIdx i)) l.phase * u115 (paRead pa (lfoDepthIdx i))) 15

/-- The phase increment `linc` of a rate word (43_lfo.md R183). -/
def lfoInc (rate : Param) : Int := asr ((zext16 rate : Int) * Config.lfoK) 8

/-- The register part of `lfo_tick`, in every tick whatever the destination (43_lfo.md R183). -/
def lfoAdvance (pa : Vector Param 128) (i : Fin 3) (l : Lfo) : Lfo :=
  { l with phase := BitVec.ofInt 32 ((l.phase.toNat : Int) + lfoInc (paRead pa (lfoRateIdx i))) }

/-- `vib_i`: the pitch offset of destination 1, else 0 (43_lfo.md R181, R185). -/
def lfoVib (pa : Vector Param 128) (i : Fin 3) (l : Lfo) : Int :=
  if paRead pa (lfoDestIdx i) = 1#16 then asr (lfoOutput pa i l) 7 else 0

/-- `trem_i`: the amplitude factor of destination 2, else unity (43_lfo.md R181, R186). -/
def lfoTrem (pa : Vector Param 128) (i : Fin 3) (l : Lfo) : Int :=
  if paRead pa (lfoDestIdx i) = 2#16 then
    0x8000 - asr ((u115 (paRead pa (lfoDepthIdx i)) : Int) - lfoOutput pa i l) 1
  else 0x8000

end Sys2Proof.Machine
end

