-- ==== Sys2Proof/Machine/Tick.lean ====
section
/-! DEFINITION. The tick: the seven steps of 45_voice_mix.md R215 in their order, each value of the tick
a function of the registers at its start, and the accumulate into the buffer. -/

namespace Sys2Proof.Machine

/-- `vib[i]` of step (1) (45_voice_mix.md R215). -/
def tickVib (r : Regs) (i : Fin 3) : Int := lfoVib r.pa i (r.lfo.get i)

/-- `trem[i]` of step (1) (45_voice_mix.md R215). -/
def tickTrem (r : Regs) (i : Fin 3) : Int := lfoTrem r.pa i (r.lfo.get i)

/-- `b[i]` of step (2) (45_voice_mix.md R215). -/
def tickB (r : Regs) (i : Fin 3) : Int := oscScaled (r.osc.get i) (tickTrem r i)

/-- `e[i]` of step (3): the output after this tick's advance (45_voice_mix.md R215, R216). -/
def tickE (r : Regs) (i : Fin 3) : Int := envOut (envTick (r.env.get i))

/-- `c[i]` of step (3) (45_voice_mix.md R216). -/
def tickC (r : Regs) (i : Fin 3) : Int := asr (tickB r i * tickE r i) 15

/-- The sample `noise_tick()` returns: the state before the shift (45_voice_mix.md R218). -/
def noiseSample (lfsr : BitVec 16) : Int := max (sext16 lfsr) (-32767)

/-- The register part of `noise_tick()` (45_voice_mix.md R218). -/
def noiseNext (lfsr : BitVec 16) : BitVec 16 :=
  if (lfsr.extractLsb' 0 1).toNat = 1 then (lfsr >>> 1) ^^^ Config.lfsrTaps else lfsr >>> 1

/-- `emax`, the greatest envelope output of the tick (45_voice_mix.md R219). -/
def tickEmax (r : Regs) : Int := max (tickE r 0) (max (tickE r 1) (tickE r 2))

/-- `nz` of step (4) (45_voice_mix.md R219). -/
def tickNz (r : Regs) : Int :=
  asr (asr (noiseSample r.lfsr * u115 (paRead r.pa noiseLevelIdx)) 15 * tickEmax r) 15

/-- `mix` of step (4): the exact sum (45_voice_mix.md R220). -/
def tickMix (r : Regs) : Int := tickC r 0 + tickC r 1 + tickC r 2 + tickNz r

/-- `FILTER_SEQ` = 1 is parallel, every other value serial (45_voice_mix.md R221). -/
def parallelRouting (pa : Vector Param 128) : Bool := paRead pa filterSeqIdx == 1#16

/-- The output of filter `f` for input `x`, its cutoff modulated by envelope `f` (45_voice_mix.md
R223). -/
def tickFlt0 (r : Regs) (x : Int) : Int := fltOut r.pa 0 r.flt.x0 x (tickE r 0)

/-- The same of filter 1 (45_voice_mix.md R223). -/
def tickFlt1 (r : Regs) (x : Int) : Int := fltOut r.pa 1 r.flt.x1 x (tickE r 1)

/-- The input of filter 1: the mix in the parallel topology, filter 0's output in the serial one
(45_voice_mix.md R221). -/
def tickFlt1In (r : Regs) : Int :=
  if parallelRouting r.pa then tickMix r else tickFlt0 r (tickMix r)

/-- `y` of step (5) (45_voice_mix.md R221). -/
def tickY (r : Regs) : Int :=
  if parallelRouting r.pa then asr (tickFlt0 r (tickMix r) + tickFlt1 r (tickMix r)) 1
  else tickFlt1 r (tickFlt0 r (tickMix r))

/-- The filter registers after step (5): each filter stepped once, with its own input. -/
def tickFlt (r : Regs) : Two Flt :=
  ⟨fltAdvance r.pa 0 r.flt.x0 (tickMix r) (tickE r 0),
   fltAdvance r.pa 1 r.flt.x1 (tickFlt1In r) (tickE r 1)⟩

/-- The output stage, step (6): velocity, drive, clip, output gain (45_voice_mix.md R224). -/
def outputStage (keyLevel : BitVec 16) (drive outGain : Param) (y : Int) : Int :=
  let v1 := asr (y * keyLevel.toNat) 15
  let v2 := asr (v1 * (4096 + zext16 drive)) 12
  let v3 := clamp v2 (-32767) 32767
  asr (v3 * u115 outGain) 15

/-- `out`, the sample of the tick (45_voice_mix.md R224). -/
def tickOut (r : Regs) : Int :=
  outputStage r.keyLevel (paRead r.pa driveIdx) (paRead r.pa outGainIdx) (tickY r)

/-- What a tick writes in the registers (45_voice_mix.md R228): phases, envelopes, noise, filters, and
last `RP` and `RC` (R226). -/
def tickRegs (r : Regs) : Regs :=
  { r with
    lfo := Three.ofFn fun i => lfoAdvance r.pa i (r.lfo.get i)
    osc := Three.ofFn fun i => oscAdvance r.note r.bend (r.osc.get i) (tickVib r i)
    env := r.env.map envTick
    lfsr := noiseNext r.lfsr
    flt := tickFlt r
    rp := r.rp + 1
    rc := r.rc - 1 }

/-- `voice_tick()` (45_voice_mix.md R215): the registers, and step (7), the accumulate at `RP`. -/
def voiceTick (s : State) : State :=
  { s with
    regs := tickRegs s.regs
    buffer := s.buffer.accumulate s.regs.rp (tickOut s.regs) }

/-- The idle check after RENDER's loop: all three envelopes IDLE (40_commands.md R126, 42_envelope.md
R168). -/
def allEnvIdle (r : Regs) : Bool :=
  r.env.x0.stage == .idle && r.env.x1.stage == .idle && r.env.x2.stage == .idle

/-- What follows RENDER's loop (40_commands.md R126). -/
def endBlock (s : State) : State := if allEnvIdle s.regs then freeVoice s else s

/-- One step of a RENDER that runs: one tick, and with the tick that makes `RC` 0 the end of the block
(40_commands.md R126; log 4). -/
def renderTick (s : State) : State :=
  if (voiceTick s).regs.rc = 0#13 then endBlock (voiceTick s) else voiceTick s

/-- What the unit does of its own in one step: a tick while a RENDER runs, else nothing
(60_exceptions.md R248; log 5). -/
def unitStep (s : State) : State := if s.regs.rc = 0#13 then s else renderTick s

end Sys2Proof.Machine
end

