-- ==== Sys2Proof/Machine/Commands.lean ====
section
/-! DEFINITION. The commands that run no tick and start no note: NOP, CANPLAY, PWHEEL, CTRL and the
reserved opcode (40_commands.md R120, R121, R124, R125, R127). -/

namespace Sys2Proof.Machine

/-- A wheel position in pitch units, `asr(pw - 8192, 4)` (40_commands.md R124, 10_state.md R34). -/
def bendOf (pw : BitVec 14) : BitVec 11 := BitVec.ofInt 11 (asr ((pw.toNat : Int) - 8192) 4)

/-- `NOP`: no register and no memory word changes (40_commands.md R120). -/
def execNop (s : State) : Host.Outcome State Fault Refusal := .next s

/-- `CANPLAY sound`: the operand is ignored, the answer is always 1 (40_commands.md R121). -/
def execCanplay (_sound : BitVec 8) (s : State) : Host.Outcome State Fault Refusal :=
  .next { s with regs := { s.regs with resp := true } }

/-- `PWHEEL pw` (40_commands.md R124). -/
def execPwheel (pw : BitVec 14) (s : State) : Host.Outcome State Fault Refusal :=
  .next { s with regs := { s.regs with bend := bendOf pw } }

/-- `CTRL id, val`: the pair is recorded and acts on nothing (40_commands.md R125). -/
def execCtrl (id val : BitVec 7) (s : State) : Host.Outcome State Fault Refusal :=
  .next { s with regs := { s.regs with lastCc := id ++ val } }

/-- The reserved opcode 7 executes as NOP (40_commands.md R127, 30_encoding.md R113). -/
def execReserved7 (s : State) : Host.Outcome State Fault Refusal := .next s

end Sys2Proof.Machine
end

