-- ==== Sys2Proof/Machine/Render.lean ====
section
/-! DEFINITION. RENDER (40_commands.md R126). The command's own step does what stands before its loop;
the machine then makes one step per tick while `RC` is not 0 (`renderTick`), the last one with the idle
check (log 4), so that parameter writes fall between ticks (20_memory.md R84, R85). -/

namespace Sys2Proof.Machine

/-- What RENDER does before its loop on a voice that is not IDLE (40_commands.md R126). -/
def beginBlock (start : BitVec 16) (num : BitVec 13) (s : State) : State :=
  { s with
    regs := { loadCaches s.regs with rp := start, rc := num }
    winStart := start }

/-- `RENDER start, num`: nothing on an IDLE voice or with `num` = 0 (40_commands.md R126 (a), (b)). -/
def execRender (start : BitVec 16) (num : BitVec 13) (s : State) :
    Host.Outcome State Fault Refusal :=
  .next (if s.regs.vstate ≠ .idle ∧ num ≠ 0#13 then beginBlock start num s else s)

end Sys2Proof.Machine
end

