-- ==== Sys2Proof/Machine/Voice.lean ====
section
/-! DEFINITION. The commands that start and end a note: START and STOP (40_commands.md R122, R123). -/

namespace Sys2Proof.Machine

/-- A velocity field as a key level, `min(vel, 128) << 8` (10_state.md R33, 40_commands.md R122). -/
def keyLevelOf (vel : BitVec 8) : BitVec 16 := BitVec.ofNat 16 (min vel.toNat 128 * 256)

/-- The explicit retrigger: phases and filter variables 0, only where the voice is IDLE (40_commands.md
R122). -/
def retrigger (r : Regs) : Regs :=
  if r.vstate = .idle then
    { r with
      osc := r.osc.map fun o => { o with phase := 0 }
      lfo := r.lfo.map fun l => { l with phase := 0 }
      flt := r.flt.map fun t => { t with low := 0, band := 0 } }
  else r

/-- The registers after START's pseudocode (40_commands.md R122), its lines in their order. -/
def startRegs (note : BitVec 7) (vel : BitVec 8) (pw : BitVec 14) (r : Regs) : Regs :=
  let r := retrigger r
  let r := { r with note := note, keyLevel := keyLevelOf vel, bend := bendOf pw }
  let r := loadCaches r
  { r with
    env := Three.ofFn fun i => envKeyOn r.pa i (r.env.get i)
    vstate := .sounding
    cleared := false }

/-- `START note, vel, pw` (40_commands.md R122). -/
def execStart (note : BitVec 7) (vel : BitVec 8) (pw : BitVec 14) (s : State) :
    Host.Outcome State Fault Refusal :=
  .next { s with regs := startRegs note vel pw s.regs }

/-- `STOP 1`: the release of a SOUNDING voice; nothing on an IDLE or RELEASING one (40_commands.md
R123). -/
def releaseVoice (s : State) : State :=
  if s.regs.vstate = .sounding then
    { s with regs := { s.regs with env := s.regs.env.map envKeyOff, vstate := .releasing } }
  else s

/-- `STOP 0`: the kill; the event only where the voice was not IDLE (40_commands.md R123). -/
def killVoice (s : State) : State :=
  let k := { s with regs := { s.regs with env := s.regs.env.map envKill } }
  if s.regs.vstate = .idle then k else freeVoice k

/-- `STOP tail` (40_commands.md R123). -/
def execStop (tail : BitVec 1) (s : State) : Host.Outcome State Fault Refusal :=
  .next (if tail = 1#1 then releaseVoice s else killVoice s)

end Sys2Proof.Machine
end

