-- ==== Sys2Proof/Machine/Dispatch.lean ====
section
/-! DEFINITION. `exec`: one arm per command, each a direct call of its meaning. -/

namespace Sys2Proof.Machine

def exec (i : Instr) (s : State) : Host.Outcome State Fault Refusal :=
  match i with
  | .nop => Sys2Proof.Machine.execNop s
  | .canplay sound => Sys2Proof.Machine.execCanplay sound s
  | .start note vel pw => Sys2Proof.Machine.execStart note vel pw s
  | .stop tail => Sys2Proof.Machine.execStop tail s
  | .pwheel pw => Sys2Proof.Machine.execPwheel pw s
  | .ctrl id val => Sys2Proof.Machine.execCtrl id val s
  | .render start num => Sys2Proof.Machine.execRender start num s
  | .reserved7 => Sys2Proof.Machine.execReserved7 s

end Sys2Proof.Machine
end

