-- ==== Sys2Proof/Decode.lean ====
section
/-! DEFINITION. The command decoder, total on all 2^32 words (30_encoding.md R102, R113), and after it
the encoder, written from the same field tables (R103 to R110). A command is one whole 32-bit word
(R100), so the decoder takes a word, not bytes. -/

namespace Sys2Proof

/-- `op = w[31:29]` (30_encoding.md R102). -/
def opcodeOf (w : Word) : BitVec 3 := w.extractLsb' 29 3

/-- Decoding looks at `op` alone and drops reserved bits (30_encoding.md R102, R103, R112). -/
def decode (w : Word) : Instr :=
  match (opcodeOf w).toNat with
  | 0 => .nop
  | 1 => .canplay (w.extractLsb' 0 8)
  | 2 => .start (w.extractLsb' 22 7) (w.extractLsb' 14 8) (w.extractLsb' 0 14)
  | 3 => .stop (w.extractLsb' 0 1)
  | 4 => .pwheel (w.extractLsb' 0 14)
  | 5 => .ctrl (w.extractLsb' 7 7) (w.extractLsb' 0 7)
  | 6 => .render (w.extractLsb' 13 16) (w.extractLsb' 0 13)
  | _ => .reserved7

/-- What the decoder reads from an instruction of `nbits` bits `w`, numbered as opcode_table.json
numbers them: bits above `nbits` are 0, and there is one command length, 32 bits (30_encoding.md
R100), so a longer instruction is no command. -/
def decodeTableWord (nbits w : Nat) : Option Instr :=
  if nbits ≤ 32 then some (decode (BitVec.ofNat 32 (w % 2 ^ nbits))) else none

/-- The word of a command, its reserved bits zero ("Assemblers write zeros", 30_encoding.md R112),
field by field from bit 31 down as R103 lays them out. -/
def encode : Instr → Word
  | .nop => 0#3 ++ 0#29
  | .canplay sound => 1#3 ++ 0#21 ++ sound
  | .start note vel pw => 2#3 ++ note ++ vel ++ pw
  | .stop tail => 3#3 ++ 0#28 ++ tail
  | .pwheel pw => 4#3 ++ 0#15 ++ pw
  | .ctrl id val => 5#3 ++ 0#15 ++ id ++ val
  | .render start num => 6#3 ++ start ++ num
  | .reserved7 => 7#3 ++ 0#29

/-- The opcode of a command's row (30_encoding.md R102). -/
def Instr.opcode : Instr → BitVec 3
  | .nop => 0#3
  | .canplay _ => 1#3
  | .start _ _ _ => 2#3
  | .stop _ => 3#3
  | .pwheel _ => 4#3
  | .ctrl _ _ => 5#3
  | .render _ _ => 6#3
  | .reserved7 => 7#3

/-- The operand bits of a command's format (30_encoding.md R103): the complement, below the opcode,
is the format's reserved bits. -/
def Instr.operandMask : Instr → Word
  | .nop => 0x00000000#32
  | .canplay _ => 0x000000FF#32
  | .start _ _ _ => 0x1FFFFFFF#32
  | .stop _ => 0x00000001#32
  | .pwheel _ => 0x00003FFF#32
  | .ctrl _ _ => 0x00003FFF#32
  | .render _ _ => 0x1FFFFFFF#32
  | .reserved7 => 0x00000000#32

/-- The mask every row of opcode_table.json has (30_encoding.md R102). -/
def opcodeMask : Word := 0xE0000000#32

/-- The `match` value of a command's row, `op << 29` (30_encoding.md R102). -/
def Instr.matchWord (i : Instr) : Word := i.opcode ++ 0#29

end Sys2Proof
end

