-- ==== Sys2Proof/Machine/Ports.lean ====
section
/-! DEFINITION. What the surroundings do at the unit's ports: the parameter write (20_memory.md R84),
the buffer owner's write (R88), reset (70_reset_and_hazards.md R255), and a listing's lines as port
transactions (30_encoding.md R116 to R118). -/

namespace Sys2Proof.Machine

/-- `PSET idx, val` (20_memory.md R84). -/
def psetStep (idx : BitVec 7) (val : Param) (s : State) : State :=
  { s with regs := { s.regs with pa := paWrite s.regs.pa idx val } }

/-- The buffer owner, or another voice unit, writes a word (20_memory.md R88). -/
def bufferStep (addr : BitVec 16) (val : Word) (s : State) : State :=
  { s with buffer := s.buffer.writeWord addr val }

/-- Reset: every register at its reset value, whatever the unit was doing; the buffer stays as it is
(70_reset_and_hazards.md R255, R256). -/
def resetStep (s : State) : State := { s with regs := Regs.reset }

/-- Whether a word lies in the window of the RENDER that runs: the window starts at `winStart` and
ends where the remaining `RC` ticks from `RP` end (20_memory.md R83, R88; log 6). -/
def inWindow (s : State) (addr : BitVec 16) : Bool :=
  decide ((addr - s.winStart).toNat < (s.regs.rp - s.winStart).toNat + s.regs.rc.toNat)

/-- Whether a RENDER is running (10_state.md R38: "`RC = 0` whenever no RENDER is running"). -/
def rendering (s : State) : Bool := s.regs.rc != 0#13

/-- Whether the buffer owner may write a word now: not into the window of a running RENDER (20_memory.md
R88 (b), (c)). -/
def mayWrite (s : State) (addr : BitVec 16) : Bool := !rendering s || !inWindow s addr

/-- A command word presented next at the command port, the unit ready for it (log 11). -/
def presentCommand (w : Word) (s : State) : State :=
  { s with
    regs := { s.regs with rc := 0#13 }
    inputs := .command w :: s.inputs }

/-- The host waits for the command before: a tick while a RENDER runs, and no longer once none does
(30_encoding.md R101, R118; log 3). -/
def awaitStep (rest : List Input) (s : State) : State :=
  if rendering s then unitStep s else { s with inputs := rest }

/-- A line of a listing as its transaction at a port (30_encoding.md R116 to R118); a line with an
operand that does not fit is an assembly error (R116). -/
def assemble (l : AsmLine) : Option Input :=
  if l.wellFormed then
    match l with
    | .nop => some (.command (encode .nop))
    | .canplay sound => some (.command (encode (.canplay (BitVec.ofNat 8 sound))))
    | .start note vel pw =>
      some (.command (encode (.start (BitVec.ofNat 7 note) (BitVec.ofNat 8 vel)
        (BitVec.ofNat 14 pw))))
    | .stop tail => some (.command (encode (.stop (BitVec.ofNat 1 tail))))
    | .pwheel pw => some (.command (encode (.pwheel (BitVec.ofNat 14 pw))))
    | .ctrl id val =>
      some (.command (encode (.ctrl (BitVec.ofNat 7 id) (BitVec.ofNat 7 val))))
    | .render start num =>
      some (.command (encode (.render (BitVec.ofNat 16 start) (BitVec.ofNat 13 num))))
    | .noteon note vel =>
      some (.command (encode (.start (BitVec.ofNat 7 note) (BitVec.ofNat 8 vel) 8192#14)))
    | .release => some (.command (encode (.stop 1#1)))
    | .kill => some (.command (encode (.stop 0#1)))
    | .center => some (.command (encode (.pwheel 8192#14)))
    | .word w => some (.command (BitVec.ofNat 32 w))
    | .pset idx val => some (.pset (BitVec.ofNat 7 idx) (BitVec.ofNat 16 val))
    | .psetNamed name val => some (.pset (nameIdx name) (BitVec.ofNat 16 val))
  else none

/-- A line's transaction as its host makes it: a parameter write waits for the end of the command before,
so that it "takes effect where it stands, between the commands around it" (30_encoding.md R118); the
command port itself makes a command wait (R101). -/
def portInputs (i : Input) : List Input :=
  match i with
  | .pset idx val => [.await, .pset idx val]
  | .command w => [.command w]
  | .bufferWrite addr val => [.bufferWrite addr val]
  | .reset => [.reset]
  | .pause => [.pause]
  | .await => [.await]

/-- A whole listing, in the order of its lines (30_encoding.md R116, R118), or none where a line is an
assembly error. -/
def assembleAll : List AsmLine → Option (List Input)
  | [] => some []
  | l :: ls =>
    match assemble l, assembleAll ls with
    | some i, some is => some (portInputs i ++ is)
    | _, _ => none

end Sys2Proof.Machine
end

