-- ==== Sys2Proof/Machine/Step.lean ====
section
/-! DEFINITION. One step of the machine. What moves next is plain data: the head of `inputs`, or the
unit itself when nothing is presented (00_scope.md R6, R7; 20_memory.md R85; log 3, log 4). -/

namespace Sys2Proof.Machine

/-- One step: a command, a parameter write, a buffer write, a reset, or one tick of a running RENDER.
While a RENDER runs the command port accepts nothing (30_encoding.md R101) and the buffer owner does
not write the window (20_memory.md R88): such an input stays where it is and the unit makes a tick
(log 6); so does a host that waits for the end of the command (R118). -/
def step (s : State) : Host.Outcome State Fault Refusal :=
  match s.inputs with
  | [] => .next (unitStep s)
  | .command w :: rest =>
    if rendering s then .next (unitStep s) else exec (decode w) { s with inputs := rest }
  | .pset idx val :: rest => .next (psetStep idx val { s with inputs := rest })
  | .bufferWrite addr val :: rest =>
    if mayWrite s addr then .next (bufferStep addr val { s with inputs := rest })
    else .next (unitStep s)
  | .reset :: rest => .next (resetStep { s with inputs := rest })
  | .pause :: rest => .next (unitStep { s with inputs := rest })
  | .await :: rest => .next (awaitStep rest s)

/-- `s` with the instruction whose bits are `w` presented at the command port, so that the next step
accepts and runs it (log 11). The unit fetches no instruction from a memory (10_state.md R38). -/
def State.withFetchWord (s : State) (nbits w : Nat) : State :=
  presentCommand (BitVec.ofNat 32 (w % 2 ^ nbits)) s

end Sys2Proof.Machine
end

