-- ==== Sys2Proof/Safety.lean ====
section
/-! DEFINITION. What the claims call a good state: the value sets of 10_state.md R30 and the
invariants of 40_commands.md R135, as predicates over the registers and the whole machine. -/

namespace Sys2Proof.Machine

/-- The value sets of one envelope's registers (10_state.md R42 to R45) and 40_commands.md R135 (d),
(e). -/
structure Env.Inv (e : Env) : Prop where
  level_le : e.level.toNat ≤ 2147483648
  incA_le : e.incA.toNat ≤ 2147483648
  decD_le : e.decD.toNat ≤ 2147483648
  sTarget_le : e.sTarget.toNat ≤ 2147483648
  sTarget_mul : e.sTarget.toNat % 65536 = 0
  nR_pos : 1 ≤ e.nR.toNat
  nR_le : e.nR.toNat ≤ 3145680
  decR_le : e.decR.toNat ≤ 2147483648
  idle_zero : e.stage = .idle → e.level = 0

/-- What `VSTATE` says of each envelope's stage (40_commands.md R135 (a), (b), (c)). -/
def stageFits (v : VState) (st : Stage) : Bool :=
  match v with
  | .idle => st == .idle
  | .sounding => st == .attack || st == .decay || st == .sustain
  | .releasing => st == .release || st == .idle

/-- The invariants of 40_commands.md R135 and the value sets of 10_state.md R30, for the registers. -/
structure Regs.Inv (r : Regs) : Prop where
  env : ∀ i, (r.env.get i).Inv
  stage : ∀ i, stageFits r.vstate (r.env.get i).stage = true
  lfsr : r.lfsr ≠ 0#16
  keyLevel_le : r.keyLevel.toNat ≤ 0x8000
  keyLevel_mul : r.keyLevel.toNat % 256 = 0
  bend_range : -512 ≤ r.bend.toInt ∧ r.bend.toInt ≤ 511
  /-- `CLEARED` is 1 only while the voice is IDLE (10_state.md R36). -/
  cleared : r.cleared = true → r.vstate = .idle
  /-- A RENDER runs only on a voice that is not IDLE (45_voice_mix.md R215). -/
  running : r.rc ≠ 0#13 → r.vstate ≠ .idle

/-- A good machine state: good registers, the buffer in canonical form. -/
structure State.Inv (s : State) : Prop where
  regs : s.regs.Inv
  buffer : s.buffer.wf = true

/-- Every cell of the buffer reads in `t` as it does in `s`. -/
def sameBuffer (s t : State) : Prop := ∀ a, t.buffer.readByte a = s.buffer.readByte a

/-- Every cell of the buffer but the four of word `addr` reads in `t` as it does in `s`. -/
def sameBufferBut (addr : BitVec 16) (s t : State) : Prop :=
  ∀ a, a < cellOf addr ∨ cellOf addr + 4 ≤ a → t.buffer.readByte a = s.buffer.readByte a

/-- The fields of the model's own are the same: no input taken, no event emitted, no new window. -/
def sameOwn (s t : State) : Prop :=
  t.inputs = s.inputs ∧ t.noteCleared = s.noteCleared ∧ t.winStart = s.winStart

/-- `k` ticks, one after the other (40_commands.md R126's loop without its idle check). -/
def ticks : Nat → State → State
  | 0, s => s
  | k + 1, s => ticks k (voiceTick s)

/-- RENDER as 40_commands.md R126 writes it, run to its end in one go, no parameter write between its
ticks. -/
def renderWhole (start : BitVec 16) (num : BitVec 13) (s : State) : State :=
  if s.regs.vstate ≠ .idle ∧ num ≠ 0#13 then
    endBlock (ticks num.toNat
      { s with
        regs := { loadCaches s.regs with rp := start, rc := num }
        winStart := start })
  else s

/-- One register file and another that may differ in Parameter Array words of the given classes only:
what a claim about parameter reads compares (10_state.md R51). -/
def sameBut (classes : ReadClass → Bool) (r r' : Regs) : Prop :=
  (∀ k, classes (readClass k) = false → paRead r.pa k = paRead r'.pa k) ∧
    { r with pa := r'.pa } = r'

end Sys2Proof.Machine
end

