-- ==== Sys2Proof/Certificates/Slice0/Obligations.lean ====
section
/-! DEFINITION. The statements about the machine, one `Prop` each; OBLIGATIONS.json lists them. -/

open Sys2Proof Sys2Proof.Machine

/-! ### Encoding (30_encoding.md) -/

/-- No operand bit is lost: every command, with every operand at every value, is read back from its
word. -/
def Obligations.DecodeOfEncodeIsTheCommand : Prop := ∀ i : Instr, decode (encode i) = i

/-- 30_encoding.md R112: with the reserved bits of a word set to zero the same command is decoded, the
encoder writes those zeros, and the command executes the same, to a next state. -/
def Obligations.ReservedBitsAreIgnored : Prop :=
  ∀ w : Word,
    decode (w &&& (opcodeMask ||| (decode w).operandMask)) = decode w ∧
      encode (decode w) = w &&& (opcodeMask ||| (decode w).operandMask) ∧
      ∀ s : State, ∃ t, exec (decode w) s = .next t ∧
        exec (decode (w &&& (opcodeMask ||| (decode w).operandMask))) s = .next t

/-- 30_encoding.md R102: the opcode is bits 31:29, it alone selects the row, every word has one, and
the row's `match` value is the word under the mask. -/
def Obligations.OpcodeAloneSelectsTheRow : Prop :=
  ∀ w : Word,
    (opcodeOf w).toNat = w.toNat / 2 ^ 29 ∧
      (decode w).matchWord = w &&& 0xE0000000#32 ∧
      (w.toNat / 2 ^ 29 = 0 → decode w = .nop) ∧
      (w.toNat / 2 ^ 29 = 1 → ∃ sound, decode w = .canplay sound) ∧
      (w.toNat / 2 ^ 29 = 2 → ∃ note vel pw, decode w = .start note vel pw) ∧
      (w.toNat / 2 ^ 29 = 3 → ∃ tail, decode w = .stop tail) ∧
      (w.toNat / 2 ^ 29 = 4 → ∃ pw, decode w = .pwheel pw) ∧
      (w.toNat / 2 ^ 29 = 5 → ∃ id val, decode w = .ctrl id val) ∧
      (w.toNat / 2 ^ 29 = 6 → ∃ start num, decode w = .render start num) ∧
      (w.toNat / 2 ^ 29 = 7 → decode w = .reserved7)

/-- 30_encoding.md R103, R111: each operand is the unsigned integer its field spells. -/
def Obligations.OperandsAreTheFieldsOfTheWord : Prop :=
  ∀ w : Word,
    match decode w with
    | .nop => True
    | .canplay sound => sound.toNat = w.toNat % 2 ^ 8
    | .start note vel pw =>
      note.toNat = w.toNat / 2 ^ 22 % 2 ^ 7 ∧ vel.toNat = w.toNat / 2 ^ 14 % 2 ^ 8 ∧
        pw.toNat = w.toNat % 2 ^ 14
    | .stop tail => tail.toNat = w.toNat % 2
    | .pwheel pw => pw.toNat = w.toNat % 2 ^ 14
    | .ctrl id val => id.toNat = w.toNat / 2 ^ 7 % 2 ^ 7 ∧ val.toNat = w.toNat % 2 ^ 7
    | .render start num => start.toNat = w.toNat / 2 ^ 13 % 2 ^ 16 ∧ num.toNat = w.toNat % 2 ^ 13
    | .reserved7 => True

/-- Words of 95_test_vectors.md section 2.2, with and without reserved bits set. -/
def Obligations.WorkedWordsDecode : Prop :=
  decode 0x1FFFFFFF#32 = .nop ∧
    decode 0x3FFFFF00#32 = .canplay 0#8 ∧
    decode 0x51602000#32 = .start 69#7 128#8 8192#14 ∧
    decode 0x7FFFFFFE#32 = .stop 0#1 ∧
    decode 0x9FFFC000#32 = .pwheel 0#14 ∧
    decode 0xA00003E4#32 = .ctrl 7#7 100#7 ∧
    decode 0xC2000100#32 = .render 0x1000#16 256#13 ∧
    decode 0xFFFFFFFF#32 = .reserved7

/-- 30_encoding.md R117: each pseudo-command is the word of its expansion. -/
def Obligations.PseudoCommandsExpand : Prop :=
  (∀ note vel : Nat, note < 128 → vel < 256 →
    assemble (.noteon note vel) = assemble (.start note vel 8192) ∧
      assemble (.noteon note vel) =
        some (.command (0x40002000#32 ||| BitVec.ofNat 32 note <<< 22 |||
          BitVec.ofNat 32 vel <<< 14))) ∧
    assemble .release = assemble (.stop 1) ∧
    assemble .release = some (.command 0x60000001#32) ∧
    assemble .kill = assemble (.stop 0) ∧
    assemble .kill = some (.command 0x60000000#32) ∧
    assemble .center = assemble (.pwheel 8192) ∧
    assemble .center = some (.command 0x80002000#32)

/-! ### Reset and the invariant (70_reset_and_hazards.md, 40_commands.md R135) -/

/-- 70_reset_and_hazards.md R255: the reset input, whatever the unit was doing, puts every register at
its reset value, STATUS at 0, leaves the buffer as it is, and RENDER then does nothing until a START:
no other step takes the voice out of IDLE. (The fields of the model's own: logs 3 and 7 and
NoteClearedExactlyWhenTheVoiceIsFreed.) -/
def Obligations.ResetPutsEveryRegisterAtItsResetValue : Prop :=
  (∀ (s : State) (rest : List Input), s.inputs = .reset :: rest →
    ∃ t, step s = .next t ∧
      t.regs.vstate = .idle ∧ t.regs.note = 0#7 ∧ t.regs.keyLevel = 0#16 ∧ t.regs.bend = 0#11 ∧
      t.regs.lastCc = 0#14 ∧ t.regs.cleared = false ∧ t.regs.resp = false ∧
      t.regs.rp = 0#16 ∧ t.regs.rc = 0#13 ∧
      (∀ i, t.regs.osc.get i =
        { phase := 0#32, cWave := 0#16, cOct := 0#16, cSemi := 0#16, cLevel := 0#16 }) ∧
      (∀ i, t.regs.lfo.get i = { phase := 0#32 }) ∧
      (∀ i, t.regs.env.get i =
        { stage := .idle, level := 0#32, incA := 0#32, decD := 0#32, sTarget := 0#32, nR := 1#22,
          decR := 0#32 }) ∧
      (∀ f, t.regs.flt.get f =
        { low := 0#32, band := 0#32, cType := 0#16, cEnvDepth := 0#16 }) ∧
      t.regs.lfsr = 0xACE1#16 ∧ (∀ k, paRead t.regs.pa k = 0#16) ∧
      statusWord t.regs = 0x00000000#32 ∧ t.regs = State.reset.regs ∧
      sameBuffer s t) ∧
    (∀ (u : State) (start : BitVec 16) (num : BitVec 13), u.regs.vstate = .idle →
      exec (.render start num) u = .next u) ∧
    ∀ u u' : State, u.regs.vstate = .idle → step u = .next u' → u'.regs.vstate = .idle ∨
      ∃ w rest note vel pw, u.inputs = .command w :: rest ∧ decode w = .start note vel pw

/-- The machine right after reset meets the invariant. -/
def Obligations.ResetStateMeetsTheInvariant : Prop := State.reset.Inv

/-- 40_commands.md R135 and the value sets of 10_state.md R30: every step, whatever the surroundings
do, keeps the invariant. -/
def Obligations.EveryStepKeepsTheInvariant : Prop :=
  ∀ s t : State, s.Inv → step s = .next t → t.Inv

/-! ### The step -/

/-- A command word presented while no RENDER runs is decoded and executed; while one runs it waits and
the unit makes a tick (30_encoding.md R101; that it waits unchanged is the model's choice, log 6); the
word that `withFetchWord` presents is executed next (log 11). -/
def Obligations.StepRunsTheDecodedCommand : Prop :=
  (∀ (s : State) (w : Word) (rest : List Input), s.inputs = .command w :: rest →
    s.regs.rc = 0#13 → step s = exec (decode w) { s with inputs := rest }) ∧
    (∀ (s : State) (w : Word) (rest : List Input), s.inputs = .command w :: rest →
      s.regs.rc ≠ 0#13 →
        ∃ t, step s = .next t ∧ t.inputs = s.inputs ∧ t.regs.rc.toNat + 1 = s.regs.rc.toNat) ∧
    ∀ (s : State) (w : Word),
      step (s.withFetchWord 32 w.toNat) =
        exec (decode w) { s with regs := { s.regs with rc := 0#13 } }

/-- 60_exceptions.md R235: the set of causes is empty and every step has a next state. -/
def Obligations.NothingFaultsOrIsRefused : Prop :=
  (Fault → False) ∧ (∀ s : State, ∃ t, step s = .next t) ∧
    ∀ (i : Instr) (s : State), ∃ t, exec i s = .next t

/-- "Every command terminates" (30_encoding.md R101): with nothing presented a running RENDER ends
after exactly `RC` steps, each of which takes 1 from `RC`, and the unit then waits without changing
anything (60_exceptions.md R248; log 5); that a step is a tick, the last with the idle check, is the
model's reading (log 4). -/
def Obligations.RunningRenderEndsAfterItsTicks : Prop :=
  ∀ s : State, s.inputs = [] →
    (∀ k, k ≤ s.regs.rc.toNat →
      ∃ u : State, core.run k s = .next u ∧ u.regs.rc.toNat + k = s.regs.rc.toNat) ∧
    ∃ t : State, core.run s.regs.rc.toNat s = .next t ∧ t.regs.rc = 0#13 ∧ t.inputs = [] ∧
      step t = .next t

/-! ### The parameter port (20_memory.md R84, 10_state.md R51) -/

/-- A parameter write replaces one whole word and changes nothing else, at any time. -/
def Obligations.PsetWritesOneWholeWord : Prop :=
  ∀ (s : State) (idx : BitVec 7) (val : Param) (rest : List Input),
    s.inputs = .pset idx val :: rest →
      ∃ t, step s = .next t ∧ paRead t.regs.pa idx = val ∧
        (∀ k, k ≠ idx → paRead t.regs.pa k = paRead s.regs.pa k) ∧
        { t.regs with pa := s.regs.pa } = s.regs ∧ statusWord t.regs = statusWord s.regs ∧
        sameBuffer s t ∧ t.inputs = rest ∧ t.noteCleared = s.noteCleared ∧
        t.winStart = s.winStart

/-- Words of class "stored" (10_state.md R51, R74, R75) have no effect: two machines that differ in
such words only make the same step and again differ in such words only. -/
def Obligations.StoredWordsHaveNoEffect : Prop :=
  ∀ s s' : State, sameBut (fun c => c == .stored) s.regs s'.regs →
    { s' with regs := s.regs } = s →
      ∃ t t' : State, step s = .next t ∧ step s' = .next t' ∧
        sameBut (fun c => c == .stored) t.regs t'.regs ∧ { t' with regs := t.regs } = t ∧
        statusWord t.regs = statusWord t'.regs

/-- A tick reads live words only (45_voice_mix.md R227): a write of any other word may come before or
after it. -/
def Obligations.TicksReadLiveWordsOnly : Prop :=
  ∀ (s : State) (k : BitVec 7) (v : Param), readClass k ≠ .live →
    voiceTick (psetStep k v s) = psetStep k v (voiceTick s)

/-- Latched words are read by START only (10_state.md R51): for every other command a write of one
may come before or after it. -/
def Obligations.LatchedWordsAreReadByStartOnly : Prop :=
  ∀ (s t : State) (i : Instr) (k : BitVec 7) (v : Param), readClass k = .latched →
    (∀ note vel pw, i ≠ .start note vel pw) → exec i s = .next t →
      exec i (psetStep k v s) = .next (psetStep k v t)

/-! ### The buffer (20_memory.md) -/

/-- 20_memory.md R82: the accumulate adds modulo 2^32 into one word and into no other, also a zero,
in any order, and up to 65538 samples onto a zero word are summed exactly. -/
def Obligations.AccumulateAddsModuloTwoTo32 : Prop :=
  (∀ (m : Memory) (addr : BitVec 16) (out : Int), m.wf = true → -32767 ≤ out → out ≤ 32767 →
    (((m.accumulate addr out).readWord addr).toNat : Int) =
        (((m.readWord addr).toNat : Int) + out) % 4294967296 ∧
      (∀ a, a < cellOf addr ∨ cellOf addr + 4 ≤ a →
        (m.accumulate addr out).readByte a = m.readByte a) ∧
      (out = 0 → m.accumulate addr out = m)) ∧
    (∀ (m : Memory) (a b : BitVec 16) (x y : Int), m.wf = true →
      (m.accumulate a x).accumulate b y = (m.accumulate b y).accumulate a x) ∧
    ∀ (m : Memory) (addr : BitVec 16) (outs : List Int), m.wf = true → m.readWord addr = 0#32 →
      outs.length ≤ 65538 → (∀ x ∈ outs, -32767 ≤ x ∧ x ≤ 32767) →
        sext32 ((outs.foldl (fun n x => n.accumulate addr x) m).readWord addr) = outs.sum

/-- Two voices that render one after the other into the same buffer leave the same buffer in either
order, the elementwise sum of what each alone leaves, and neither depends on the other (20_memory.md
R92, 45_voice_mix.md R230). -/
def Obligations.VoicesSumInAnyOrder : Prop :=
  ∀ (s : State) (rA rB : Regs) (nA nB : Nat) (m : Memory), m.wf = true →
    let a : Memory → State := fun n => ticks nA { s with regs := rA, buffer := n }
    let b : Memory → State := fun n => ticks nB { s with regs := rB, buffer := n }
    (b (a m).buffer).buffer = (a (b m).buffer).buffer ∧
      (b (a m).buffer).regs = (b m).regs ∧ (a (b m).buffer).regs = (a m).regs ∧
      ∀ addr, (b (a m).buffer).buffer.readWord addr =
        (a m).buffer.readWord addr + (b m).buffer.readWord addr - m.readWord addr

/-- "nothing of the buffer's content reaches any TSVU register or the STATUS word" (40_commands.md
R136): with another buffer the same step gives the same registers and events. -/
def Obligations.BufferNeverReachesTheRegisters : Prop :=
  ∀ (s : State) (m : Memory), ∃ t t' : State, step s = .next t ∧
    step { s with buffer := m } = .next t' ∧ t'.regs = t.regs ∧
    statusWord t'.regs = statusWord t.regs ∧ sameOwn t t'

/-- The buffer owner's write replaces one whole word and touches no register while no RENDER runs; a
write into the window of a running RENDER is not made, the unit makes a tick (20_memory.md R81, R88;
that it waits is the model's choice, log 6). -/
def Obligations.BufferOwnerWritesOutsideARunningWindow : Prop :=
  ∀ (s : State) (addr : BitVec 16) (v : Word) (rest : List Input),
    s.inputs = .bufferWrite addr v :: rest → s.buffer.wf = true →
      (s.regs.rc = 0#13 ∨ inWindow s addr = false →
        ∃ t, step s = .next t ∧ t.buffer.readWord addr = v ∧ sameBufferBut addr s t ∧
          t.regs = s.regs ∧ t.inputs = rest ∧ t.noteCleared = s.noteCleared) ∧
        (s.regs.rc ≠ 0#13 → inWindow s addr = true →
          ∃ t, step s = .next t ∧ t.inputs = s.inputs ∧
            t.regs.rc.toNat + 1 = s.regs.rc.toNat)

/-! ### Commands (40_commands.md) -/

/-- 40_commands.md R120, R127: NOP and the reserved opcode, with any reserved bits, change no register
and no memory word. -/
def Obligations.NopAndReservedOpcodeChangeNothing : Prop :=
  encode .nop = 0x00000000#32 ∧ ∀ s : State, exec .nop s = .next s ∧ exec .reserved7 s = .next s ∧
    ∀ w : Word, opcodeOf w = 0#3 ∨ opcodeOf w = 7#3 → exec (decode w) s = .next s

/-- 40_commands.md R121: CANPLAY sets RESP, bit 3 of STATUS, for every sound, and changes nothing else;
nothing but the reset input clears RESP again. -/
def Obligations.CanplayAnswersTrue : Prop :=
  (∀ (sound : BitVec 8) (s : State), ∃ t, exec (.canplay sound) s = .next t ∧
    t.regs.resp = true ∧ (statusWord t.regs).extractLsb' 3 1 = 1#1 ∧
    { t.regs with resp := s.regs.resp } = s.regs ∧ sameBuffer s t ∧ sameOwn s t) ∧
    (∀ s t : State, step s = .next t → (∀ rest, s.inputs ≠ .reset :: rest) →
      s.regs.resp = true → t.regs.resp = true) ∧
    encode (.canplay 0#8) = 0x20000000#32

/-- PWHEEL writes `BEND = asr(pw - 8192, 4)`, in every voice state, and nothing else (40_commands.md
R124). -/
def Obligations.PwheelWritesBendOnly : Prop :=
  (∀ (pw : BitVec 14) (s : State), ∃ t, exec (.pwheel pw) s = .next t ∧
    t.regs.bend.toInt = ((pw.toNat : Int) - 8192) / 16 ∧
    -512 ≤ t.regs.bend.toInt ∧ t.regs.bend.toInt ≤ 511 ∧
    { t.regs with bend := s.regs.bend } = s.regs ∧ sameBuffer s t ∧ sameOwn s t) ∧
    ∀ s t : State, exec (.pwheel 8191#14) s = .next t → t.regs.bend.toInt = -1

/-- 40_commands.md R125: CTRL records its pair in LAST_CC and changes nothing else; its word holds
the same number. -/
def Obligations.CtrlRecordsItsPairOnly : Prop :=
  ∀ (id val : BitVec 7) (s : State), ∃ t, exec (.ctrl id val) s = .next t ∧
    t.regs.lastCc.toNat = id.toNat * 128 + val.toNat ∧
    { t.regs with lastCc := s.regs.lastCc } = s.regs ∧ sameBuffer s t ∧ sameOwn s t ∧
    encode (.ctrl id val) = 0xA0000000#32 + BitVec.ofNat 32 (id.toNat * 128 + val.toNat)

/-- START, in every voice state: note, key level, bend, caches, key-on of the three envelopes,
SOUNDING, CLEARED 0, and what it leaves (40_commands.md R122, R128). -/
def Obligations.StartSetsTheNote : Prop :=
  ∀ (note : BitVec 7) (vel : BitVec 8) (pw : BitVec 14) (s : State),
    ∃ t, exec (.start note vel pw) s = .next t ∧
      t.regs.vstate = .sounding ∧ t.regs.cleared = false ∧ t.regs.note = note ∧
      t.regs.keyLevel.toNat = min vel.toNat 128 * 256 ∧
      t.regs.bend.toInt = ((pw.toNat : Int) - 8192) / 16 ∧
      (∀ i, (t.regs.osc.get i).cWave = paRead s.regs.pa (BitVec.ofNat 7 (16 * i.val)) ∧
        (t.regs.osc.get i).cOct = paRead s.regs.pa (BitVec.ofNat 7 (16 * i.val + 1)) ∧
        (t.regs.osc.get i).cSemi = paRead s.regs.pa (BitVec.ofNat 7 (16 * i.val + 2)) ∧
        (t.regs.osc.get i).cLevel = paRead s.regs.pa (BitVec.ofNat 7 (16 * i.val + 3))) ∧
      (∀ f, (t.regs.flt.get f).cType = paRead s.regs.pa (BitVec.ofNat 7 (48 + 8 * f.val)) ∧
        (t.regs.flt.get f).cEnvDepth = paRead s.regs.pa (BitVec.ofNat 7 (48 + 8 * f.val + 3))) ∧
      (∀ i, t.regs.env.get i = envKeyOn s.regs.pa i (s.regs.env.get i)) ∧
      t.regs.lfsr = s.regs.lfsr ∧ t.regs.rp = s.regs.rp ∧ t.regs.rc = s.regs.rc ∧
      t.regs.resp = s.regs.resp ∧ t.regs.lastCc = s.regs.lastCc ∧ t.regs.pa = s.regs.pa ∧
      sameBuffer s t ∧ sameOwn s t

/-- The explicit retrigger: START zeroes the phases and the filter variables of an IDLE voice and of
no other (40_commands.md R122 and its corner case (a)). -/
def Obligations.StartRetriggersAnIdleVoiceOnly : Prop :=
  ∀ (note : BitVec 7) (vel : BitVec 8) (pw : BitVec 14) (s : State),
    ∃ t, exec (.start note vel pw) s = .next t ∧
      (s.regs.vstate = .idle →
        (∀ i, (t.regs.osc.get i).phase = 0#32 ∧ (t.regs.lfo.get i).phase = 0#32) ∧
          ∀ f, (t.regs.flt.get f).low = 0#32 ∧ (t.regs.flt.get f).band = 0#32) ∧
      (s.regs.vstate ≠ .idle →
        t.regs.lfo = s.regs.lfo ∧
          (∀ i, (t.regs.osc.get i).phase = (s.regs.osc.get i).phase ∧
            (t.regs.env.get i).level = (s.regs.env.get i).level) ∧
          (∀ f, (t.regs.flt.get f).low = (s.regs.flt.get f).low ∧
            (t.regs.flt.get f).band = (s.regs.flt.get f).band) ∧
          t.noteCleared = s.noteCleared)

/-- STOP with the tail-off allowed: a SOUNDING voice releases its envelopes, any other is left as it
is (40_commands.md R123). -/
def Obligations.StopWithTailReleases : Prop :=
  ∀ s : State, ∃ t, exec (.stop 1#1) s = .next t ∧
    (s.regs.vstate ≠ .sounding → t = s) ∧
    (s.regs.vstate = .sounding →
      t.regs.vstate = .releasing ∧ (∀ i, t.regs.env.get i = envKeyOff (s.regs.env.get i)) ∧
        { t.regs with vstate := s.regs.vstate, env := s.regs.env } = s.regs ∧
        sameBuffer s t ∧ sameOwn s t)

/-- STOP without the tail-off, the kill: levels 0, stages IDLE, and of a voice that was not IDLE also
VSTATE, CLEARED and the event; the next RENDER adds nothing; on an IDLE voice nothing changes
(40_commands.md R123, 42_envelope.md R165). -/
def Obligations.StopWithoutTailKills : Prop :=
  (∀ s : State, ∃ t, exec (.stop 0#1) s = .next t ∧
    t.regs.vstate = .idle ∧
    (∀ i, t.regs.env.get i = { s.regs.env.get i with level := 0#32, stage := .idle }) ∧
    (s.regs.vstate ≠ .idle → t.regs.cleared = true ∧ t.noteCleared = s.noteCleared + 1) ∧
    (s.regs.vstate = .idle →
      t.regs.cleared = s.regs.cleared ∧ t.noteCleared = s.noteCleared) ∧
    { t.regs with vstate := s.regs.vstate, env := s.regs.env, cleared := s.regs.cleared }
      = s.regs ∧
    sameBuffer s t ∧ t.inputs = s.inputs ∧ t.winStart = s.winStart ∧
    ∀ start num, exec (.render start num) t = .next t) ∧
    ∀ s : State, s.Inv → s.regs.vstate = .idle → exec (.stop 0#1) s = .next s

/-- RENDER's own step: nothing on an IDLE voice or with `num` 0, else what 40_commands.md R126 does
before its loop, the caches (R128), RP and RC. That the loop's ticks are steps of their own, so that
this step ends with RC = `num` and no buffer access yet, is the model's split (log 4, from 00_scope.md
R6); the whole command is RenderRunsItsLoopToTheEnd. -/
def Obligations.RenderBeginsABlock : Prop :=
  ∀ (start : BitVec 16) (num : BitVec 13) (s : State),
    ∃ t, exec (.render start num) s = .next t ∧
      (s.regs.vstate = .idle ∨ num = 0#13 → t = s) ∧
      (s.regs.vstate ≠ .idle → num ≠ 0#13 →
        t.regs.rp = start ∧ t.regs.rc = num ∧
          (∀ i, t.regs.osc.get i =
            { phase := (s.regs.osc.get i).phase
              cWave := paRead s.regs.pa (BitVec.ofNat 7 (16 * i.val))
              cOct := paRead s.regs.pa (BitVec.ofNat 7 (16 * i.val + 1))
              cSemi := paRead s.regs.pa (BitVec.ofNat 7 (16 * i.val + 2))
              cLevel := paRead s.regs.pa (BitVec.ofNat 7 (16 * i.val + 3)) }) ∧
          (∀ f, t.regs.flt.get f =
            { low := (s.regs.flt.get f).low
              band := (s.regs.flt.get f).band
              cType := paRead s.regs.pa (BitVec.ofNat 7 (48 + 8 * f.val))
              cEnvDepth := paRead s.regs.pa (BitVec.ofNat 7 (48 + 8 * f.val + 3)) }) ∧
          { t.regs with rp := s.regs.rp, rc := s.regs.rc, osc := s.regs.osc, flt := s.regs.flt }
            = s.regs ∧
          sameBuffer s t ∧ t.inputs = s.inputs ∧ t.noteCleared = s.noteCleared)

/-- A RENDER presented alone runs to its end in one step and `num` ticks (the model's split, log 4), and
leaves what the loop of 40_commands.md R126 leaves. -/
def Obligations.RenderRunsItsLoopToTheEnd : Prop :=
  ∀ (s : State) (start : BitVec 16) (num : BitVec 13), s.regs.rc = 0#13 →
    s.inputs = [.command (encode (.render start num))] →
      core.run (num.toNat + 1) s = .next (renderWhole start num { s with inputs := [] })

/-- A RENDER of a voice that is not IDLE, in one step and `num` ticks (log 4), completes with `RC` 0 and `RP` past its window, adds the
sample of tick k once into word (start + k) mod 65536 and changes no other word (40_commands.md R126
(f), 20_memory.md R83, R91). -/
def Obligations.RenderAddsEachSampleOnce : Prop :=
  ∀ (s : State) (start : BitVec 16) (num : BitVec 13), s.regs.rc = 0#13 → s.buffer.wf = true →
    s.regs.vstate ≠ .idle → num ≠ 0#13 → s.inputs = [.command (encode (.render start num))] →
      ∃ t : State, core.run (num.toNat + 1) s = .next t ∧ t.regs.rc = 0#13 ∧
        t.regs.rp = start + BitVec.ofNat 16 num.toNat ∧ t.inputs = [] ∧
        (∀ k < num.toNat, t.buffer.readWord (start + BitVec.ofNat 16 k) =
          s.buffer.readWord (start + BitVec.ofNat 16 k) +
            BitVec.ofInt 32 (tickOut (ticks k (beginBlock start num s)).regs)) ∧
        ∀ addr, num.toNat ≤ (addr - start).toNat →
          t.buffer.readWord addr = s.buffer.readWord addr

/-- 40_commands.md R130: two blocks one after the other leave what one block of both lengths leaves,
unless every envelope is IDLE after the first: then the voice is IDLE and the second does nothing. -/
def Obligations.BlockBoundariesAreInvisible : Prop :=
  ∀ (s : State) (start : BitVec 16) (a b : BitVec 13), s.regs.vstate ≠ .idle → a ≠ 0#13 →
    b ≠ 0#13 → a.toNat + b.toNat ≤ 8191 →
      let s1 := renderWhole start a s
      let s2 := renderWhole (start + BitVec.ofNat 16 a.toNat) b s1
      let whole := renderWhole start (a + b) s
      (allEnvIdle s1.regs = false →
        s2.regs = whole.regs ∧ s2.buffer = whole.buffer ∧ s2.noteCleared = whole.noteCleared ∧
          s2.inputs = whole.inputs) ∧
      (allEnvIdle s1.regs = true → s1.regs.vstate = .idle ∧ s2 = s1)

/-- 40_commands.md R129: the table of VSTATE transitions, for commands, parameter writes, the buffer
owner and the ticks of a RENDER; the reset input apart, nothing else changes VSTATE. -/
def Obligations.VoiceStateFollowsTheTable : Prop :=
  (∀ (s : State) (i : Instr), ∃ t, exec i s = .next t ∧
    t.regs.vstate = (match i, s.regs.vstate with
      | .start _ _ _, _ => .sounding
      | .stop 1#1, .sounding => .releasing
      | .stop 0#1, _ => .idle
      | _, v => v) ∧
    t.noteCleared = (match i, s.regs.vstate with
      | .stop 0#1, .sounding => s.noteCleared + 1
      | .stop 0#1, .releasing => s.noteCleared + 1
      | _, _ => s.noteCleared)) ∧
    (∀ (s : State) (idx : BitVec 7) (val : Param), (psetStep idx val s).regs.vstate = s.regs.vstate) ∧
    (∀ (s : State) (addr : BitVec 16) (v : Word), (bufferStep addr v s).regs.vstate = s.regs.vstate) ∧
    (∀ s : State, s.regs.rc = 0#13 → (unitStep s).regs.vstate = s.regs.vstate) ∧
    ∀ s : State, s.Inv → s.regs.rc ≠ 0#13 →
      (s.regs.vstate = .sounding →
        (unitStep s).regs.vstate = .sounding ∧ (unitStep s).noteCleared = s.noteCleared) ∧
      (s.regs.vstate = .releasing →
        if s.regs.rc = 1#13 ∧ (∀ i, (envTick (s.regs.env.get i)).stage = .idle) then
          (unitStep s).regs.vstate = .idle ∧ (unitStep s).noteCleared = s.noteCleared + 1
        else (unitStep s).regs.vstate = .releasing ∧ (unitStep s).noteCleared = s.noteCleared)

/-- 40_commands.md R134: for an IDLE voice every command except START leaves every register but RESP,
BEND and LAST_CC, and no command accesses the buffer. -/
def Obligations.IdleVoiceChangesNothing : Prop :=
  ∀ (s : State) (i : Instr), s.Inv → s.regs.vstate = .idle →
    ∃ t, exec i s = .next t ∧ t.buffer = s.buffer ∧
      ((∀ note vel pw, i ≠ .start note vel pw) →
        { t.regs with resp := s.regs.resp, bend := s.regs.bend, lastCc := s.regs.lastCc }
          = s.regs)

/-- The event is emitted exactly when VSTATE goes from SOUNDING or RELEASING to IDLE, at most once a
step, together with CLEARED (60_exceptions.md R238). That the event is a count, and that the reset
input, which is taken in its step (log 3) and makes the voice IDLE, leaves it, is the model's choice
(log 7). -/
def Obligations.NoteClearedExactlyWhenTheVoiceIsFreed : Prop :=
  (∀ s t : State, s.Inv → step s = .next t → (∀ rest, s.inputs ≠ .reset :: rest) →
    t.noteCleared = s.noteCleared +
      (if s.regs.vstate ≠ .idle ∧ t.regs.vstate = .idle then 1 else 0) ∧
    (t.noteCleared ≠ s.noteCleared → s.regs.cleared = false ∧ t.regs.cleared = true)) ∧
    ∀ (s : State) (rest : List Input), s.inputs = .reset :: rest →
      ∃ t, step s = .next t ∧ t.noteCleared = s.noteCleared ∧ t.inputs = rest

/-! ### Waveforms and pitch (41_oscillator.md) -/

/-- 41_oscillator.md R140: selectors 1, 2, 3 are sawtooth, square, triangle, every other is sine, and
every value is a Q15 sample. -/
def Obligations.WaveSelectsAndStaysInRange : Prop :=
  ∀ (sel : Param) (ph : BitVec 32),
    (sel = 1#16 → wave sel ph = sawQ15 ph) ∧ (sel = 2#16 → wave sel ph = squareQ15 ph) ∧
      (sel = 3#16 → wave sel ph = triQ15 ph) ∧
      (sel ≠ 1#16 → sel ≠ 2#16 → sel ≠ 3#16 → wave sel ph = sinQ15 ph) ∧
      -32767 ≤ wave sel ph ∧ wave sel ph ≤ 32767

/-- 41_oscillator.md R142, R143, R144: the three shapes from the top bits of the phase. -/
def Obligations.SawSquareTriangleFromTheTopBits : Prop :=
  ∀ ph : BitVec 32,
    sawQ15 ph = max (((ph.toNat / 65536 : Nat) : Int) - 32768) (-32767) ∧
      squareQ15 ph = (if ph.toNat < 2147483648 then 32767 else -32767) ∧
      (ph.toNat / 65536 < 32768 → triQ15 ph = -32767 + 2 * ((ph.toNat / 65536 : Nat) : Int)) ∧
      (32768 ≤ ph.toNat / 65536 →
        triQ15 ph = 32767 - 2 * (((ph.toNat / 65536 : Nat) : Int) - 32768)) ∧
      triQ15 ph % 2 = 1

/-- 41_oscillator.md R141: the quarter-wave table (00_scope.md R29) with linear interpolation; the upper
half period is the negative of the lower, and the result is a Q15 sample. -/
def Obligations.SineInterpolatesTheQuarterTable : Prop :=
  (List.range 65).map Config.sinq =
    [0, 804, 1608, 2410, 3212, 4011, 4808, 5602, 6393, 7179, 7962, 8739, 9512, 10278, 11039, 11793]
      ++ [12539, 13279, 14010, 14732, 15446, 16151, 16846, 17530, 18204, 18868, 19519, 20159, 20787]
      ++ [21403, 22005, 22594, 23170, 23731, 24279, 24811, 25329, 25832, 26319, 26790, 27245, 27683]
      ++ [28105, 28510, 28898, 29268, 29621, 29956, 30273, 30571, 30852, 31113, 31356, 31580, 31785]
      ++ [31971, 32137, 32285, 32412, 32521, 32609, 32678, 32728, 32757, 32767] ∧
    ∀ ph : BitVec 32,
    let q := ph.toNat / 1073741824
    let idx := ph.toNat / 16777216 % 64
    let fr : Int := (ph.toNat / 65536 % 256 : Nat)
    let up := Config.sinq idx + (Config.sinq (idx + 1) - Config.sinq idx) * fr / 256
    let down :=
      Config.sinq (64 - idx) + (Config.sinq (63 - idx) - Config.sinq (64 - idx)) * fr / 256
    (q = 0 → sinQ15 ph = up) ∧ (q = 1 → sinQ15 ph = down) ∧ (q = 2 → sinQ15 ph = -up) ∧
      (q = 3 → sinQ15 ph = -down) ∧ sinQ15 (ph + 0x80000000#32) = -sinQ15 ph ∧
      -32767 ≤ sinQ15 ph ∧ sinQ15 ph ≤ 32767

/-- The phase increment of any pitch word is that of the word clamped to 0..P_MAX: the step of the
table `TUNE` (00_scope.md R22), interpolated linearly over the fraction of the semitone and shifted
down by the octave distance; it lies in 731558..1497902522 and is `TUNE[k]` at the whole semitones of
the top octave (41_oscillator.md R146). -/
def Obligations.PitchIncrementIsClampedAndTuned : Prop :=
  (∀ p : Int, 731558 ≤ pitchToInc p ∧ pitchToInc p ≤ 1497902522 ∧
    pitchToInc p = pitchToInc (min (max p 0) 33791)) ∧
    (∀ p : Nat, p ≤ 33791 →
      let k := p / 256 % 12
      pitchToInc p = (Config.tune k + (Config.tune (k + 1) - Config.tune k) * (p % 256 : Nat) / 256)
        / 2 ^ (10 - p / 256 / 12)) ∧
    (List.range 13).map Config.tune =
      [749115498, 793660223, 840853716, 890853480, 943826385, 999949222, 1059409297, 1122405052,
        1189146729, 1259857073, 1334772074, 1414141751, 1498230996] ∧
    ∀ k : Nat, k < 12 → pitchToInc (256 * (120 + k)) = Config.tune k

/-- A tick advances `OSC_PHASE[i]` modulo 2^32 by the increment of the present pitch, which is composed
of note, octave, semitone, wheel and the vibrato of LFO `i` and lies in -16128..48638, and keeps the caches
(41_oscillator.md R147, R148). -/
def Obligations.OscillatorPhaseAdvancesByThePresentPitch : Prop :=
  ∀ (s : State) (i : Fin 3), -512 ≤ s.regs.bend.toInt → s.regs.bend.toInt ≤ 511 →
    let o := s.regs.osc.get i
    let o' := (voiceTick s).regs.osc.get i
    let p := 256 * ((s.regs.note.toNat : Int) + 12 * clamp (sext16 o.cOct) (-4) 4
      + clamp (sext16 o.cSemi) (-12) 12) + s.regs.bend.toInt
      + lfoVib s.regs.pa i (s.regs.lfo.get i)
    (o'.phase.toNat : Int) = ((o.phase.toNat : Int) + pitchToInc p) % 4294967296 ∧
      -16128 ≤ p ∧ p ≤ 48638 ∧ { o' with phase := o.phase } = o

/-- 41_oscillator.md R152: note 69 with octave 0, semitone 0, wheel centred and no vibrato has the
increment 39370533, between 439.99998 and 440 Hz. -/
def Obligations.NoteSixtyNineIsFourHundredFortyHertz : Prop :=
  (∀ o : Osc, o.cOct = 0#16 → o.cSemi = 0#16 →
    pitchToInc (oscPitch 69#7 0#11 o 0) = 39370533) ∧
    43999998 * 4294967296 < 39370533 * 48000 * 100000 ∧
    39370533 * 48000 * 100000 < 44000000 * 4294967296

/-! ### LFO (43_lfo.md) -/

/-- 43_lfo.md R187: an LFO without a destination, or with depth 0, leaves pitch and sample as without
it, whatever its rate and waveform. -/
def Obligations.UnroutedOrZeroDepthLfoDoesNothing : Prop :=
  ∀ (pa : Vector Param 128) (i : Fin 3) (l : Lfo),
    (paRead pa (lfoDestIdx i) ≠ 1#16 → paRead pa (lfoDestIdx i) ≠ 2#16 →
      lfoVib pa i l = 0 ∧ lfoTrem pa i l = 32768) ∧
      (paRead pa (lfoDepthIdx i) = 0#16 →
        lfoOutput pa i l = 0 ∧ lfoVib pa i l = 0 ∧ lfoTrem pa i l = 32768) ∧
      ∀ (note : BitVec 7) (bend : BitVec 11) (o : Osc),
        oscPitch note bend o 0 = 256 * ((note.toNat : Int) + 12 * clamp (sext16 o.cOct) (-4) 4
          + clamp (sext16 o.cSemi) (-12) 12) + bend.toInt ∧
        oscScaled o 32768 = asr (oscRaw o * u115 o.cLevel) 15

/-- The LFO's output is the waveform at its phase, scaled by its depth, the vibrato that output in pitch
units for destination 1 and 0 for any other, the tremolo factor `0x8000 - asr(depth - lfo, 1)` for
destination 2 and unity for any other; the output is within the depth, the vibrato within one semitone,
the factor between 1 - depth and unity (43_lfo.md R181, R182, R185, R186). -/
def Obligations.LfoOutputsStayInRange : Prop :=
  ∀ (pa : Vector Param 128) (i : Fin 3) (l : Lfo),
    let word : Nat → Param := fun k => paRead pa (BitVec.ofNat 7 (16 * i.val + k))
    let depth : Int := (min (word 11).toNat 32768 : Nat)
    let lfo := wave (word 9) l.phase * depth / 32768
    lfoOutput pa i l = lfo ∧
      lfoVib pa i l = (if word 12 = 1#16 then lfo / 128 else 0) ∧
      lfoTrem pa i l = (if word 12 = 2#16 then 32768 - (depth - lfo) / 2 else 32768) ∧
      lfoOutput pa i l ≤ depth ∧ -depth ≤ lfoOutput pa i l ∧
      -256 ≤ lfoVib pa i l ∧ lfoVib pa i l ≤ 255 ∧
      32768 - depth ≤ lfoTrem pa i l ∧ lfoTrem pa i l ≤ 32768

/-- A tick advances `LFO_PHASE[i]` by the rate word's increment whatever the LFO's destination, depth
and waveform are (43_lfo.md R183). -/
def Obligations.LfoPhaseAdvancesInEveryTick : Prop :=
  ∀ (s : State) (i : Fin 3),
    ((voiceTick s).regs.lfo.get i).phase.toNat =
      ((s.regs.lfo.get i).phase.toNat
        + (paRead s.regs.pa (BitVec.ofNat 7 (16 * i.val + 10))).toNat * 89478 / 256) % 4294967296

/-! ### Envelope (42_envelope.md) -/

/-- 42_envelope.md R163: what key-on latches, enabled and disabled, and what it leaves. -/
def Obligations.KeyOnLatchesTheEnvelopeWords : Prop :=
  ∀ (pa : Vector Param 128) (i : Fin 3) (e : Env),
    let word : Nat → Nat := fun k => (paRead pa (BitVec.ofNat 7 (16 * i.val + k))).toNat
    let n := envKeyOn pa i e
    n.stage = .attack ∧ n.level = e.level ∧ n.decR = e.decR ∧
      (word 4 ≠ 0 →
        n.sTarget.toNat = min (word 7) 32768 * 65536 ∧
          n.incA.toNat = ceilDiv 2147483648 (max 1 (word 5 * 48)) ∧
          n.decD.toNat =
            ceilDiv (2147483648 - min (word 7) 32768 * 65536) (max 1 (word 6 * 48)) ∧
          n.nR.toNat = max 1 (word 8 * 48)) ∧
      (word 4 = 0 →
        n.sTarget.toNat = 2147483648 ∧ n.incA.toNat = 2147483648 ∧ n.decD.toNat = 0 ∧
          n.nR.toNat = 1) ∧
      683 ≤ n.incA.toNat ∧ n.incA.toNat ≤ 2147483648 ∧ n.decD.toNat ≤ 2147483648 ∧
      n.sTarget.toNat ≤ 2147483648

/-- 42_envelope.md R164: key-off from ATTACK, DECAY or SUSTAIN latches the release step and enters
RELEASE at the present level, from level 0 for one tick only; in RELEASE and IDLE it does nothing. -/
def Obligations.KeyOffLatchesTheReleaseStep : Prop :=
  ∀ e : Env, e.Inv →
    (e.stage = .attack ∨ e.stage = .decay ∨ e.stage = .sustain →
      (envKeyOff e).stage = .release ∧
        (envKeyOff e).decR.toNat = (e.level.toNat + e.nR.toNat - 1) / e.nR.toNat ∧
        { envKeyOff e with stage := e.stage, decR := e.decR } = e ∧
        ((envKeyOff e).decR = 0#32 ↔ e.level = 0#32) ∧
        (e.level = 0#32 → (envTick (envKeyOff e)).stage = .idle)) ∧
      (e.stage = .release ∨ e.stage = .idle → envKeyOff e = e)

/-- 42_envelope.md R166: one tick of the envelope, stage by stage, and its output after the advance,
a U1.15 gain. -/
def Obligations.EnvelopeTickFollowsItsStage : Prop :=
  ∀ e : Env, e.Inv →
    let l := e.level.toNat
    let n := envTick e
    (e.stage = .attack →
      (2147483648 ≤ l + e.incA.toNat → n.level.toNat = 2147483648 ∧ n.stage = .decay) ∧
        (l + e.incA.toNat < 2147483648 →
          n.level.toNat = l + e.incA.toNat ∧ n.stage = .attack)) ∧
      (e.stage = .decay →
        (l ≤ e.sTarget.toNat + e.decD.toNat → n.level = e.sTarget ∧ n.stage = .sustain) ∧
          (e.sTarget.toNat + e.decD.toNat < l →
            n.level.toNat = l - e.decD.toNat ∧ n.stage = .decay)) ∧
      (e.stage = .sustain → n = e) ∧
      (e.stage = .release →
        (l ≤ e.decR.toNat → n.level = 0#32 ∧ n.stage = .idle) ∧
          (e.decR.toNat < l → n.level.toNat = l - e.decR.toNat ∧ n.stage = .release)) ∧
      (e.stage = .idle → n.level = 0#32 ∧ n.stage = .idle) ∧
      { n with level := e.level, stage := e.stage } = e ∧
      envOut n = ((n.level.toNat / 65536 : Nat) : Int) ∧ 0 ≤ envOut n ∧ envOut n ≤ 32768

/-- After a key-off at level L > 0 the level falls by the release step in every tick, the envelope is
IDLE after exactly `ceil_div(L, ENV_DEC_R)` ticks and so within the latched release time, at once from
level 0, and its output never rises (42_envelope.md R170). -/
def Obligations.ReleaseEndsWithinTheReleaseTime : Prop :=
  ∀ e : Env, e.Inv → (e.stage = .attack ∨ e.stage = .decay ∨ e.stage = .sustain) →
    let r := envKeyOff e
    let l := e.level.toNat
    let n := ceilDiv l r.decR.toNat
    (0 < l →
      (∀ k, k < n → (envTick^[k] r).stage = .release ∧
        (envTick^[k] r).level.toNat = l - k * r.decR.toNat) ∧
        (envTick^[n] r).stage = .idle ∧ n ≤ e.nR.toNat) ∧
      (l = 0 → (envTick r).stage = .idle) ∧
      ∀ k, envOut (envTick^[k + 1] r) ≤ envOut (envTick^[k] r)

/-- From level 0 the attack reaches unity at tick `ceil_div(L_MAX, ENV_INC_A)`, within `n_a` ticks when
the step was latched for `n_a`; the decay then reaches the sustain level within `n_d` ticks
(42_envelope.md R170). -/
def Obligations.AttackAndDecayEndInTime : Prop :=
  (∀ e : Env, e.Inv → e.stage = .attack → e.level = 0#32 → e.incA ≠ 0#32 →
    (∀ k, k < ceilDiv 2147483648 e.incA.toNat →
      (envTick^[k] e).stage = .attack ∧ (envTick^[k] e).level.toNat = k * e.incA.toNat) ∧
      (envTick^[ceilDiv 2147483648 e.incA.toNat] e).stage = .decay ∧
      (envTick^[ceilDiv 2147483648 e.incA.toNat] e).level.toNat = 2147483648 ∧
      ∀ nA, 1 ≤ nA → e.incA.toNat = ceilDiv 2147483648 nA →
        ceilDiv 2147483648 e.incA.toNat ≤ nA) ∧
    ∀ (e : Env) (nD : Nat), e.Inv → e.stage = .decay → e.level.toNat = 2147483648 → 1 ≤ nD →
      e.decD.toNat = ceilDiv (2147483648 - e.sTarget.toNat) nD →
        ∃ k, 1 ≤ k ∧ k ≤ nD ∧ (envTick^[k] e).stage = .sustain ∧
          (envTick^[k] e).level = e.sTarget

/-- 42_envelope.md R169: an envelope keyed on disabled from level 0 puts out unity from the first tick
on (DECAY after one, SUSTAIN from the second), in every tick from the key-on leaves its oscillator's
level- and tremolo-scaled sample as it is, and after a key-off puts out 0 and is IDLE on the first
tick. -/
def Obligations.DisabledEnvelopeIsAGate : Prop :=
  ∀ (pa : Vector Param 128) (i : Fin 3) (e : Env), paRead pa (envEnableIdx i) = 0#16 →
    e.level = 0#32 →
      (∀ k, envOut (envTick^[k + 1] (envKeyOn pa i e)) = 32768) ∧
        (envTick^[1] (envKeyOn pa i e)).stage = .decay ∧
        (∀ k, (envTick^[k + 2] (envKeyOn pa i e)).stage = .sustain) ∧
        (∀ k, let off := envTick (envKeyOff (envTick^[k] (envKeyOn pa i e)))
          envOut off = 0 ∧ off.stage = .idle) ∧
        ∀ (k : Nat) (r : Regs), r.env.get i = envTick^[k] (envKeyOn pa i e) →
          tickE r i = 32768 ∧ tickC r i = tickB r i

/-! ### Filter (44_filter.md) -/

/-- 44_filter.md R197: one sample through a filter, the output and the two state variables as signed
values; any type but 1, 2, 3 is a bypass. -/
def Obligations.FilterTickFollowsItsEquations : Prop :=
  ∀ (pa : Vector Param 128) (f : Fin 2) (t : Flt) (x e : Int),
    let cut : Int := (paRead pa (BitVec.ofNat 7 (48 + 8 * f.val + 1))).toNat
    let pc := clamp (cut + asr (sext16 t.cEnvDepth * e) 15) 0 29952
    let fc := 2 * sinQ15 (BitVec.ofInt 32 (asr (pitchToInc pc) 1))
    let qd := 24576 - asr ((24576 - 512) * u115 (paRead pa (BitVec.ofNat 7 (48 + 8 * f.val + 2)))) 15
    let low := sat32 (sext32 t.low + asr (fc * sext32 t.band) 15)
    let high := sat32 (sat32 (x * 256) - low - asr (qd * sext32 t.band) 14)
    let band := sat32 (sext32 t.band + asr (fc * high) 15)
    let n := fltAdvance pa f t x e
    (t.cType = 1#16 ∨ t.cType = 2#16 ∨ t.cType = 3#16 →
      sext32 n.low = low ∧ sext32 n.band = band ∧ n.cType = t.cType ∧
        n.cEnvDepth = t.cEnvDepth) ∧
      (t.cType = 1#16 → fltOut pa f t x e = asr low 8) ∧
      (t.cType = 2#16 → fltOut pa f t x e = asr high 8) ∧
      (t.cType = 3#16 → fltOut pa f t x e = asr band 8) ∧
      (t.cType ≠ 1#16 → t.cType ≠ 2#16 → t.cType ≠ 3#16 → fltOut pa f t x e = x ∧ n = t)

/-- The frequency coefficient is in 30..29130 and the damping in 512..24576, for every parameter word,
depth and envelope output (44_filter.md R198, R199). -/
def Obligations.FilterCoefficientsStayInRange : Prop :=
  ∀ (pa : Vector Param 128) (f : Fin 2) (t : Flt) (e : Int),
    30 ≤ fltFc pa f t e ∧ fltFc pa f t e ≤ 29130 ∧ 512 ≤ fltQd pa f ∧ fltQd pa f ≤ 24576

/-- An input of magnitude at most 2^23 gives such an output, and is not changed by the saturation at
the filter's input (44_filter.md R203). -/
def Obligations.FilterKeepsItsSignalRange : Prop :=
  ∀ (pa : Vector Param 128) (f : Fin 2) (t : Flt) (x e : Int), -8388608 ≤ x → x ≤ 8388607 →
    -8388608 ≤ fltOut pa f t x e ∧ fltOut pa f t x e ≤ 8388607 ∧ sat32 (x * 256) = x * 256

/-- The routing of the filters: with FILTER_SEQ 1 both receive the mix and the output is the floored mean
of theirs, with every other value filter 0 receives the mix and filter 1 the output of filter 0; each is
stepped once, filter `f` with the output of envelope `f` (45_voice_mix.md R221, R223). With both filters
off the output is the mix, exactly, in either topology, and the filter registers are held (44_filter.md
R202). -/
def Obligations.BypassedFiltersPassTheMix : Prop :=
  ∀ s : State,
    let r := s.regs
    let out0 : Int → Int := fun x => fltOut r.pa 0 (r.flt.get 0) x (envOut (envTick (r.env.get 0)))
    let out1 : Int → Int := fun x => fltOut r.pa 1 (r.flt.get 1) x (envOut (envTick (r.env.get 1)))
    let next0 : Int → Flt := fun x =>
      fltAdvance r.pa 0 (r.flt.get 0) x (envOut (envTick (r.env.get 0)))
    let next1 : Int → Flt := fun x =>
      fltAdvance r.pa 1 (r.flt.get 1) x (envOut (envTick (r.env.get 1)))
    let mix := tickMix r
    let t := voiceTick s
    (paRead r.pa 0x40#7 = 1#16 →
      tickY r = (out0 mix + out1 mix) / 2 ∧ t.regs.flt.get 0 = next0 mix ∧
        t.regs.flt.get 1 = next1 mix) ∧
      (paRead r.pa 0x40#7 ≠ 1#16 →
        tickY r = out1 (out0 mix) ∧ t.regs.flt.get 0 = next0 mix ∧
          t.regs.flt.get 1 = next1 (out0 mix)) ∧
      ((∀ f, (r.flt.get f).cType ≠ 1#16 ∧ (r.flt.get f).cType ≠ 2#16 ∧
        (r.flt.get f).cType ≠ 3#16) → tickY r = mix ∧ t.regs.flt = r.flt)

/-! ### Noise, sum and output (45_voice_mix.md) -/

/-- The noise register steps in every tick as a Galois register, never to 0, and its sample is the
state as a signed word, but -32767 for the state 0x8000 (45_voice_mix.md R218). -/
def Obligations.NoiseRegisterSteps : Prop :=
  ∀ s : State,
    (s.regs.lfsr.toNat % 2 = 0 →
      (voiceTick s).regs.lfsr.toNat = s.regs.lfsr.toNat / 2) ∧
      (s.regs.lfsr.toNat % 2 = 1 →
        (voiceTick s).regs.lfsr.toNat = (s.regs.lfsr.toNat / 2) ^^^ 0xB400) ∧
      (s.regs.lfsr ≠ 0#16 → (voiceTick s).regs.lfsr ≠ 0#16) ∧
      -32767 ≤ noiseSample s.regs.lfsr ∧ noiseSample s.regs.lfsr ≤ 32767 ∧
      (s.regs.lfsr ≠ 0x8000#16 → noiseSample s.regs.lfsr = sext16 s.regs.lfsr) ∧
      (s.regs.lfsr = 0x8000#16 → noiseSample s.regs.lfsr = -32767)

/-- The mix is the exact sum of the three oscillators and the noise: each oscillator is its waveform at
its phase, scaled by its level, the tremolo factor and the envelope's output, the noise its sample,
scaled by its level and the greatest envelope output (41_oscillator.md R148 to R150, 45_voice_mix.md
R216, R218 to R220). The four are Q15 samples, the mix within four times that, and 0 when every envelope
output is 0 (40_commands.md R131). -/
def Obligations.MixIsBoundedAndSilentWithTheEnvelopes : Prop :=
  (∀ r : Regs,
    let e : Fin 3 → Int := fun i => envOut (envTick (r.env.get i))
    let gain : Param → Int := fun w => (min w.toNat 32768 : Nat)
    let n := max (sext16 r.lfsr) (-32767)
    (∀ i, let o := r.osc.get i
      tickB r i = wave o.cWave o.phase * gain o.cLevel / 32768
          * lfoTrem r.pa i (r.lfo.get i) / 32768 ∧
        tickE r i = e i ∧ tickC r i = tickB r i * e i / 32768) ∧
      tickNz r =
        n * gain (paRead r.pa 0x41#7) / 32768 * max (e 0) (max (e 1) (e 2)) / 32768 ∧
      tickMix r = tickC r 0 + tickC r 1 + tickC r 2 + tickNz r) ∧
    ∀ r : Regs, r.Inv →
    (∀ i, -32767 ≤ tickC r i ∧ tickC r i ≤ 32767) ∧ -32767 ≤ tickNz r ∧ tickNz r ≤ 32767 ∧
      -131068 ≤ tickMix r ∧ tickMix r ≤ 131068 ∧
      ((∀ i, tickE r i = 0) → tickMix r = 0)

/-- 45_voice_mix.md R224: velocity, drive, clip and output gain in that order; the output is a Q15
sample for every state, 0 with OUT_GAIN 0 or key level 0, and with unity gains and no drive the clipped
filter output. -/
def Obligations.OutputSampleIsClipped : Prop :=
  ∀ r : Regs,
    let v1 := tickY r * (r.keyLevel.toNat : Int) / 32768
    let v2 := v1 * (4096 + ((paRead r.pa 0x42#7).toNat : Int)) / 4096
    let v3 := min (max v2 (-32767)) 32767
    tickOut r = v3 * ((min (paRead r.pa 0x43#7).toNat 32768 : Nat) : Int) / 32768 ∧
    -32767 ≤ tickOut r ∧ tickOut r ≤ 32767 ∧
      (paRead r.pa 0x43#7 = 0#16 ∨ r.keyLevel = 0#16 → tickOut r = 0) ∧
      (r.keyLevel = 0x8000#16 → paRead r.pa 0x42#7 = 0#16 → paRead r.pa 0x43#7 = 0x8000#16 →
        tickOut r = min (max (tickY r) (-32767)) 32767)

/-- 45_voice_mix.md R228: what a tick writes, exactly, and nothing else; the one buffer word at RP gets
the sample added (R226). -/
def Obligations.TickWritesExactly : Prop :=
  ∀ s : State, s.buffer.wf = true →
    let t := voiceTick s
    { t.regs with
      lfo := s.regs.lfo, osc := s.regs.osc, env := s.regs.env, lfsr := s.regs.lfsr,
      flt := s.regs.flt, rp := s.regs.rp, rc := s.regs.rc } = s.regs ∧
      (∀ i, { t.regs.osc.get i with phase := (s.regs.osc.get i).phase } = s.regs.osc.get i) ∧
      (∀ i, t.regs.env.get i = envTick (s.regs.env.get i) ∧
        { t.regs.env.get i with
          level := (s.regs.env.get i).level, stage := (s.regs.env.get i).stage }
            = s.regs.env.get i) ∧
      (∀ f, { t.regs.flt.get f with
        low := (s.regs.flt.get f).low, band := (s.regs.flt.get f).band } = s.regs.flt.get f) ∧
      (∀ f, fltOn (s.regs.flt.get f) = false → t.regs.flt.get f = s.regs.flt.get f) ∧
      t.regs.rp.toNat = (s.regs.rp.toNat + 1) % 65536 ∧ t.regs.rc = s.regs.rc - 1#13 ∧
      ((t.buffer.readWord s.regs.rp).toNat : Int) =
        (((s.buffer.readWord s.regs.rp).toNat : Int) + tickOut s.regs) % 4294967296 ∧
      sameBufferBut s.regs.rp s t ∧ sameOwn s t ∧ t.buffer.wf = true

/-- 10_state.md R76: the fields of the STATUS word, with the codes of `VSTATE` (R31) and of `ENV_STAGE`
(R41), and its value at reset and in the rule's example. -/
def Obligations.StatusWordShowsItsFields : Prop :=
  (VState.idle.code = 0#2 ∧ VState.sounding.code = 1#2 ∧ VState.releasing.code = 2#2 ∧
    Stage.idle.code = 0#3 ∧ Stage.attack.code = 1#3 ∧ Stage.decay.code = 2#3 ∧
    Stage.sustain.code = 3#3 ∧ Stage.release.code = 4#3) ∧
    (∀ r : Regs, r.vstate = .sounding → r.cleared = false → r.resp = true →
      (∀ i, (r.env.get i).stage = .sustain) → r.note = 69#7 → statusWord r = 0x0008ADB9#32) ∧
    ∀ r : Regs,
    (statusWord r).extractLsb' 0 2 = r.vstate.code ∧
      (statusWord r).extractLsb' 2 1 = BitVec.ofBool r.cleared ∧
      (statusWord r).extractLsb' 3 1 = BitVec.ofBool r.resp ∧
      (statusWord r).extractLsb' 4 3 = (r.env.get 0).stage.code ∧
      (statusWord r).extractLsb' 7 3 = (r.env.get 1).stage.code ∧
      (statusWord r).extractLsb' 10 3 = (r.env.get 2).stage.code ∧
      (statusWord r).extractLsb' 13 7 = r.note ∧
      (statusWord r).extractLsb' 20 12 = 0#12 ∧
      statusWord Regs.reset = 0x00000000#32

/-! ### Listings (30_encoding.md section 5) -/

/-- A parameter write that stands in a listing takes effect between the commands around it: its host
waits for the end of the command before, an input of the model's own (log 3) that changes nothing else,
so a write after a RENDER falls after all its ticks and a write before it before all of them
(30_encoding.md R118). -/
def Obligations.ListedWritesFallBetweenTheirCommands : Prop :=
  (∀ (s : State) (rest : List Input), s.inputs = .await :: rest →
    (s.regs.rc ≠ 0#13 →
      ∃ t, step s = .next t ∧ t.inputs = s.inputs ∧ t.regs.pa = s.regs.pa ∧
        t.regs.rc.toNat + 1 = s.regs.rc.toNat) ∧
      (s.regs.rc = 0#13 → step s = .next { s with inputs := rest })) ∧
    ∀ (s : State) (start num idx val : Nat), start < 65536 → num < 8192 → idx < 128 →
      val < 65536 → s.regs.rc = 0#13 →
        let idle := { s with inputs := [] }
        let write := psetStep (BitVec.ofNat 7 idx) (BitVec.ofNat 16 val)
        let whole := renderWhole (BitVec.ofNat 16 start) (BitVec.ofNat 13 num)
        (assembleAll [.render start num, .pset idx val] = some s.inputs →
          core.run (num + 3) s = .next (write (whole idle))) ∧
          (assembleAll [.pset idx val, .render start num] = some s.inputs →
            core.run (num + 3) s = .next (whole (write idle)))
end

