-- ==== Sys2Proof/Laws/Invariant.lean ====
section
/-! SUPPORT. The invariants of Safety.lean as plain conjunctions of decidable facts, so that a concrete
machine can be checked against them by evaluation. -/

namespace Sys2Proof.Machine

theorem Env.inv_iff (e : Env) :
    e.Inv ↔ e.level.toNat ≤ 2147483648 ∧ e.incA.toNat ≤ 2147483648 ∧
      e.decD.toNat ≤ 2147483648 ∧ e.sTarget.toNat ≤ 2147483648 ∧ e.sTarget.toNat % 65536 = 0 ∧
      1 ≤ e.nR.toNat ∧ e.nR.toNat ≤ 3145680 ∧ e.decR.toNat ≤ 2147483648 ∧
      (e.stage = .idle → e.level = 0) :=
  ⟨fun h => ⟨h.level_le, h.incA_le, h.decD_le, h.sTarget_le, h.sTarget_mul, h.nR_pos, h.nR_le,
    h.decR_le, h.idle_zero⟩,
   fun ⟨a, b, c, d, e, f, g, h, i⟩ => ⟨a, b, c, d, e, f, g, h, i⟩⟩

theorem Regs.inv_iff (r : Regs) :
    r.Inv ↔ (r.env.x0.Inv ∧ r.env.x1.Inv ∧ r.env.x2.Inv) ∧
      (∀ i, stageFits r.vstate (r.env.get i).stage = true) ∧ r.lfsr ≠ 0#16 ∧
      r.keyLevel.toNat ≤ 0x8000 ∧ r.keyLevel.toNat % 256 = 0 ∧
      (-512 ≤ r.bend.toInt ∧ r.bend.toInt ≤ 511) ∧ (r.cleared = true → r.vstate = .idle) ∧
      (r.rc ≠ 0#13 → r.vstate ≠ .idle) := by
  constructor
  · exact fun h => ⟨⟨h.env 0, h.env 1, h.env 2⟩, h.stage, h.lfsr, h.keyLevel_le, h.keyLevel_mul,
      h.bend_range, h.cleared, h.running⟩
  · rintro ⟨⟨e0, e1, e2⟩, st, l, k, km, b, c, rn⟩
    refine ⟨fun i => ?_, st, l, k, km, b, c, rn⟩
    match i with
    | 0 => exact e0
    | 1 => exact e1
    | 2 => exact e2

/-- The invariant of a concrete machine from facts that evaluation decides. -/
theorem State.inv_iff (s : State) :
    s.Inv ↔ (s.regs.env.x0.Inv ∧ s.regs.env.x1.Inv ∧ s.regs.env.x2.Inv) ∧
      ((∀ i, stageFits s.regs.vstate (s.regs.env.get i).stage = true) ∧ s.regs.lfsr ≠ 0#16 ∧
        s.regs.keyLevel.toNat ≤ 0x8000 ∧ s.regs.keyLevel.toNat % 256 = 0 ∧
        (-512 ≤ s.regs.bend.toInt ∧ s.regs.bend.toInt ≤ 511) ∧
        (s.regs.cleared = true → s.regs.vstate = .idle) ∧
        (s.regs.rc ≠ 0#13 → s.regs.vstate ≠ .idle)) ∧ s.buffer.wf = true := by
  rw [← and_assoc, ← Regs.inv_iff]
  exact ⟨fun h => ⟨h.regs, h.buffer⟩, fun h => ⟨h.1, h.2⟩⟩

end Sys2Proof.Machine
end

