-- ==== Sys2Proof/Laws/Memory.lean ====
section
/-! SUPPORT. The laws of the two memories: a read after a write, every operation keeps the canonical
form, and two buffers in canonical form that read alike are equal. -/

namespace Sys2Proof.Machine

theorem Memory.wfFrom_cons {lo : Nat} {c : Host.Cell} {m : Memory} :
    Memory.wfFrom lo (c :: m) = true ↔
      lo ≤ c.1 ∧ c.1 < Memory.cells ∧ c.2 ≠ Memory.unlisted ∧ Memory.wfFrom (c.1 + 1) m = true := by
  simp [Memory.wfFrom, and_assoc]

/-- A lower bound may be lowered. -/
theorem Memory.wfFrom_mono {lo lo' : Nat} {m : Memory} (h : Memory.wfFrom lo m = true)
    (hl : lo' ≤ lo) : Memory.wfFrom lo' m = true := by
  cases m with
  | nil => rfl
  | cons c m =>
    rw [Memory.wfFrom_cons] at h ⊢
    exact ⟨hl.trans h.1, h.2⟩

/-- Below every listed address a canonical memory reads as unlisted. -/
theorem Memory.readByte_of_lt {lo : Nat} {m : Memory} (h : Memory.wfFrom lo m = true) {a : Nat}
    (ha : a < lo) : m.readByte a = Memory.unlisted := by
  induction m generalizing lo with
  | nil => rfl
  | cons c m ih =>
    rw [Memory.wfFrom_cons] at h
    rw [Memory.readByte, if_neg (by omega)]
    exact ih h.2.2.2 (by omega)

/-- A cell write keeps the canonical form. -/
theorem Memory.writeByte_wfFrom {lo : Nat} {m : Memory} (h : Memory.wfFrom lo m = true) {a : Nat}
    (hl : lo ≤ a) (ha : a < Memory.cells) (v : BitVec 8) :
    Memory.wfFrom lo (m.writeByte a v) = true := by
  induction m generalizing lo with
  | nil =>
    unfold Memory.writeByte
    split
    · rfl
    · next hv => exact Memory.wfFrom_cons.2 ⟨hl, ha, hv, rfl⟩
  | cons c m ih =>
    have hc := Memory.wfFrom_cons.1 h
    unfold Memory.writeByte
    split
    · next hlt =>
      split
      · exact h
      · next hv =>
        exact Memory.wfFrom_cons.2 ⟨hl, ha, hv, Memory.wfFrom_cons.2 ⟨hlt, hc.2⟩⟩
    · split
      · next heq =>
        split
        · exact Memory.wfFrom_mono hc.2.2.2 (by omega)
        · next hv => exact Memory.wfFrom_cons.2 ⟨hl, ha, hv, heq ▸ hc.2.2.2⟩
      · exact Memory.wfFrom_cons.2 ⟨hc.1, hc.2.1, hc.2.2.1, ih hc.2.2.2 (by omega)⟩

/-- Reading a cell after a cell write. -/
theorem Memory.readByte_writeByte {lo : Nat} {m : Memory} (h : Memory.wfFrom lo m = true)
    (a b : Nat) (v : BitVec 8) :
    (m.writeByte a v).readByte b = if b = a then v else m.readByte b := by
  induction m generalizing lo with
  | nil =>
    unfold Memory.writeByte
    split
    · next hv => split <;> simp [Memory.readByte, hv]
    · simp [Memory.readByte, eq_comm]
  | cons c m ih =>
    have hc := Memory.wfFrom_cons.1 h
    unfold Memory.writeByte
    split
    · next hlt =>
      split
      · next hv =>
        split
        · next hb =>
          rw [hv, hb]
          exact Memory.readByte_of_lt (lo := c.1) (Memory.wfFrom_cons.2 ⟨le_rfl, hc.2⟩) hlt
        · rfl
      · simp only [Memory.readByte, eq_comm]
    · next hge =>
      split
      · next heq =>
        by_cases hb : b = a
        · rw [if_pos hb]
          split
          · next hv =>
            rw [hv]
            exact Memory.readByte_of_lt hc.2.2.2 (by omega)
          · simp [Memory.readByte, hb]
        · rw [if_neg hb]
          split <;> simp [Memory.readByte, Ne.symm hb, show ¬c.1 = b by omega]
      · next hne =>
        simp only [Memory.readByte, ih hc.2.2.2]
        by_cases hb : c.1 = b
        · rw [if_pos hb, if_pos hb, if_neg (by omega)]
        · rw [if_neg hb, if_neg hb]

theorem Memory.writeByte_wf {m : Memory} (h : m.wf = true) {a : Nat} (ha : a < Memory.cells)
    (v : BitVec 8) : (m.writeByte a v).wf = true :=
  Memory.writeByte_wfFrom h (Nat.zero_le a) ha v

theorem Memory.readByte_writeByte_wf {m : Memory} (h : m.wf = true) (a b : Nat) (v : BitVec 8) :
    (m.writeByte a v).readByte b = if b = a then v else m.readByte b :=
  Memory.readByte_writeByte h a b v

theorem cellOf_lt (addr : BitVec 16) : cellOf addr + 3 < Memory.cells := by
  have := addr.isLt
  unfold cellOf Memory.cells
  omega

theorem cellOf_inj {a b : BitVec 16} (h : cellOf a = cellOf b) : a = b := by
  unfold cellOf at h
  exact BitVec.eq_of_toNat_eq (by omega)

/-- A word write keeps the canonical form. -/
theorem Memory.writeWord_wf {m : Memory} (h : m.wf = true) (addr : BitVec 16) (v : Word) :
    (m.writeWord addr v).wf = true := by
  have hl := cellOf_lt addr
  exact writeByte_wf (writeByte_wf (writeByte_wf (writeByte_wf h (by omega) _) (by omega) _)
    (by omega) _) (by omega) _

/-- Every cell after a word write: the four cells of the word hold its bytes, the others are as
before. -/
theorem Memory.readByte_writeWord {m : Memory} (h : m.wf = true) (addr : BitVec 16) (v : Word)
    (b : Nat) :
    (m.writeWord addr v).readByte b =
      if b = cellOf addr then v.extractLsb' 0 8
      else if b = cellOf addr + 1 then v.extractLsb' 8 8
      else if b = cellOf addr + 2 then v.extractLsb' 16 8
      else if b = cellOf addr + 3 then v.extractLsb' 24 8
      else m.readByte b := by
  have hl := cellOf_lt addr
  have h1 := writeByte_wf h (a := cellOf addr) (by omega) (v.extractLsb' 0 8)
  have h2 := writeByte_wf h1 (a := cellOf addr + 1) (by omega) (v.extractLsb' 8 8)
  have h3 := writeByte_wf h2 (a := cellOf addr + 2) (by omega) (v.extractLsb' 16 8)
  unfold Memory.writeWord
  rw [readByte_writeByte_wf h3, readByte_writeByte_wf h2, readByte_writeByte_wf h1,
    readByte_writeByte_wf h]
  grind

/-- The bytes of a word put together again. -/
theorem word_of_bytes (v : Word) :
    v.extractLsb' 24 8 ++ v.extractLsb' 16 8 ++ v.extractLsb' 8 8 ++ v.extractLsb' 0 8 = v := by
  apply BitVec.eq_of_getLsbD_eq
  intro i hi
  simp only [BitVec.getLsbD_append, BitVec.getLsbD_extractLsb']
  split
  · simp [show i < 8 by omega]
  · split
    · simp [show i - 8 < 8 by omega, show 8 + (i - 8) = i by omega]
    · split
      · simp [show i - 8 - 8 < 8 by omega, show 16 + (i - 8 - 8) = i by omega]
      · simp [show i - 8 - 8 - 8 < 8 by omega, show 24 + (i - 8 - 8 - 8) = i by omega]

/-- `MemRead` after `MemWrite` at the same address (20_memory.md R81). -/
theorem Memory.readWord_writeWord_same {m : Memory} (h : m.wf = true) (addr : BitVec 16)
    (v : Word) : (m.writeWord addr v).readWord addr = v := by
  unfold Memory.readWord
  simp only [readByte_writeWord h]
  simpa using word_of_bytes v

/-- `MemRead` after `MemWrite` at another address (20_memory.md R81). -/
theorem Memory.readWord_writeWord_other {m : Memory} (h : m.wf = true) {addr b : BitVec 16}
    (hb : b ≠ addr) (v : Word) : (m.writeWord addr v).readWord b = m.readWord b := by
  have hne : b.toNat ≠ addr.toNat := fun h => hb (BitVec.eq_of_toNat_eq h)
  have keep : ∀ k < 4, (m.writeWord addr v).readByte (cellOf b + k) = m.readByte (cellOf b + k) := by
    intro k hk
    rw [readByte_writeWord h]
    unfold cellOf
    rw [if_neg (by omega), if_neg (by omega), if_neg (by omega), if_neg (by omega)]
  have keep0 := keep 0 (by omega)
  rw [Nat.add_zero] at keep0
  unfold Memory.readWord
  rw [keep 3 (by omega), keep 2 (by omega), keep 1 (by omega), keep0]

/-- Two canonical memories that read alike at every address are the same list. -/
theorem Memory.ext_of_wfFrom {lo : Nat} {m m' : Memory} (h : Memory.wfFrom lo m = true)
    (h' : Memory.wfFrom lo m' = true) (he : ∀ a, m.readByte a = m'.readByte a) : m = m' := by
  induction m generalizing lo m' with
  | nil =>
    cases m' with
    | nil => rfl
    | cons c' m' =>
      have hc' := Memory.wfFrom_cons.1 h'
      have := he c'.1
      simp only [Memory.readByte, if_true] at this
      exact absurd this.symm hc'.2.2.1
  | cons c m ih =>
    have hc := Memory.wfFrom_cons.1 h
    cases m' with
    | nil =>
      have := he c.1
      simp only [Memory.readByte, if_true] at this
      exact absurd this hc.2.2.1
    | cons c' m' =>
      have hc' := Memory.wfFrom_cons.1 h'
      have hk : c.1 = c'.1 := by
        rcases Nat.lt_trichotomy c.1 c'.1 with hlt | heq | hgt
        · have := he c.1
          rw [Memory.readByte_of_lt (m := c' :: m') (lo := c'.1)
            (Memory.wfFrom_cons.2 ⟨le_rfl, hc'.2⟩) hlt] at this
          simp only [Memory.readByte, if_true] at this
          exact absurd this hc.2.2.1
        · exact heq
        · have := he c'.1
          rw [Memory.readByte_of_lt (m := c :: m) (lo := c.1)
            (Memory.wfFrom_cons.2 ⟨le_rfl, hc.2⟩) hgt] at this
          simp only [Memory.readByte, if_true] at this
          exact absurd this.symm hc'.2.2.1
      have hv : c.2 = c'.2 := by
        have := he c.1
        simpa [Memory.readByte, hk] using this
      have ht : m = m' := by
        refine ih hc.2.2.2 (hk ▸ hc'.2.2.2) fun a => ?_
        rcases Nat.lt_or_ge a (c.1 + 1) with ha | ha
        · rw [Memory.readByte_of_lt hc.2.2.2 ha, Memory.readByte_of_lt hc'.2.2.2 (hk ▸ ha)]
        · have := he a
          simpa only [Memory.readByte, if_neg (show ¬c.1 = a by omega),
            if_neg (show ¬c'.1 = a by omega)] using this
      rw [ht, Prod.ext hk hv]

theorem Memory.ext_of_wf {m m' : Memory} (h : m.wf = true) (h' : m'.wf = true)
    (he : ∀ a, m.readByte a = m'.readByte a) : m = m' :=
  Memory.ext_of_wfFrom h h' he

theorem Memory.accumulate_wf {m : Memory} (h : m.wf = true) (addr : BitVec 16) (out : Int) :
    (m.accumulate addr out).wf = true :=
  Memory.writeWord_wf h _ _

/-- The word an accumulate writes: the sum modulo 2^32 (20_memory.md R82). -/
theorem Memory.readWord_accumulate_same {m : Memory} (h : m.wf = true) (addr : BitVec 16)
    (out : Int) :
    (m.accumulate addr out).readWord addr = m.readWord addr + BitVec.ofInt 32 out := by
  rw [Memory.accumulate, readWord_writeWord_same h]
  apply BitVec.eq_of_toNat_eq
  simp only [BitVec.toNat_ofInt, BitVec.toNat_add]
  omega

/-- And every other word is as before (20_memory.md R82). -/
theorem Memory.readWord_accumulate_other {m : Memory} (h : m.wf = true) {addr b : BitVec 16}
    (hb : b ≠ addr) (out : Int) : (m.accumulate addr out).readWord b = m.readWord b :=
  Memory.readWord_writeWord_other h hb _

/-- Outside the four cells of its word an accumulate changes no cell. -/
theorem Memory.readByte_accumulate {m : Memory} (h : m.wf = true) (addr : BitVec 16) (out : Int)
    {a : Nat} (ha : a < cellOf addr ∨ cellOf addr + 4 ≤ a) :
    (m.accumulate addr out).readByte a = m.readByte a := by
  rw [Memory.accumulate, readByte_writeWord h, if_neg (by omega), if_neg (by omega),
    if_neg (by omega), if_neg (by omega)]

/-- `PA[k]` after `PSET idx, val` (20_memory.md R84). -/
@[simp] theorem paRead_paWrite (pa : Vector Param 128) (idx k : BitVec 7) (val : Param) :
    paRead (paWrite pa idx val) k = if k = idx then val else paRead pa k := by
  unfold paRead paWrite
  rw [Vector.getElem_set]
  by_cases h : k = idx
  · simp [h]
  · have hne : ¬idx.toNat = k.toNat := fun e => h (BitVec.eq_of_toNat_eq e.symm)
    simp [h, hne]

/-- Every word of the Parameter Array is 0 after reset (70_reset_and_hazards.md R255). -/
@[simp] theorem paRead_reset (k : BitVec 7) : paRead Regs.reset.pa k = 0#16 := by
  simp [paRead, Regs.reset]

end Sys2Proof.Machine
end

