-- ==== Sys2Proof/Laws/Numbers.lean ====
section
/-! SUPPORT. What the number formats of 00_scope.md give: bounds of `asr`, `clamp`, `sat32`, `u115`,
`sext`, and `ceil_div`. -/

namespace Sys2Proof.Machine

/-- `asr` is floor division: the product with 2^n is at most the value (00_scope.md R12). -/
theorem asr_mul_le (v : Int) (n : Nat) : asr v n * ((2 ^ n : Nat) : Int) ≤ v :=
  Int.ediv_mul_le v (by exact_mod_cast (Nat.two_pow_pos n).ne')

/-- And the value is below the next multiple (00_scope.md R12). -/
theorem lt_asr_succ_mul (v : Int) (n : Nat) : v < (asr v n + 1) * ((2 ^ n : Nat) : Int) :=
  Int.lt_ediv_add_one_mul_self v (by exact_mod_cast Nat.two_pow_pos n)

theorem asr_mono {v w : Int} (h : v ≤ w) (n : Nat) : asr v n ≤ asr w n :=
  Int.ediv_le_ediv (by exact_mod_cast Nat.two_pow_pos n) h

theorem asr_nonneg {v : Int} (h : 0 ≤ v) (n : Nat) : 0 ≤ asr v n :=
  Int.ediv_nonneg h (by positivity)

@[simp] theorem asr_zero (n : Nat) : asr 0 n = 0 := by simp [asr]

/-- Scaling by the unity gain is exact (00_scope.md R17). -/
@[simp] theorem asr_mul_unity (x : Int) : asr (x * 32768) 15 = x := by unfold asr; omega

/-- Scaling by a U1.15 gain keeps a symmetric range (00_scope.md R17). -/
theorem asr_gain_range {x g m : Int} (hx : -m ≤ x ∧ x ≤ m) (hg : 0 ≤ g ∧ g ≤ 32768) :
    -m ≤ asr (x * g) 15 ∧ asr (x * g) 15 ≤ m := by
  have h1 : -(m * 32768) ≤ x * g := by nlinarith
  have h2 : x * g ≤ m * 32768 := by nlinarith
  unfold asr
  omega

theorem clamp_range {lo hi : Int} (v : Int) (h : lo ≤ hi) :
    lo ≤ clamp v lo hi ∧ clamp v lo hi ≤ hi := by
  unfold clamp
  split
  · omega
  · split <;> omega

theorem clamp_of_mem {v lo hi : Int} (h1 : lo ≤ v) (h2 : v ≤ hi) : clamp v lo hi = v := by
  unfold clamp
  split
  · omega
  · split <;> omega

theorem sat32_range (v : Int) : -2147483648 ≤ sat32 v ∧ sat32 v ≤ 2147483647 :=
  clamp_range v (by omega)

theorem u115_le (w : Param) : u115 w ≤ 32768 := Nat.min_le_right _ _

@[simp] theorem u115_zero : u115 0#16 = 0 := rfl

theorem sext16_range (w : Param) : -32768 ≤ sext16 w ∧ sext16 w ≤ 32767 := by
  have := w.isLt
  unfold sext16
  split <;> omega

theorem sext32_range (w : Word) : -2147483648 ≤ sext32 w ∧ sext32 w ≤ 2147483647 := by
  have := w.isLt
  unfold sext32
  split <;> omega

/-- A value that fits the register is what the register then reads as (00_scope.md R9, R10). -/
theorem sext32_ofInt {v : Int} (h1 : -2147483648 ≤ v) (h2 : v ≤ 2147483647) :
    sext32 (BitVec.ofInt 32 v) = v := by
  unfold sext32
  rw [BitVec.toNat_ofInt]
  split <;> omega

/-- `ceil_div(a, b)` is the least `q` with `q * b >= a` (00_scope.md R16). -/
theorem ceilDiv_le_iff {a b q : Nat} (hb : 1 ≤ b) : ceilDiv a b ≤ q ↔ a ≤ q * b := by
  unfold ceilDiv
  rw [← Nat.lt_succ_iff, Nat.div_lt_iff_lt_mul (by omega), Nat.succ_mul]
  omega

@[simp] theorem ceilDiv_one (a : Nat) : ceilDiv a 1 = a := by simp [ceilDiv]

theorem ceilDiv_le_self {a b : Nat} (hb : 1 ≤ b) : ceilDiv a b ≤ a :=
  (ceilDiv_le_iff hb).2 (Nat.le_mul_of_pos_right a hb)

end Sys2Proof.Machine
end

