-- ==== Sys2Proof/Laws/PerInstr.lean ====
section
/-! SUPPORT. The statements made per command. -/

namespace Sys2Proof.Laws

/-- Family `MatchMask`: the word of a command is its row's `match` value under the mask every row of
opcode_table.json has (30_encoding.md R102), and has zeros in its reserved bits (R112). -/
def MatchMask.Statement (i : Instr) : Prop :=
  encode i &&& opcodeMask = i.matchWord ∧
    encode i &&& (opcodeMask ||| i.operandMask) = encode i

theorem MatchMask.nop : MatchMask.Statement .nop := by
  unfold MatchMask.Statement; decide

theorem MatchMask.canplay (sound : BitVec 8) : MatchMask.Statement (.canplay sound) := by
  constructor <;> apply BitVec.eq_of_getLsbD_eq <;> intro i hi <;>
    simp only [encode, Instr.matchWord, Instr.opcode, Instr.operandMask, opcodeMask,
      BitVec.getLsbD_and, BitVec.getLsbD_append] <;>
    interval_cases i <;> simp

theorem MatchMask.start (note : BitVec 7) (vel : BitVec 8) (pw : BitVec 14) :
    MatchMask.Statement (.start note vel pw) := by
  constructor <;> apply BitVec.eq_of_getLsbD_eq <;> intro i hi <;>
    simp only [encode, Instr.matchWord, Instr.opcode, Instr.operandMask, opcodeMask,
      BitVec.getLsbD_and, BitVec.getLsbD_append] <;>
    interval_cases i <;> simp

theorem MatchMask.stop (tail : BitVec 1) : MatchMask.Statement (.stop tail) := by
  constructor <;> apply BitVec.eq_of_getLsbD_eq <;> intro i hi <;>
    simp only [encode, Instr.matchWord, Instr.opcode, Instr.operandMask, opcodeMask,
      BitVec.getLsbD_and, BitVec.getLsbD_append] <;>
    interval_cases i <;> simp

theorem MatchMask.pwheel (pw : BitVec 14) : MatchMask.Statement (.pwheel pw) := by
  constructor <;> apply BitVec.eq_of_getLsbD_eq <;> intro i hi <;>
    simp only [encode, Instr.matchWord, Instr.opcode, Instr.operandMask, opcodeMask,
      BitVec.getLsbD_and, BitVec.getLsbD_append] <;>
    interval_cases i <;> simp

theorem MatchMask.ctrl (id val : BitVec 7) : MatchMask.Statement (.ctrl id val) := by
  constructor <;> apply BitVec.eq_of_getLsbD_eq <;> intro i hi <;>
    simp only [encode, Instr.matchWord, Instr.opcode, Instr.operandMask, opcodeMask,
      BitVec.getLsbD_and, BitVec.getLsbD_append] <;>
    interval_cases i <;> simp

theorem MatchMask.render (start : BitVec 16) (num : BitVec 13) :
    MatchMask.Statement (.render start num) := by
  constructor <;> apply BitVec.eq_of_getLsbD_eq <;> intro i hi <;>
    simp only [encode, Instr.matchWord, Instr.opcode, Instr.operandMask, opcodeMask,
      BitVec.getLsbD_and, BitVec.getLsbD_append] <;>
    interval_cases i <;> simp

theorem MatchMask.reserved7 : MatchMask.Statement .reserved7 := by
  unfold MatchMask.Statement; decide

end Sys2Proof.Laws
end

