-- ==== Sys2Proof/Laws/State.lean ====
section
/-! SUPPORT. The small lemmas of the state: one per field of each named update, true by definition, so
that no later proof unfolds a record update. -/

namespace Sys2Proof

/-! Register arrays (00_scope.md R19). -/

@[simp] theorem Three.get_ofFn {α : Type} (f : Fin 3 → α) (i : Fin 3) :
    (Three.ofFn f).get i = f i := by
  match i with
  | 0 => rfl
  | 1 => rfl
  | 2 => rfl

@[simp] theorem Three.get_map {α β : Type} (f : α → β) (t : Three α) (i : Fin 3) :
    (t.map f).get i = f (t.get i) := by
  match i with
  | 0 => rfl
  | 1 => rfl
  | 2 => rfl

@[simp] theorem Two.get_ofFn {α : Type} (g : Fin 2 → α) (f : Fin 2) :
    (Two.ofFn g).get f = g f := by
  match f with
  | 0 => rfl
  | 1 => rfl

@[simp] theorem Two.get_map {α β : Type} (g : α → β) (t : Two α) (f : Fin 2) :
    (t.map g).get f = g (t.get f) := by
  match f with
  | 0 => rfl
  | 1 => rfl

/-- Two arrays over the triples are equal when their entries are. -/
theorem Three.ext_get {α : Type} {t u : Three α} (h : ∀ i, t.get i = u.get i) : t = u := by
  obtain ⟨a, b, c⟩ := t
  obtain ⟨a', b', c'⟩ := u
  have h0 := h 0
  have h1 := h 1
  have h2 := h 2
  simp only [Three.get] at h0 h1 h2
  rw [h0, h1, h2]

/-- Two arrays over the filters are equal when their entries are. -/
theorem Two.ext_get {α : Type} {t u : Two α} (h : ∀ f, t.get f = u.get f) : t = u := by
  obtain ⟨a, b⟩ := t
  obtain ⟨a', b'⟩ := u
  have h0 := h 0
  have h1 := h 1
  simp only [Two.get] at h0 h1
  rw [h0, h1]

namespace Machine

/-! The parameter write (20_memory.md R84). -/

@[simp] theorem psetStep_regs (idx : BitVec 7) (val : Param) (s : State) :
    (psetStep idx val s).regs = { s.regs with pa := paWrite s.regs.pa idx val } := rfl
@[simp] theorem psetStep_buffer (idx : BitVec 7) (val : Param) (s : State) :
    (psetStep idx val s).buffer = s.buffer := rfl
@[simp] theorem psetStep_inputs (idx : BitVec 7) (val : Param) (s : State) :
    (psetStep idx val s).inputs = s.inputs := rfl
@[simp] theorem psetStep_noteCleared (idx : BitVec 7) (val : Param) (s : State) :
    (psetStep idx val s).noteCleared = s.noteCleared := rfl
@[simp] theorem psetStep_winStart (idx : BitVec 7) (val : Param) (s : State) :
    (psetStep idx val s).winStart = s.winStart := rfl

/-! The buffer owner's write (20_memory.md R88). -/

@[simp] theorem bufferStep_regs (addr : BitVec 16) (val : Word) (s : State) :
    (bufferStep addr val s).regs = s.regs := rfl
@[simp] theorem bufferStep_buffer (addr : BitVec 16) (val : Word) (s : State) :
    (bufferStep addr val s).buffer = s.buffer.writeWord addr val := rfl
@[simp] theorem bufferStep_inputs (addr : BitVec 16) (val : Word) (s : State) :
    (bufferStep addr val s).inputs = s.inputs := rfl
@[simp] theorem bufferStep_noteCleared (addr : BitVec 16) (val : Word) (s : State) :
    (bufferStep addr val s).noteCleared = s.noteCleared := rfl
@[simp] theorem bufferStep_winStart (addr : BitVec 16) (val : Word) (s : State) :
    (bufferStep addr val s).winStart = s.winStart := rfl

/-! Reset (70_reset_and_hazards.md R255). -/

@[simp] theorem resetStep_regs (s : State) : (resetStep s).regs = Regs.reset := rfl
@[simp] theorem resetStep_buffer (s : State) : (resetStep s).buffer = s.buffer := rfl
@[simp] theorem resetStep_inputs (s : State) : (resetStep s).inputs = s.inputs := rfl
@[simp] theorem resetStep_noteCleared (s : State) : (resetStep s).noteCleared = s.noteCleared := rfl
@[simp] theorem resetStep_winStart (s : State) : (resetStep s).winStart = s.winStart := rfl

/-! The voice becomes IDLE (40_commands.md R126). -/

@[simp] theorem freeVoice_regs (s : State) :
    (freeVoice s).regs = { s.regs with vstate := .idle, cleared := true } := rfl
@[simp] theorem freeVoice_buffer (s : State) : (freeVoice s).buffer = s.buffer := rfl
@[simp] theorem freeVoice_inputs (s : State) : (freeVoice s).inputs = s.inputs := rfl
@[simp] theorem freeVoice_noteCleared (s : State) :
    (freeVoice s).noteCleared = s.noteCleared + 1 := rfl
@[simp] theorem freeVoice_winStart (s : State) : (freeVoice s).winStart = s.winStart := rfl

/-! RENDER before its loop (40_commands.md R126). -/

@[simp] theorem beginBlock_regs (start : BitVec 16) (num : BitVec 13) (s : State) :
    (beginBlock start num s).regs = { loadCaches s.regs with rp := start, rc := num } := rfl
@[simp] theorem beginBlock_buffer (start : BitVec 16) (num : BitVec 13) (s : State) :
    (beginBlock start num s).buffer = s.buffer := rfl
@[simp] theorem beginBlock_inputs (start : BitVec 16) (num : BitVec 13) (s : State) :
    (beginBlock start num s).inputs = s.inputs := rfl
@[simp] theorem beginBlock_noteCleared (start : BitVec 16) (num : BitVec 13) (s : State) :
    (beginBlock start num s).noteCleared = s.noteCleared := rfl
@[simp] theorem beginBlock_winStart (start : BitVec 16) (num : BitVec 13) (s : State) :
    (beginBlock start num s).winStart = start := rfl

/-! A command presented (log 11). -/

@[simp] theorem presentCommand_regs (w : Word) (s : State) :
    (presentCommand w s).regs = { s.regs with rc := 0#13 } := rfl
@[simp] theorem presentCommand_buffer (w : Word) (s : State) :
    (presentCommand w s).buffer = s.buffer := rfl
@[simp] theorem presentCommand_inputs (w : Word) (s : State) :
    (presentCommand w s).inputs = .command w :: s.inputs := rfl
@[simp] theorem presentCommand_noteCleared (w : Word) (s : State) :
    (presentCommand w s).noteCleared = s.noteCleared := rfl
@[simp] theorem presentCommand_winStart (w : Word) (s : State) :
    (presentCommand w s).winStart = s.winStart := rfl

/-! One tick (45_voice_mix.md R215, R228). -/

@[simp] theorem voiceTick_regs (s : State) : (voiceTick s).regs = tickRegs s.regs := rfl
@[simp] theorem voiceTick_buffer (s : State) :
    (voiceTick s).buffer = s.buffer.accumulate s.regs.rp (tickOut s.regs) := rfl
@[simp] theorem voiceTick_inputs (s : State) : (voiceTick s).inputs = s.inputs := rfl
@[simp] theorem voiceTick_noteCleared (s : State) : (voiceTick s).noteCleared = s.noteCleared := rfl
@[simp] theorem voiceTick_winStart (s : State) : (voiceTick s).winStart = s.winStart := rfl

/-! The registers after a tick (45_voice_mix.md R228). -/

@[simp] theorem tickRegs_vstate (r : Regs) : (tickRegs r).vstate = r.vstate := rfl
@[simp] theorem tickRegs_note (r : Regs) : (tickRegs r).note = r.note := rfl
@[simp] theorem tickRegs_keyLevel (r : Regs) : (tickRegs r).keyLevel = r.keyLevel := rfl
@[simp] theorem tickRegs_bend (r : Regs) : (tickRegs r).bend = r.bend := rfl
@[simp] theorem tickRegs_lastCc (r : Regs) : (tickRegs r).lastCc = r.lastCc := rfl
@[simp] theorem tickRegs_cleared (r : Regs) : (tickRegs r).cleared = r.cleared := rfl
@[simp] theorem tickRegs_resp (r : Regs) : (tickRegs r).resp = r.resp := rfl
@[simp] theorem tickRegs_rp (r : Regs) : (tickRegs r).rp = r.rp + 1 := rfl
@[simp] theorem tickRegs_rc (r : Regs) : (tickRegs r).rc = r.rc - 1 := rfl
@[simp] theorem tickRegs_osc (r : Regs) :
    (tickRegs r).osc = Three.ofFn fun i => oscAdvance r.note r.bend (r.osc.get i) (tickVib r i) := rfl
@[simp] theorem tickRegs_env (r : Regs) : (tickRegs r).env = r.env.map envTick := rfl
@[simp] theorem tickRegs_lfo (r : Regs) :
    (tickRegs r).lfo = Three.ofFn fun i => lfoAdvance r.pa i (r.lfo.get i) := rfl
@[simp] theorem tickRegs_flt (r : Regs) : (tickRegs r).flt = tickFlt r := rfl
@[simp] theorem tickRegs_lfsr (r : Regs) : (tickRegs r).lfsr = noiseNext r.lfsr := rfl
@[simp] theorem tickRegs_pa (r : Regs) : (tickRegs r).pa = r.pa := rfl

/-! The registers after `load_caches()` (40_commands.md R128). -/

@[simp] theorem loadCaches_vstate (r : Regs) : (loadCaches r).vstate = r.vstate := rfl
@[simp] theorem loadCaches_note (r : Regs) : (loadCaches r).note = r.note := rfl
@[simp] theorem loadCaches_keyLevel (r : Regs) : (loadCaches r).keyLevel = r.keyLevel := rfl
@[simp] theorem loadCaches_bend (r : Regs) : (loadCaches r).bend = r.bend := rfl
@[simp] theorem loadCaches_lastCc (r : Regs) : (loadCaches r).lastCc = r.lastCc := rfl
@[simp] theorem loadCaches_cleared (r : Regs) : (loadCaches r).cleared = r.cleared := rfl
@[simp] theorem loadCaches_resp (r : Regs) : (loadCaches r).resp = r.resp := rfl
@[simp] theorem loadCaches_rp (r : Regs) : (loadCaches r).rp = r.rp := rfl
@[simp] theorem loadCaches_rc (r : Regs) : (loadCaches r).rc = r.rc := rfl
@[simp] theorem loadCaches_osc (r : Regs) :
    (loadCaches r).osc = Three.ofFn fun i => loadOsc r.pa i (r.osc.get i) := rfl
@[simp] theorem loadCaches_env (r : Regs) : (loadCaches r).env = r.env := rfl
@[simp] theorem loadCaches_lfo (r : Regs) : (loadCaches r).lfo = r.lfo := rfl
@[simp] theorem loadCaches_flt (r : Regs) :
    (loadCaches r).flt = Two.ofFn fun f => loadFlt r.pa f (r.flt.get f) := rfl
@[simp] theorem loadCaches_lfsr (r : Regs) : (loadCaches r).lfsr = r.lfsr := rfl
@[simp] theorem loadCaches_pa (r : Regs) : (loadCaches r).pa = r.pa := rfl

/-! The parts of an oscillator, an LFO, an envelope and a filter that their operations keep. -/

@[simp] theorem loadOsc_phase (pa : Vector Param 128) (i : Fin 3) (o : Osc) :
    (loadOsc pa i o).phase = o.phase := rfl
@[simp] theorem loadOsc_cWave (pa : Vector Param 128) (i : Fin 3) (o : Osc) :
    (loadOsc pa i o).cWave = paRead pa (oscWaveIdx i) := rfl
@[simp] theorem loadOsc_cOct (pa : Vector Param 128) (i : Fin 3) (o : Osc) :
    (loadOsc pa i o).cOct = paRead pa (oscOctIdx i) := rfl
@[simp] theorem loadOsc_cSemi (pa : Vector Param 128) (i : Fin 3) (o : Osc) :
    (loadOsc pa i o).cSemi = paRead pa (oscSemiIdx i) := rfl
@[simp] theorem loadOsc_cLevel (pa : Vector Param 128) (i : Fin 3) (o : Osc) :
    (loadOsc pa i o).cLevel = paRead pa (oscLevelIdx i) := rfl
@[simp] theorem loadFlt_low (pa : Vector Param 128) (f : Fin 2) (t : Flt) :
    (loadFlt pa f t).low = t.low := rfl
@[simp] theorem loadFlt_band (pa : Vector Param 128) (f : Fin 2) (t : Flt) :
    (loadFlt pa f t).band = t.band := rfl
@[simp] theorem loadFlt_cType (pa : Vector Param 128) (f : Fin 2) (t : Flt) :
    (loadFlt pa f t).cType = paRead pa (fltTypeIdx f) := rfl
@[simp] theorem loadFlt_cEnvDepth (pa : Vector Param 128) (f : Fin 2) (t : Flt) :
    (loadFlt pa f t).cEnvDepth = paRead pa (fltEnvDepthIdx f) := rfl
@[simp] theorem oscAdvance_cWave (note : BitVec 7) (bend : BitVec 11) (o : Osc) (vib : Int) :
    (oscAdvance note bend o vib).cWave = o.cWave := rfl
@[simp] theorem oscAdvance_cOct (note : BitVec 7) (bend : BitVec 11) (o : Osc) (vib : Int) :
    (oscAdvance note bend o vib).cOct = o.cOct := rfl
@[simp] theorem oscAdvance_cSemi (note : BitVec 7) (bend : BitVec 11) (o : Osc) (vib : Int) :
    (oscAdvance note bend o vib).cSemi = o.cSemi := rfl
@[simp] theorem oscAdvance_cLevel (note : BitVec 7) (bend : BitVec 11) (o : Osc) (vib : Int) :
    (oscAdvance note bend o vib).cLevel = o.cLevel := rfl
@[simp] theorem envKill_stage (e : Env) : (envKill e).stage = .idle := rfl
@[simp] theorem envKill_level (e : Env) : (envKill e).level = 0 := rfl
@[simp] theorem envKill_incA (e : Env) : (envKill e).incA = e.incA := rfl
@[simp] theorem envKill_decD (e : Env) : (envKill e).decD = e.decD := rfl
@[simp] theorem envKill_sTarget (e : Env) : (envKill e).sTarget = e.sTarget := rfl
@[simp] theorem envKill_nR (e : Env) : (envKill e).nR = e.nR := rfl
@[simp] theorem envKill_decR (e : Env) : (envKill e).decR = e.decR := rfl
@[simp] theorem envKeyOn_stage (pa : Vector Param 128) (i : Fin 3) (e : Env) :
    (envKeyOn pa i e).stage = .attack := rfl
@[simp] theorem envKeyOn_level (pa : Vector Param 128) (i : Fin 3) (e : Env) :
    (envKeyOn pa i e).level = e.level := rfl
@[simp] theorem envKeyOn_decR (pa : Vector Param 128) (i : Fin 3) (e : Env) :
    (envKeyOn pa i e).decR = e.decR := rfl

end Machine

end Sys2Proof
end

