-- ==== Sys2Proof/Laws/Tick.lean ====
section
/-! SUPPORT. What the parts of a tick keep, and what one step of a running RENDER can do. -/

namespace Sys2Proof.Machine

/-! An envelope tick and a key-off keep the latched registers (42_envelope.md R164, R166). -/

@[simp] theorem envTick_incA (e : Env) : (envTick e).incA = e.incA := by
  unfold envTick; cases e.stage <;> dsimp only <;> split <;> rfl

@[simp] theorem envTick_decD (e : Env) : (envTick e).decD = e.decD := by
  unfold envTick; cases e.stage <;> dsimp only <;> split <;> rfl

@[simp] theorem envTick_sTarget (e : Env) : (envTick e).sTarget = e.sTarget := by
  unfold envTick; cases e.stage <;> dsimp only <;> split <;> rfl

@[simp] theorem envTick_nR (e : Env) : (envTick e).nR = e.nR := by
  unfold envTick; cases e.stage <;> dsimp only <;> split <;> rfl

@[simp] theorem envTick_decR (e : Env) : (envTick e).decR = e.decR := by
  unfold envTick; cases e.stage <;> dsimp only <;> split <;> rfl

@[simp] theorem envKeyOff_level (e : Env) : (envKeyOff e).level = e.level := by
  unfold envKeyOff; cases e.stage <;> rfl

@[simp] theorem envKeyOff_incA (e : Env) : (envKeyOff e).incA = e.incA := by
  unfold envKeyOff; cases e.stage <;> rfl

@[simp] theorem envKeyOff_decD (e : Env) : (envKeyOff e).decD = e.decD := by
  unfold envKeyOff; cases e.stage <;> rfl

@[simp] theorem envKeyOff_sTarget (e : Env) : (envKeyOff e).sTarget = e.sTarget := by
  unfold envKeyOff; cases e.stage <;> rfl

@[simp] theorem envKeyOff_nR (e : Env) : (envKeyOff e).nR = e.nR := by
  unfold envKeyOff; cases e.stage <;> rfl

/-! A filter's tick keeps the caches, and everything when the filter is off (44_filter.md R202). -/

@[simp] theorem fltAdvance_cType (pa : Vector Param 128) (f : Fin 2) (t : Flt) (x e : Int) :
    (fltAdvance pa f t x e).cType = t.cType := by
  unfold fltAdvance; split <;> rfl

@[simp] theorem fltAdvance_cEnvDepth (pa : Vector Param 128) (f : Fin 2) (t : Flt) (x e : Int) :
    (fltAdvance pa f t x e).cEnvDepth = t.cEnvDepth := by
  unfold fltAdvance; split <;> rfl

theorem fltAdvance_off (pa : Vector Param 128) (f : Fin 2) (t : Flt) (x e : Int)
    (h : fltOn t = false) : fltAdvance pa f t x e = t := by
  simp [fltAdvance, h]

theorem fltOn_iff (t : Flt) :
    fltOn t = true ↔ t.cType = 1#16 ∨ t.cType = 2#16 ∨ t.cType = 3#16 := by
  simp [fltOn, or_assoc]

/-! The end of a block (40_commands.md R126). -/

/-- Everything the end of a block can do: free the voice, or nothing. -/
theorem endBlock_cases (s : State) :
    (allEnvIdle s.regs = true ∧ endBlock s = freeVoice s) ∨
      (allEnvIdle s.regs = false ∧ endBlock s = s) := by
  unfold endBlock
  cases h : allEnvIdle s.regs <;> simp

@[simp] theorem endBlock_buffer (s : State) : (endBlock s).buffer = s.buffer := by
  unfold endBlock; split <;> rfl

@[simp] theorem endBlock_inputs (s : State) : (endBlock s).inputs = s.inputs := by
  unfold endBlock; split <;> rfl

@[simp] theorem endBlock_winStart (s : State) : (endBlock s).winStart = s.winStart := by
  unfold endBlock; split <;> rfl

/-- The end of a block writes no register but VSTATE and CLEARED. -/
theorem endBlock_regs (s : State) :
    { (endBlock s).regs with vstate := s.regs.vstate, cleared := s.regs.cleared } = s.regs := by
  unfold endBlock; split <;> rfl

@[simp] theorem endBlock_rc (s : State) : (endBlock s).regs.rc = s.regs.rc := by
  unfold endBlock; split <;> rfl

@[simp] theorem endBlock_rp (s : State) : (endBlock s).regs.rp = s.regs.rp := by
  unfold endBlock; split <;> rfl

@[simp] theorem endBlock_pa (s : State) : (endBlock s).regs.pa = s.regs.pa := by
  unfold endBlock; split <;> rfl

/-- Everything one step of a running RENDER can do: a tick, and with the last tick the end of the
block (40_commands.md R126, log 4). -/
theorem renderTick_cases (s : State) :
    (s.regs.rc - 1#13 = 0#13 ∧ renderTick s = endBlock (voiceTick s)) ∨
      (s.regs.rc - 1#13 ≠ 0#13 ∧ renderTick s = voiceTick s) := by
  unfold renderTick
  by_cases h : (voiceTick s).regs.rc = 0#13
  · exact .inl ⟨h, if_pos h⟩
  · exact .inr ⟨h, if_neg h⟩

@[simp] theorem renderTick_inputs (s : State) : (renderTick s).inputs = s.inputs := by
  rcases renderTick_cases s with ⟨-, h⟩ | ⟨-, h⟩ <;> simp [h]

@[simp] theorem renderTick_winStart (s : State) : (renderTick s).winStart = s.winStart := by
  rcases renderTick_cases s with ⟨-, h⟩ | ⟨-, h⟩ <;> simp [h]

@[simp] theorem renderTick_buffer (s : State) :
    (renderTick s).buffer = s.buffer.accumulate s.regs.rp (tickOut s.regs) := by
  rcases renderTick_cases s with ⟨-, h⟩ | ⟨-, h⟩ <;> simp [h]

@[simp] theorem renderTick_rc (s : State) : (renderTick s).regs.rc = s.regs.rc - 1#13 := by
  rcases renderTick_cases s with ⟨-, h⟩ | ⟨-, h⟩ <;> simp [h]

/-- A running RENDER has one tick less to run after a step. -/
theorem renderTick_rc_toNat {s : State} (h : s.regs.rc ≠ 0#13) :
    (renderTick s).regs.rc.toNat + 1 = s.regs.rc.toNat := by
  have h0 : s.regs.rc.toNat ≠ 0 := fun e => h (BitVec.eq_of_toNat_eq e)
  have := s.regs.rc.isLt
  rw [renderTick_rc, BitVec.toNat_sub]
  simp only [BitVec.toNat_ofNat]
  omega

theorem unitStep_of_running {s : State} (h : s.regs.rc ≠ 0#13) : unitStep s = renderTick s :=
  if_neg h

theorem unitStep_of_waiting {s : State} (h : s.regs.rc = 0#13) : unitStep s = s := if_pos h

@[simp] theorem unitStep_inputs (s : State) : (unitStep s).inputs = s.inputs := by
  unfold unitStep; split <;> simp

end Sys2Proof.Machine
end

