-- ==== Sys2Proof/Laws/Step.lean ====
section
/-! SUPPORT. What one step can do, said once: `exec` per command as an equation, and the inversion of
`step`. -/

namespace Sys2Proof.Machine

/-! One equation per command. -/

theorem exec_nop (s : State) : exec .nop s = .next s := rfl

theorem exec_canplay (sound : BitVec 8) (s : State) :
    exec (.canplay sound) s = .next { s with regs := { s.regs with resp := true } } := rfl

theorem exec_start (note : BitVec 7) (vel : BitVec 8) (pw : BitVec 14) (s : State) :
    exec (.start note vel pw) s = .next { s with regs := startRegs note vel pw s.regs } := rfl

theorem exec_stop_tail (s : State) : exec (.stop 1#1) s = .next (releaseVoice s) := rfl

theorem exec_stop_kill (s : State) : exec (.stop 0#1) s = .next (killVoice s) := rfl

theorem exec_pwheel (pw : BitVec 14) (s : State) :
    exec (.pwheel pw) s = .next { s with regs := { s.regs with bend := bendOf pw } } := rfl

theorem exec_ctrl (id val : BitVec 7) (s : State) :
    exec (.ctrl id val) s = .next { s with regs := { s.regs with lastCc := id ++ val } } := rfl

theorem exec_render (start : BitVec 16) (num : BitVec 13) (s : State) :
    exec (.render start num) s =
      .next (if s.regs.vstate ≠ .idle ∧ num ≠ 0#13 then beginBlock start num s else s) := rfl

theorem exec_reserved7 (s : State) : exec .reserved7 s = .next s := rfl

/-- The tail bit is 0 or 1 (40_commands.md R123). -/
theorem tail_cases (tail : BitVec 1) : tail = 0#1 ∨ tail = 1#1 := by
  have := tail.isLt
  rcases Nat.lt_or_ge tail.toNat 1 with h | h
  · exact .inl (BitVec.eq_of_toNat_eq (by simp; omega))
  · exact .inr (BitVec.eq_of_toNat_eq (by simp; omega))

/-- Everything a kill can do (40_commands.md R123). -/
theorem killVoice_cases (s : State) :
    (s.regs.vstate = .idle ∧
      killVoice s = { s with regs := { s.regs with env := s.regs.env.map envKill } }) ∨
      (s.regs.vstate ≠ .idle ∧
        killVoice s =
          freeVoice { s with regs := { s.regs with env := s.regs.env.map envKill } }) := by
  unfold killVoice
  by_cases h : s.regs.vstate = .idle
  · exact .inl ⟨h, if_pos h⟩
  · exact .inr ⟨h, if_neg h⟩

/-- Everything a release can do (40_commands.md R123). -/
theorem releaseVoice_cases (s : State) :
    (s.regs.vstate = .sounding ∧
      releaseVoice s =
        { s with regs := { s.regs with env := s.regs.env.map envKeyOff, vstate := .releasing } }) ∨
      (s.regs.vstate ≠ .sounding ∧ releaseVoice s = s) := by
  unfold releaseVoice
  by_cases h : s.regs.vstate = .sounding
  · exact .inl ⟨h, if_pos h⟩
  · exact .inr ⟨h, if_neg h⟩

/-- A host that waits lets a running RENDER tick (30_encoding.md R118). -/
theorem awaitStep_of_running {s : State} (h : s.regs.rc ≠ 0#13) (rest : List Input) :
    awaitStep rest s = unitStep s := by
  simp [awaitStep, rendering, h]

/-- A host that waits for nothing goes on (30_encoding.md R118). -/
theorem awaitStep_of_waiting {s : State} (h : s.regs.rc = 0#13) (rest : List Input) :
    awaitStep rest s = { s with inputs := rest } := by
  simp [awaitStep, rendering, h]

/-- Everything a step can do, guards included (00_scope.md R6, R7). -/
theorem step_cases {s t : State} (h : step s = .next t) :
    (s.inputs = [] ∧ t = unitStep s) ∨
    (∃ w rest, s.inputs = .command w :: rest ∧ s.regs.rc ≠ 0#13 ∧ t = unitStep s) ∨
    (∃ w rest, s.inputs = .command w :: rest ∧ s.regs.rc = 0#13 ∧
      exec (decode w) { s with inputs := rest } = .next t) ∨
    (∃ idx val rest, s.inputs = .pset idx val :: rest ∧
      t = psetStep idx val { s with inputs := rest }) ∨
    (∃ addr val rest, s.inputs = .bufferWrite addr val :: rest ∧ mayWrite s addr = true ∧
      t = bufferStep addr val { s with inputs := rest }) ∨
    (∃ addr val rest, s.inputs = .bufferWrite addr val :: rest ∧ mayWrite s addr = false ∧
      t = unitStep s) ∨
    (∃ rest, s.inputs = .reset :: rest ∧ t = resetStep { s with inputs := rest }) ∨
    (∃ rest, s.inputs = .pause :: rest ∧ t = unitStep { s with inputs := rest }) ∨
    (∃ rest, s.inputs = .await :: rest ∧ s.regs.rc ≠ 0#13 ∧ t = unitStep s) ∨
    (∃ rest, s.inputs = .await :: rest ∧ s.regs.rc = 0#13 ∧ t = { s with inputs := rest }) := by
  have next_inj : ∀ {u : State},
      (Host.Outcome.next u : Host.Outcome State Fault Refusal) = .next t → t = u := by
    intro u e
    cases e
    rfl
  unfold step at h
  cases hi : s.inputs with
  | nil =>
    rw [hi] at h
    exact .inl ⟨rfl, next_inj h⟩
  | cons i rest =>
    rw [hi] at h
    cases i with
    | command w =>
      by_cases hr : s.regs.rc = 0#13
      · refine .inr (.inr (.inl ⟨w, rest, rfl, hr, ?_⟩))
        simpa [rendering, hr] using h
      · refine .inr (.inl ⟨w, rest, rfl, hr, ?_⟩)
        simp only [rendering, bne_iff_ne, ne_eq, hr, not_false_eq_true, if_true] at h
        exact next_inj h
    | pset idx val => exact .inr (.inr (.inr (.inl ⟨idx, val, rest, rfl, next_inj h⟩)))
    | bufferWrite addr val =>
      cases hm : mayWrite s addr with
      | true =>
        simp only [hm, if_true] at h
        exact .inr (.inr (.inr (.inr (.inl ⟨addr, val, rest, rfl, hm, next_inj h⟩))))
      | false =>
        simp only [hm, Bool.false_eq_true, if_false] at h
        exact .inr (.inr (.inr (.inr (.inr (.inl ⟨addr, val, rest, rfl, hm, next_inj h⟩)))))
    | reset => exact .inr (.inr (.inr (.inr (.inr (.inr (.inl ⟨rest, rfl, next_inj h⟩))))))
    | pause => exact .inr (.inr (.inr (.inr (.inr (.inr (.inr (.inl ⟨rest, rfl, next_inj h⟩)))))))
    | await =>
      have ht := next_inj h
      by_cases hr : s.regs.rc = 0#13
      · rw [awaitStep_of_waiting hr] at ht
        exact .inr (.inr (.inr (.inr (.inr (.inr (.inr (.inr (.inr ⟨rest, rfl, hr, ht⟩))))))))
      · rw [awaitStep_of_running hr] at ht
        exact .inr (.inr (.inr (.inr (.inr (.inr (.inr (.inr (.inl ⟨rest, rfl, hr, ht⟩))))))))

/-- A run of one step more is that step and the run from where it ends. -/
theorem run_succ_of_next {M : Host.Core} {s t : M.State} (h : M.step s = .next t) (k : Nat) :
    M.run (k + 1) s = M.run k t := by
  simp [Host.Core.run, h]

/-- The same of this machine. -/
theorem run_step {s t : State} (h : step s = .next t) (k : Nat) :
    core.run (k + 1) s = core.run k t :=
  run_succ_of_next (M := core) h k

/-- Ticks add up. -/
theorem ticks_add (a b : Nat) (s : State) : ticks (a + b) s = ticks b (ticks a s) := by
  induction a generalizing s with
  | zero => simp [ticks]
  | succ a ih =>
    rw [Nat.succ_add]
    exact ih (voiceTick s)

theorem ticks_succ (k : Nat) (s : State) : ticks (k + 1) s = voiceTick (ticks k s) :=
  ticks_add k 1 s

end Sys2Proof.Machine
end

