-- ==== Sys2Proof/Laws/Tables.lean ====
section
/-! SUPPORT. The facts of the tables `SINQ` and `TUNE` that the range lemmas use (00_scope.md R22,
R29). -/

namespace Sys2Proof.Config

theorem sinq_range (k : Nat) : 0 ≤ sinq k ∧ sinq k ≤ 32767 := by
  by_cases h : k < 65
  · have : ∀ j : Fin 65, 0 ≤ sinq j.val ∧ sinq j.val ≤ 32767 := by decide
    exact this ⟨k, h⟩
  · have : sinq k = 0 := by
      rw [sinq, List.getD_eq_getElem?_getD, List.getElem?_eq_none (by simpa [sinqTable] using h)]
      rfl
    omega

/-- "The table is non-decreasing" (00_scope.md R29). -/
theorem sinq_le_succ (k : Nat) (h : k < 64) : sinq k ≤ sinq (k + 1) := by
  have : ∀ j : Fin 64, sinq j.val ≤ sinq (j.val + 1) := by decide
  exact this ⟨k, h⟩

/-- The same, read downward: the entries an odd quadrant interpolates between (41_oscillator.md
R141). -/
theorem sinq_down (k : Nat) (h : k < 64) : sinq (63 - k) ≤ sinq (64 - k) := by
  have := sinq_le_succ (63 - k) (by omega)
  rwa [show 63 - k + 1 = 64 - k by omega] at this

theorem tune_lt_succ (k : Nat) (h : k < 12) : tune k < tune (k + 1) := by
  have : ∀ j : Fin 12, tune j.val < tune (j.val + 1) := by decide
  exact this ⟨k, h⟩

theorem tune_range (k : Nat) (h : k ≤ 12) : 749115498 ≤ tune k ∧ tune k ≤ 1498230996 := by
  have : ∀ j : Fin 13, 749115498 ≤ tune j.val ∧ tune j.val ≤ 1498230996 := by decide
  exact this ⟨k, by omega⟩

/-- `TUNE[12] = 2 * TUNE[0]` (00_scope.md R22). -/
theorem tune_octave : tune 12 = 2 * tune 0 := by decide

end Sys2Proof.Config
end

