-- ==== Sys2Proof/Machine/Listing.lean ====
section
/-! DEFINITION. The text of a listing: one command per line, operands separated by commas, numbers
decimal or `0x` hexadecimal, `;` before a comment, and `PSET` lines (30_encoding.md R116 to R118). A
line is a list of characters; mnemonics and names are read in capitals, as the spec writes them, the
digits a to f of a `0x` number in either case (DESIGN CHOICE, log 15). -/

namespace Sys2Proof.Machine

/-- A digit of base 10 or 16. DESIGN CHOICE, log 15: the digits above 9 are A to F or a to f, of which
30_encoding.md R116 says nothing. -/
def digitOf (base : Nat) (c : Char) : Option Nat :=
  let n := c.toNat
  let d := if 48 ≤ n ∧ n ≤ 57 then n - 48
    else if 65 ≤ n ∧ n ≤ 70 then n - 55
    else if 97 ≤ n ∧ n ≤ 102 then n - 87
    else 16
  if d < base then some d else none

/-- The digits of a number, all of them, after the value of those before. -/
def digitsFrom (base acc : Nat) : List Char → Option Nat
  | [] => some acc
  | c :: cs =>
    match digitOf base c with
    | some d => digitsFrom base (acc * base + d) cs
    | none => none

/-- A number, decimal or `0x` hexadecimal (30_encoding.md R116); zeros before it change nothing (DESIGN
CHOICE, log 15). -/
def numberOf : List Char → Option Nat
  | [] => none
  | '0' :: 'x' :: c :: cs => digitsFrom 16 0 (c :: cs)
  | c :: cs => digitsFrom 10 0 (c :: cs)

/-- What separates the words of a line: the space and the tab (DESIGN CHOICE, log 15). -/
def isBlank (c : Char) : Bool := c.toNat == 32 || c.toNat == 9

/-- Without the blanks at both ends. -/
def trimmed (cs : List Char) : List Char :=
  ((cs.dropWhile isBlank).reverse.dropWhile isBlank).reverse

/-- The line without its comment (30_encoding.md R116). -/
def withoutComment (cs : List Char) : List Char := cs.takeWhile fun c => c.toNat != 59

/-- The pieces between commas. -/
def piecesOf : List Char → List (List Char)
  | [] => [[]]
  | c :: cs =>
    match piecesOf cs with
    | [] => [[c]]
    | p :: ps => if c.toNat = 44 then [] :: p :: ps else (c :: p) :: ps

/-- The operands of a line, none of them where nothing follows the mnemonic. -/
def operandsOf (cs : List Char) : List (List Char) :=
  if trimmed cs = [] then [] else (piecesOf cs).map trimmed

/-- Every operand as a number. -/
def numbersOf : List (List Char) → Option (List Nat)
  | [] => some []
  | p :: ps =>
    match numberOf p, numbersOf ps with
    | some n, some ns => some (n :: ns)
    | _, _ => none

/-- How a parameter's name is written (10_state.md R52). -/
def spellingOf : ParamName → List Char
  | .oscWave i => ['O', 'S', 'C', Char.ofNat (48 + i.val), '_', 'W', 'A', 'V', 'E']
  | .oscOct i => ['O', 'S', 'C', Char.ofNat (48 + i.val), '_', 'O', 'C', 'T']
  | .oscSemi i => ['O', 'S', 'C', Char.ofNat (48 + i.val), '_', 'S', 'E', 'M', 'I']
  | .oscLevel i => ['O', 'S', 'C', Char.ofNat (48 + i.val), '_', 'L', 'E', 'V', 'E', 'L']
  | .envEnable i => ['E', 'N', 'V', Char.ofNat (48 + i.val), '_', 'E', 'N', 'A', 'B', 'L', 'E']
  | .envAttack i => ['E', 'N', 'V', Char.ofNat (48 + i.val), '_', 'A', 'T', 'T', 'A', 'C', 'K']
  | .envDecay i => ['E', 'N', 'V', Char.ofNat (48 + i.val), '_', 'D', 'E', 'C', 'A', 'Y']
  | .envSustain i =>
    ['E', 'N', 'V', Char.ofNat (48 + i.val), '_', 'S', 'U', 'S', 'T', 'A', 'I', 'N']
  | .envRelease i =>
    ['E', 'N', 'V', Char.ofNat (48 + i.val), '_', 'R', 'E', 'L', 'E', 'A', 'S', 'E']
  | .lfoWave i => ['L', 'F', 'O', Char.ofNat (48 + i.val), '_', 'W', 'A', 'V', 'E']
  | .lfoRate i => ['L', 'F', 'O', Char.ofNat (48 + i.val), '_', 'R', 'A', 'T', 'E']
  | .lfoDepth i => ['L', 'F', 'O', Char.ofNat (48 + i.val), '_', 'D', 'E', 'P', 'T', 'H']
  | .lfoDest i => ['L', 'F', 'O', Char.ofNat (48 + i.val), '_', 'D', 'E', 'S', 'T']
  | .fltType f => ['F', 'L', 'T', Char.ofNat (48 + f.val), '_', 'T', 'Y', 'P', 'E']
  | .fltCutoff f => ['F', 'L', 'T', Char.ofNat (48 + f.val), '_', 'C', 'U', 'T', 'O', 'F', 'F']
  | .fltRes f => ['F', 'L', 'T', Char.ofNat (48 + f.val), '_', 'R', 'E', 'S']
  | .fltEnvDepth f =>
    ['F', 'L', 'T', Char.ofNat (48 + f.val), '_', 'E', 'N', 'V', 'D', 'E', 'P', 'T', 'H']
  | .filterSeq => ['F', 'I', 'L', 'T', 'E', 'R', '_', 'S', 'E', 'Q']
  | .noiseLevel => ['N', 'O', 'I', 'S', 'E', '_', 'L', 'E', 'V', 'E', 'L']
  | .drive => ['D', 'R', 'I', 'V', 'E']
  | .outGain => ['O', 'U', 'T', '_', 'G', 'A', 'I', 'N']
  | .fx k => ['F', 'X', Char.ofNat (48 + k.val)]

/-- The names of triple `i`. -/
def tripleNames (i : Fin 3) : List ParamName :=
  [.oscWave i, .oscOct i, .oscSemi i, .oscLevel i, .envEnable i, .envAttack i, .envDecay i]
    ++ [.envSustain i, .envRelease i, .lfoWave i, .lfoRate i, .lfoDepth i, .lfoDest i]

/-- The names of filter `f`. -/
def filterNames (f : Fin 2) : List ParamName := [.fltType f, .fltCutoff f, .fltRes f, .fltEnvDepth f]

/-- Every name of 10_state.md R52. -/
def paramNames : List ParamName :=
  tripleNames 0 ++ tripleNames 1 ++ tripleNames 2 ++ filterNames 0 ++ filterNames 1
    ++ [.filterSeq, .noiseLevel, .drive, .outGain, .fx 0, .fx 1, .fx 2, .fx 3]

/-- The parameter a name stands for. -/
def paramOf (cs : List Char) : Option ParamName :=
  paramNames.find? fun n => decide (spellingOf n = cs)

/-- A `PSET` line's operands: an index or a name, and a value (30_encoding.md R118). -/
def psetLine : List (List Char) → Option AsmLine
  | [target, val] =>
    match numberOf target, paramOf target, numberOf val with
    | some idx, _, some v => some (.pset idx v)
    | none, some name, some v => some (.psetNamed name v)
    | _, _, _ => none
  | _ => none

/-- A mnemonic and its operands in the order of the fields (30_encoding.md R116, R117); a number in the
mnemonic's place is a command word. -/
def commandLine (word : List Char) (ops : List Nat) : Option AsmLine :=
  if word = ['N', 'O', 'P'] then
    match ops with
    | [] => some .nop
    | _ => none
  else if word = ['C', 'A', 'N', 'P', 'L', 'A', 'Y'] then
    match ops with
    | [sound] => some (.canplay sound)
    | _ => none
  else if word = ['S', 'T', 'A', 'R', 'T'] then
    match ops with
    | [note, vel, pw] => some (.start note vel pw)
    | _ => none
  else if word = ['S', 'T', 'O', 'P'] then
    match ops with
    | [tail] => some (.stop tail)
    | _ => none
  else if word = ['P', 'W', 'H', 'E', 'E', 'L'] then
    match ops with
    | [pw] => some (.pwheel pw)
    | _ => none
  else if word = ['C', 'T', 'R', 'L'] then
    match ops with
    | [id, val] => some (.ctrl id val)
    | _ => none
  else if word = ['R', 'E', 'N', 'D', 'E', 'R'] then
    match ops with
    | [first, num] => some (.render first num)
    | _ => none
  else if word = ['N', 'O', 'T', 'E', 'O', 'N'] then
    match ops with
    | [note, vel] => some (.noteon note vel)
    | _ => none
  else if word = ['R', 'E', 'L', 'E', 'A', 'S', 'E'] then
    match ops with
    | [] => some .release
    | _ => none
  else if word = ['K', 'I', 'L', 'L'] then
    match ops with
    | [] => some .kill
    | _ => none
  else if word = ['C', 'E', 'N', 'T', 'E', 'R'] then
    match ops with
    | [] => some .center
    | _ => none
  else
    match ops, numberOf word with
    | [], some w => some (.word w)
    | _, _ => none

/-- One line that holds more than blanks and a comment. -/
def lineOf (cs : List Char) : Option AsmLine :=
  let word := cs.takeWhile fun c => !isBlank c
  let ops := operandsOf (cs.dropWhile fun c => !isBlank c)
  if word = ['P', 'S', 'E', 'T'] then psetLine ops
  else
    match numbersOf ops with
    | some ns => commandLine word ns
    | none => none

/-- The lines of a listing's text but those that hold only blanks and a comment, or none where one is an
assembly error (30_encoding.md R116, R118). -/
def linesOf : List (List Char) → Option (List AsmLine)
  | [] => some []
  | cs :: rest =>
    let body := trimmed (withoutComment cs)
    if body = [] then linesOf rest
    else
      match lineOf body, linesOf rest with
      | some l, some ls => some (l :: ls)
      | _, _ => none

/-- A listing's text as what its host does at the ports, in the order of its lines, or none where a line
is an assembly error (30_encoding.md R116, R118). -/
def assembleText (text : List (List Char)) : Option (List Input) :=
  match linesOf text with
  | some ls => assembleAll ls
  | none => none

end Sys2Proof.Machine
end

