-- ==== Sys2Proof/Tests/Slice0.lean ====
section
/-! SUPPORT. Tests of one step or one function each, every expected number taken from the rule or the
section of 95_test_vectors.md that its comment names, and for each statement of the certificate a
concrete state and operands that meet its hypotheses (`test_witness_…`). -/

namespace Sys2Proof.Tests

open Sys2Proof.Machine

/-! ### Machines to test on -/

/-- Note 69 at full velocity, wheel centred, started on a reset unit (40_commands.md R122's example). -/
def sounding : State :=
  { State.reset with regs := startRegs 69#7 128#8 8192#14 Regs.reset }

/-- The same note with all three envelopes in SUSTAIN (95_test_vectors.md section 2.8). -/
def held : State :=
  { sounding with
    regs := { sounding.regs with
      env := sounding.regs.env.map fun e => { e with stage := .sustain, level := 0x80000000#32 } } }

/-- The note released. -/
def releasing : State := releaseVoice held

/-- A RENDER of three ticks that has not made its first one; its window is words 65534, 65535 and 0. -/
def running : State := beginBlock 0xFFFE#16 3#13 sounding

/-- A machine and what its surroundings do next. -/
def facing (ins : List Input) (s : State) : State := { s with inputs := ins }

/-- A Parameter Array with the words given, the others 0. -/
def patch (ws : List (BitVec 7 × Param)) : Vector Param 128 :=
  ws.foldl (fun pa w => paWrite pa w.1 w.2) Regs.reset.pa

/-- An envelope in a stage, with the steps of 42_envelope.md R163's example. -/
def adsr (st : Stage) (level : Nat) : Env where
  stage := st
  level := BitVec.ofNat 32 level
  incA := 44739243#32
  decD := 11184811#32
  sTarget := 0x40000000#32
  nR := 48#22
  decR := 22369622#32

/-- An oscillator at a phase, with a waveform and a level word. -/
def oscAt (sel level : Param) (ph : Word) : Osc :=
  { Osc.reset with phase := ph, cWave := sel, cLevel := level }

/-! ### WellFormed: every check refuses an ill-formed line (30_encoding.md R116) -/

theorem test_canplay_sound_too_wide : (AsmLine.canplay 256).wellFormed = false := by decide
theorem test_start_note_too_wide : (AsmLine.start 128 0 0).wellFormed = false := by decide
theorem test_start_vel_too_wide : (AsmLine.start 0 256 0).wellFormed = false := by decide
theorem test_start_pw_too_wide : (AsmLine.start 0 0 16384).wellFormed = false := by decide
theorem test_stop_tail_too_wide : (AsmLine.stop 2).wellFormed = false := by decide
theorem test_pwheel_pw_too_wide : (AsmLine.pwheel 16384).wellFormed = false := by decide
theorem test_ctrl_id_too_wide : (AsmLine.ctrl 128 0).wellFormed = false := by decide
theorem test_ctrl_val_too_wide : (AsmLine.ctrl 0 128).wellFormed = false := by decide
theorem test_render_start_too_wide : (AsmLine.render 65536 0).wellFormed = false := by decide
theorem test_render_num_too_wide : (AsmLine.render 0 8192).wellFormed = false := by decide
theorem test_noteon_note_too_wide : (AsmLine.noteon 128 0).wellFormed = false := by decide
theorem test_noteon_vel_too_wide : (AsmLine.noteon 0 256).wellFormed = false := by decide
theorem test_word_too_wide : (AsmLine.word 4294967296).wellFormed = false := by decide
theorem test_pset_idx_too_wide : (AsmLine.pset 128 0).wellFormed = false := by decide
theorem test_pset_named_val_too_wide : (AsmLine.psetNamed .drive 65536).wellFormed = false := by decide
theorem test_pset_val_too_wide : (AsmLine.pset 0 65536).wellFormed = false := by decide
theorem test_ill_formed_line_is_not_assembled : assemble (.render 0 8192) = none := by decide

/-! ### Decode and encode: words written out from the fields of 30_encoding.md R103 -/

theorem test_decode_nop : decode 0b00011111111111111111111111111111#32 = .nop := by decide
theorem test_decode_canplay : decode 0b00111111111111111111111101010101#32 = .canplay 85#8 := by decide
/-- 30_encoding.md R111's worked word. -/
theorem test_decode_start : decode 0b01010001011000000010000000000000#32 = .start 69#7 128#8 8192#14 := by
  decide
theorem test_decode_start_all_ones : decode 0x5FFFFFFF#32 = .start 127#7 255#8 16383#14 := by decide
theorem test_decode_stop_kill : decode 0b01111111111111111111111111111110#32 = .stop 0#1 := by decide
theorem test_decode_stop_tail : decode 0b01100000000000000000000000000001#32 = .stop 1#1 := by decide
theorem test_decode_pwheel : decode 0b10011111111111111100000000000000#32 = .pwheel 0#14 := by decide
/-- 40_commands.md R124's example. -/
theorem test_decode_pwheel_12288 : decode 0x80003000#32 = .pwheel 12288#14 := by decide
theorem test_decode_ctrl : decode 0b10100000000000000000001111100100#32 = .ctrl 7#7 100#7 := by decide
theorem test_decode_render : decode 0b11011111111111111100000000000100#32 = .render 0xFFFE#16 4#13 := by
  decide
theorem test_decode_reserved7 : decode 0b11111111111111111111111111111111#32 = .reserved7 := by decide
/-- A table row's bits, and one with more bits than a command has. -/
theorem test_decode_table_word :
    decodeTableWord 32 0x4F192000 = some (.start 60#7 100#8 8192#14) ∧ decodeTableWord 40 0 = none := by
  decide

/-- The assembly table of 95_test_vectors.md section 2.2. -/
theorem test_encode :
    encode .nop = 0x00000000#32 ∧ encode (.canplay 255#8) = 0x200000FF#32 ∧
      encode (.start 69#7 128#8 8192#14) = 0x51602000#32 ∧
      encode (.start 60#7 100#8 8192#14) = 0x4F192000#32 ∧
      encode (.start 127#7 255#8 16383#14) = 0x5FFFFFFF#32 ∧ encode (.stop 1#1) = 0x60000001#32 ∧
      encode (.stop 0#1) = 0x60000000#32 ∧ encode (.pwheel 16383#14) = 0x80003FFF#32 ∧
      encode (.ctrl 1#7 64#7) = 0xA00000C0#32 ∧ encode (.ctrl 127#7 127#7) = 0xA0003FFF#32 ∧
      encode (.render 0x1000#16 256#13) = 0xC2000100#32 ∧
      encode (.render 0xFFFE#16 4#13) = 0xDFFFC004#32 ∧
      encode (.render 65535#16 8191#13) = 0xDFFFFFFF#32 ∧ encode .reserved7 = 0xE0000000#32 := by
  decide

/-- A listing in the order of its lines (30_encoding.md R116 to R118). -/
theorem test_assemble_listing :
    assembleAll [.pset 0x43 0x8000, .noteon 69 128, .render 0 8, .release, .word 0xFFFFFFFF] =
      some [.await, .pset 0x43#7 0x8000#16, .command 0x51602000#32, .command 0xC0000008#32,
        .command 0x60000001#32, .command 0xFFFFFFFF#32] := by decide

/-- The text of program P1 (95_test_vectors.md section 3), with a blank line. -/
theorem test_assemble_text :
    assembleText
      ["PSET OSC0_LEVEL, 0x8000        ; PA[0x03]".toList, "".toList,
        "PSET OUT_GAIN,   0x8000".toList, "START 69, 128, 8192 ; 0x51602000".toList,
        "RENDER 0, 8".toList, "0xFFFFFFFF".toList] =
      some [.await, .pset 0x03#7 0x8000#16, .await, .pset 0x43#7 0x8000#16,
        .command 0x51602000#32, .command 0xC0000008#32, .command 0xFFFFFFFF#32] := by
  decide +kernel

/-- A value that does not fit, a missing operand, an unknown word. -/
theorem test_assemble_text_errors :
    assembleText ["RENDER 0, 8192".toList] = none ∧ assembleText ["START 69, 128".toList] = none ∧
      assembleText ["JUMP".toList] = none ∧ assembleText ["PSET FX4, 1".toList] = none := by
  decide +kernel

/-- Every parameter name is found under its own spelling, at an index of its own. -/
theorem test_parameter_names :
    paramNames.all (fun n => decide (paramOf (spellingOf n) = some n)) = true ∧
      (paramNames.map nameIdx).Nodup := by decide +kernel

/-! ### Primitives (95_test_vectors.md section 2.1) -/

theorem test_primitives :
    asr (-5) 1 = -3 ∧ asr (-1) 15 = -1 ∧ asr 7 1 = 3 ∧ sext16 0xFFF4#16 = -12 ∧
      sext16 0x8000#16 = -32768 ∧ ceilDiv 2147483648 48 = 44739243 ∧ ceilDiv 0 48 = 0 ∧
      u115 0x7FFF#16 = 32767 ∧ u115 0x8000#16 = 32768 ∧ u115 0xFFFF#16 = 32768 ∧
      sat32 2147483648 = 2147483647 ∧ sat32 (-2147483653) = -2147483648 ∧
      clamp (-5) 0 33791 = 0 ∧ clamp 50000 0 33791 = 33791 := by decide

/-! ### Waveforms and pitch (41_oscillator.md) -/

/-- R141. -/
theorem test_sine :
    sinQ15 0x00800000#32 = 402 ∧ sinQ15 0x10000000#32 = 12539 ∧ sinQ15 0x20000000#32 = 23170 ∧
      sinQ15 0x3FFF0000#32 = 32766 ∧ sinQ15 0x40000000#32 = 32767 ∧ sinQ15 0x41000000#32 = 32757 ∧
      sinQ15 0x7FFFFFFF#32 = 3 ∧ sinQ15 0x81000000#32 = -804 ∧ sinQ15 0xC0000000#32 = -32767 ∧
      sinQ15 0xFFFFFFFF#32 = -3 ∧ sinQ15 0x12345678#32 = 14156 ∧ sinQ15 0x9ABCDEF0#32 = -19989 := by
  decide

/-- R142, R143, R144, and the fallback of R140. -/
theorem test_waveforms :
    sawQ15 0x0000FFFF#32 = -32767 ∧ sawQ15 0x00020000#32 = -32766 ∧ sawQ15 0x80000000#32 = 0 ∧
      sawQ15 0xFFFFFFFF#32 = 32767 ∧ sawQ15 0x12345678#32 = -28108 ∧
      squareQ15 0x7FFFFFFF#32 = 32767 ∧ squareQ15 0x80000000#32 = -32767 ∧
      triQ15 0x3FFF0000#32 = -1 ∧ triQ15 0x40000000#32 = 1 ∧ triQ15 0x7FFF0000#32 = 32767 ∧
      triQ15 0x80000000#32 = 32767 ∧ triQ15 0xFFFFFFFF#32 = -32767 ∧ triQ15 0x12345678#32 = -23447 ∧
      wave 7#16 0x40000000#32 = 32767 := by decide

/-- R146. -/
theorem test_pitch_to_inc :
    pitchToInc 0 = 731558 ∧ pitchToInc (-5) = 731558 ∧ pitchToInc 1 = 731728 ∧
      pitchToInc 14592 = 19685266 ∧ pitchToInc 15360 = 23409859 ∧ pitchToInc 17664 = 39370533 ∧
      pitchToInc 17792 = 40541080 ∧ pitchToInc 20736 = 78741067 ∧ pitchToInc 30720 = 749115498 ∧
      pitchToInc 33791 = 1497902522 ∧ pitchToInc 50000 = 1497902522 := by decide

/-- R147's example, and the composed pitch 18430 of 95_test_vectors.md section 2.3. -/
theorem test_osc_pitch :
    oscPitch 69#7 256#11 { Osc.reset with cOct := 0xFFFF#16, cSemi := 7#16 } (-10) = 16630 ∧
      oscPitch 69#7 511#11 Osc.reset 255 = 18430 := by decide

/-- R149's values on the square wave, with unity tremolo (R150). -/
theorem test_osc_gain :
    oscScaled (oscAt 2#16 0x4000#16 0#32) 32768 = 16383 ∧
      oscScaled (oscAt 2#16 0x4000#16 0x80000000#32) 32768 = -16384 ∧
      oscScaled (oscAt 0#16 0x2000#16 0x10000000#32) 32768 = 3134 ∧
      oscScaled (oscAt 0#16 0x2000#16 0x90000000#32) 32768 = -3135 := by decide

/-! ### LFO (43_lfo.md) -/

/-- R182, R185: square LFO, full and half depth, routed to pitch. -/
theorem test_lfo_vibrato :
    lfoVib (patch [(0x09#7, 2#16), (0x0B#7, 0x8000#16), (0x0C#7, 1#16)]) 0 ⟨0#32⟩ = 255 ∧
      lfoVib (patch [(0x09#7, 2#16), (0x0B#7, 0x8000#16), (0x0C#7, 1#16)]) 0 ⟨0x80000000#32⟩ = -256 ∧
      lfoVib (patch [(0x19#7, 0#16), (0x1B#7, 0x4000#16), (0x1C#7, 1#16)]) 1 ⟨0x81000000#32⟩ = -4 := by
  decide

/-- R186 and 95_test_vectors.md section 2.5: sawtooth LFO at depth 0x4000, routed to amplitude. -/
theorem test_lfo_tremolo :
    lfoTrem (patch [(0x19#7, 1#16), (0x1B#7, 0x4000#16), (0x1C#7, 2#16)]) 1 ⟨0#32⟩ = 16384 ∧
      lfoTrem (patch [(0x19#7, 1#16), (0x1B#7, 0x4000#16), (0x1C#7, 2#16)]) 1 ⟨178956#32⟩ = 16385 ∧
      lfoTrem (patch [(0x29#7, 2#16), (0x2B#7, 0x8000#16), (0x2C#7, 2#16)]) 2 ⟨0x80000000#32⟩ = 1 := by
  decide

/-- R183. -/
theorem test_lfo_rate :
    lfoInc 1#16 = 349 ∧ lfoInc 0x0500#16 = 447390 ∧ lfoInc 0x0640#16 = 559237 ∧
      lfoInc 0xFFFF#16 = 22906018 := by decide

/-! ### Envelope (42_envelope.md) -/

/-- R163's example. -/
theorem test_key_on :
    envKeyOn (patch [(0x04#7, 1#16), (0x05#7, 1#16), (0x06#7, 2#16), (0x07#7, 0x4000#16), (0x08#7, 1#16)])
      0 Env.reset = { adsr .attack 0 with decR := 0#32 } := by decide

/-- R163: attack 65535 ms, and a disabled envelope keyed on at its present level. -/
theorem test_key_on_long_and_disabled :
    (envKeyOn (patch [(0x24#7, 9#16), (0x25#7, 0xFFFF#16)]) 2 Env.reset).incA = 683#32 ∧
      envKeyOn (patch []) 1 (adsr .sustain 5) =
        { adsr .attack 5 with
          incA := 0x80000000#32, sTarget := 0x80000000#32, decD := 0#32, nR := 1#22 } := by decide

/-- R164's example. -/
theorem test_key_off :
    envKeyOff { adsr .sustain 1073741824 with decR := 0#32 } = adsr .release 1073741824 := by decide

/-- R171, attack: ticks 1 and 48. -/
theorem test_attack :
    envTick (adsr .attack 0) = adsr .attack 44739243 ∧
      envTick (adsr .attack 2102744421) = adsr .decay 2147483648 ∧
      envOut (adsr .attack 2102744421) = 32085 := by decide

/-- R171, decay: ticks 49 and 144. -/
theorem test_decay :
    envTick (adsr .decay 2147483648) = adsr .decay 2136298837 ∧
      envTick (adsr .decay 1084926603) = adsr .sustain 1073741824 := by decide

/-- R171, release: ticks 1 and 48 after the key-off. -/
theorem test_release :
    envTick (adsr .release 1073741824) = adsr .release 1051372202 ∧
      envTick (adsr .release 22369590) = adsr .idle 0 := by decide

/-! ### Filter (44_filter.md) -/

/-- R198, R199. -/
theorem test_filter_coefficients :
    fltCoeff 0 = 30 ∧ fltCoeff 15360 = 1118 ∧ fltCoeff 23808 = 7528 ∧ fltCoeff 29952 = 29130 ∧
      fltDamping 0#16 = 24576 ∧ fltDamping 0x2000#16 = 18560 ∧ fltDamping 0x7FFF#16 = 513 ∧
      fltDamping 0xFFFF#16 = 512 := by decide

/-- The cutoff modulation of 95_test_vectors.md section 2.6. -/
theorem test_filter_cutoff :
    fltPitch (patch [(0x31#7, 17664#16)]) 0 { Flt.reset with cEnvDepth := 0x1800#16 } 16384 = 20736 ∧
      fltPitch (patch [(0x39#7, 1000#16)]) 1 { Flt.reset with cEnvDepth := 0xE800#16 } 32768 = 0 ∧
      fltPitch (patch [(0x31#7, 0xFFFF#16)]) 0 Flt.reset 0 = 29952 := by decide

/-- R201: the second tick of the step response, in all three types. -/
theorem test_filter_step_response :
    fltAdvance (patch [(0x31#7, 23808#16)]) 0 ⟨0#32, 588125#32, 1#16, 0#16⟩ 10000 0 =
        ⟨135113#32, 942539#32, 1#16, 0#16⟩ ∧
      fltOut (patch [(0x31#7, 23808#16)]) 0 ⟨0#32, 588125#32, 1#16, 0#16⟩ 10000 0 = 527 ∧
      fltOut (patch [(0x31#7, 23808#16)]) 0 ⟨0#32, 588125#32, 2#16, 0#16⟩ 10000 0 = 6026 ∧
      fltOut (patch [(0x31#7, 23808#16)]) 0 ⟨0#32, 588125#32, 3#16, 0#16⟩ 10000 0 = 3681 := by decide

/-- R203: saturation of the band signal at its first tick, and a type word that is off (R196). -/
theorem test_filter_saturation_and_bypass :
    (fltAdvance (patch [(0x31#7, 29952#16), (0x32#7, 0x8000#16)]) 0 ⟨0#32, 1909063452#32, 1#16, 0#16⟩
        8388607 0).band = 2147483647#32 ∧
      fltOut (patch []) 1 ⟨5#32, 6#32, 4#16, 0#16⟩ (-43407) 0 = -43407 ∧
      fltAdvance (patch []) 1 ⟨5#32, 6#32, 4#16, 0#16⟩ 1 0 = ⟨5#32, 6#32, 4#16, 0#16⟩ := by decide

/-! ### Noise, sum and output (45_voice_mix.md) -/

/-- R218. -/
theorem test_noise :
    noiseSample 0xACE1#16 = -21279 ∧ noiseNext 0xACE1#16 = 0xE270#16 ∧
      noiseNext 0xE270#16 = 0x7138#16 ∧ noiseNext 0x0E27#16 = 0xB313#16 ∧
      noiseSample 0x8000#16 = -32767 := by decide

/-- R224. -/
theorem test_output_stage :
    outputStage 25600#16 0#16 0x8000#16 (-43407) = -32767 ∧
      outputStage 25600#16 0#16 0x8000#16 (-35952) = -28088 ∧
      outputStage 0x8000#16 4096#16 0x8000#16 10000 = 20000 ∧
      outputStage 0x8000#16 0xFFFF#16 0x8000#16 10000 = 32767 ∧
      outputStage 0x4000#16 0#16 0x4000#16 10000 = 2500 ∧
      outputStage 0x4000#16 0#16 0x8000#16 (-1) = -1 := by decide

/-- The machine of R229 before its first tick. -/
def noisy : State :=
  beginBlock 0#16 4#13 { State.reset with
    regs := startRegs 69#7 100#8 8192#14 { Regs.reset with
      pa := patch [(0x00#7, 1#16), (0x03#7, 0x8000#16), (0x41#7, 0x4000#16), (0x43#7, 0x8000#16)] } }

/-- R229, tick 1: the mix, the sample, the buffer word. -/
theorem test_worked_tick :
    tickNz noisy.regs = -10640 ∧ tickMix noisy.regs = -43407 ∧ tickOut noisy.regs = -32767 ∧
      (renderTick noisy).buffer.readWord 0#16 = 0xFFFF8001#32 ∧
      ((renderTick noisy).regs.osc.get 0).phase = 39370533#32 ∧
      (renderTick noisy).regs.lfsr = 0xE270#16 := by decide +kernel

/-- R221 and 95_test_vectors.md section 2.6: the first tick of both topologies. -/
theorem test_routing :
    tickY { noisy.regs with
        osc := ⟨oscAt 2#16 0x4000#16 0#32, Osc.reset, Osc.reset⟩
        flt := ⟨⟨0#32, 0#32, 1#16, 0#16⟩, ⟨0#32, 0#32, 2#16, 0#16⟩⟩
        pa := patch [(0x31#7, 23808#16), (0x39#7, 23808#16), (0x40#7, 1#16)] } = 8191 ∧
      tickY { noisy.regs with
        osc := ⟨oscAt 2#16 0x4000#16 0#32, Osc.reset, Osc.reset⟩
        flt := ⟨⟨0#32, 0#32, 1#16, 0#16⟩, ⟨0#32, 0#32, 2#16, 0#16⟩⟩
        pa := patch [(0x31#7, 23808#16), (0x39#7, 23808#16)] } = 0 := by decide +kernel

/-- R226 and 20_memory.md R82: two accumulations, and one that wraps (95_test_vectors.md P3). -/
theorem test_accumulate :
    (Memory.accumulate (Memory.writeWord [] 9#16 0xFFFF8001#32) 9#16 (-32767)).readWord 9#16 =
        0xFFFF0002#32 ∧
      (Memory.accumulate (Memory.writeWord [] 9#16 5#32) 9#16 (-7)).readWord 9#16 = 0xFFFFFFFE#32 ∧
      (Memory.accumulate (Memory.writeWord [] 0#16 0x7FFFFFFF#32) 0#16 15).readWord 0#16 =
        0x8000000E#32 := by decide

/-- 20_memory.md R80, log 1 and log 2: writing 0 leaves the canonical empty buffer, the last word is
in the space. -/
theorem test_buffer_canonical :
    Memory.writeWord (Memory.writeWord [] 65535#16 7#32) 65535#16 0#32 = [] ∧
      Memory.wf (Memory.writeWord [] 65535#16 0x01000007#32) = true ∧
      Memory.wf [(262144, 1#8)] = false ∧ Memory.wf [(3, 1#8), (3, 2#8)] = false ∧
      Memory.wf [(3, 0#8)] = false := by decide

/-! ### Commands, one step each (40_commands.md; 95_test_vectors.md section 2.8) -/

/-- What a test looks at after a step: the STATUS word and the count of events. -/
def seen (o : Host.Outcome State Fault Refusal) : Option (Word × Nat) :=
  match o with
  | .next t => some (statusWord t.regs, t.noteCleared)
  | _ => none

/-- A register of the machine after a step. -/
def after {α : Type} (f : Regs → α) (o : Host.Outcome State Fault Refusal) : Option α :=
  match o with
  | .next t => some (f t.regs)
  | _ => none

/-- Whether a step leads to that machine. -/
def leadsTo (t : State) (o : Host.Outcome State Fault Refusal) : Bool :=
  match o with
  | .next u => decide (u = t)
  | _ => false

/-- R120. -/
theorem test_nop : leadsTo held (step (facing [.command 0x1FFFFFFF#32] held)) = true := by
  decide +kernel

/-- R121. -/
theorem test_canplay : seen (exec (.canplay 0x55#8) State.reset) = some (0x00000008#32, 0) := by
  decide +kernel

/-- R122's example. -/
theorem test_start : seen (step (State.reset.withFetchWord 32 0x51602000)) = some (0x0008A491#32, 0) := by
  decide +kernel

/-- 95_test_vectors.md section 2.2: the extremes of START's operands. -/
theorem test_start_extremes :
    seen (exec (.start 127#7 255#8 16383#14) State.reset) = some (0x000FE491#32, 0) ∧
      after (fun r => (r.keyLevel, r.bend.toInt)) (exec (.start 127#7 255#8 16383#14) State.reset) =
        some (0x8000#16, 511) ∧
      after (fun r => (r.keyLevel, r.bend.toInt)) (exec (.start 0#7 0#8 0#14) State.reset) =
        some (0#16, -512) := by decide +kernel

/-- R123: the release of a held note. -/
theorem test_stop_tail : seen (exec (.stop 1#1) held) = some (0x0008B242#32, 0) := by decide +kernel

/-- R123: the kill of a held note, and of an IDLE voice. -/
theorem test_stop_kill :
    seen (exec (.stop 0#1) held) = some (0x0008A004#32, 1) ∧
      leadsTo State.reset (exec (.stop 0#1) State.reset) = true := by decide +kernel

/-- R124. -/
theorem test_pwheel :
    after (fun r => r.bend.toInt) (exec (.pwheel 0#14) held) = some (-512) ∧
      after (fun r => r.bend.toInt) (exec (.pwheel 8191#14) held) = some (-1) ∧
      after (fun r => r.bend.toInt) (exec (.pwheel 8207#14) held) = some 0 ∧
      after (fun r => r.bend.toInt) (exec (.pwheel 8208#14) held) = some 1 ∧
      after (fun r => r.bend.toInt) (exec (.pwheel 12288#14) held) = some 256 := by decide +kernel

/-- R125. -/
theorem test_ctrl : after (fun r => r.lastCc) (exec (.ctrl 7#7 100#7) held) = some 996#14 := by
  decide +kernel

/-- R126 (a), (b): an IDLE voice, and a block of no samples. -/
theorem test_render_nothing :
    leadsTo State.reset (step (facing [.command 0xC0200002#32] State.reset)) = true ∧
      leadsTo held (exec (.render 5#16 0#13) held) = true := by decide +kernel

/-- R126: the last tick of a block frees a RELEASING voice whose envelopes are IDLE, with one event, and
RP passes the end of its window (95_test_vectors.md P2's disabled envelopes). -/
theorem test_render_last_tick :
    seen (step (beginBlock 0xFFFF#16 1#13 releasing)) = some (0x0008A004#32, 1) ∧
      after (fun r => (r.rp, r.rc)) (step (beginBlock 0xFFFF#16 1#13 releasing)) =
        some (0#16, 0#13) := by decide +kernel

/-- R127. -/
theorem test_reserved7 : leadsTo held (step (facing [.command 0xE0000001#32] held)) = true := by
  decide +kernel

/-! ### The surroundings, one step each -/

/-- 20_memory.md R84: a parameter write falls between two ticks. -/
theorem test_pset_while_rendering :
    after (fun r => (paRead r.pa 0x7F#7, paRead r.pa 0x7E#7, r.rc))
      (step (facing [.pset 0x7F#7 0xABCD#16] running)) = some (0xABCD#16, 0#16, 3#13) := by
  decide +kernel

/-- 30_encoding.md R118: a listing's parameter write does not take effect while a RENDER runs. -/
theorem test_listed_pset_waits :
    after (fun r => (paRead r.pa 0x43#7, r.rc))
      (step (facing [.await, .pset 0x43#7 0#16] running)) = some (paRead running.regs.pa 0x43#7, 2#13) := by
  decide +kernel

/-- 30_encoding.md R101, log 6: a kill presented during a RENDER waits. -/
theorem test_command_waits :
    after (fun r => (r.vstate, r.rc)) (step (facing [.command 0x60000000#32] running)) =
      some (.sounding, 2#13) := by decide +kernel

/-- 20_memory.md R88, log 6: the three words of the window that crosses address 0, and its
neighbours. -/
theorem test_window :
    inWindow running 0xFFFE#16 = true ∧ inWindow running 0xFFFF#16 = true ∧
      inWindow running 0#16 = true ∧ inWindow running 1#16 = false ∧
      inWindow running 0xFFFD#16 = false := by decide +kernel

/-- 70_reset_and_hazards.md R255. -/
theorem test_reset_abandons_a_render :
    after (fun r => decide (r = Regs.reset)) (step (facing [.reset] running)) = some true := by
  decide +kernel

/-- 60_exceptions.md R248, log 5. -/
theorem test_waiting_keeps_everything : leadsTo held (step held) = true := by decide +kernel

/-! ### Witnesses of the statements' hypotheses -/

theorem test_witness_OpcodeAloneSelectsTheRow :
    (0x1FFFFFFF#32 : Word).toNat / 2 ^ 29 = 0 ∧ (0x20000000#32 : Word).toNat / 2 ^ 29 = 1 ∧
      (0x5FFFFFFF#32 : Word).toNat / 2 ^ 29 = 2 ∧ (0x60000000#32 : Word).toNat / 2 ^ 29 = 3 ∧
      (0x9FFFFFFF#32 : Word).toNat / 2 ^ 29 = 4 ∧ (0xA0000000#32 : Word).toNat / 2 ^ 29 = 5 ∧
      (0xDFFFFFFF#32 : Word).toNat / 2 ^ 29 = 6 ∧ (0xE0000000#32 : Word).toNat / 2 ^ 29 = 7 := by
  decide

theorem test_witness_PseudoCommandsExpand : 127 < 128 ∧ 255 < 256 := by decide

theorem test_witness_ResetPutsEveryRegisterAtItsResetValue :
    (facing [.reset] running).inputs = .reset :: [] ∧ State.reset.regs.vstate = .idle ∧
      step State.reset = .next State.reset := ⟨rfl, rfl, rfl⟩

/-- A RENDER that runs, on a machine that is not the reset one: a step and the invariant. -/
theorem test_witness_EveryStepKeepsTheInvariant :
    running.Inv ∧ step running = .next (unitStep running) :=
  ⟨(State.inv_iff running).2
    ⟨⟨(Env.inv_iff _).2 (by decide), (Env.inv_iff _).2 (by decide), (Env.inv_iff _).2 (by decide)⟩,
      by decide, rfl⟩, rfl⟩

theorem test_witness_StepRunsTheDecodedCommand :
    (facing [.command 0x60000001#32] held).inputs = .command 0x60000001#32 :: [] ∧
      (facing [.command 0x60000001#32] held).regs.rc = 0#13 ∧
      (facing [.command 0x60000001#32] running).inputs = .command 0x60000001#32 :: [] ∧
      (facing [.command 0x60000001#32] running).regs.rc ≠ 0#13 := by decide

theorem test_witness_RunningRenderEndsAfterItsTicks :
    running.inputs = [] ∧ 3 ≤ running.regs.rc.toNat := ⟨rfl, by decide⟩

theorem test_witness_PsetWritesOneWholeWord :
    (facing [.pset 127#7 0xFFFF#16] running).inputs = .pset 127#7 0xFFFF#16 :: [] := rfl

/-- A write of a stored word between the two machines. -/
theorem test_witness_StoredWordsHaveNoEffect :
    sameBut (fun c => c == .stored) running.regs (psetStep 0x44#7 5#16 running).regs ∧
      { psetStep 0x44#7 5#16 running with regs := running.regs } = running ∧
      (psetStep 0x44#7 5#16 running).regs ≠ running.regs := by
  refine ⟨⟨fun k hk => ?_, rfl⟩, rfl, fun h => ?_⟩
  · have hne : k ≠ 0x44#7 := by
      rintro rfl
      exact absurd hk (by decide)
    simp [hne]
  · have h44 := congrArg (fun r : Regs => paRead r.pa 0x44#7) h
    simp only [psetStep_regs, paRead_paWrite] at h44
    exact absurd h44 (by decide)

/-- A stored, a latched and a cached word. -/
theorem test_witness_TicksReadLiveWordsOnly :
    readClass 0x7F#7 ≠ .live ∧ readClass 0x04#7 ≠ .live ∧ readClass 0x3B#7 ≠ .live := by decide

theorem test_witness_LatchedWordsAreReadByStartOnly :
    readClass 0x28#7 = .latched ∧
      (∀ note vel pw, (Instr.render 7#16 8191#13) ≠ .start note vel pw) ∧
      exec (.render 7#16 8191#13) sounding = .next (beginBlock 7#16 8191#13 sounding) :=
  ⟨by decide, fun _ _ _ h => (by cases h), rfl⟩

theorem test_witness_AccumulateAddsModuloTwoTo32 :
    Memory.wf (Memory.writeWord [] 3#16 0xFFFFFFFF#32) = true ∧ (-32767 : Int) ≤ 32767 ∧
      Memory.wf [] = true ∧ Memory.readWord [] 65535#16 = 0#32 ∧
      (List.replicate 65538 (32767 : Int)).length ≤ 65538 ∧
      ∀ x ∈ List.replicate 65538 (32767 : Int), -32767 ≤ x ∧ x ≤ 32767 := by
  refine ⟨by decide, by decide, rfl, rfl, List.length_replicate.le, fun x hx => ?_⟩
  rw [List.eq_of_mem_replicate hx]
  decide

theorem test_witness_VoicesSumInAnyOrder : Memory.wf (Memory.writeWord [] 3#16 7#32) = true := by decide

/-- Not rendering; rendering and outside the window; rendering and on its first and last word. -/
theorem test_witness_BufferOwnerWritesOutsideARunningWindow :
    (facing [.bufferWrite 0#16 7#32] held).inputs = .bufferWrite 0#16 7#32 :: [] ∧
      (facing [.bufferWrite 0#16 7#32] held).buffer.wf = true ∧
      (facing [.bufferWrite 0#16 7#32] held).regs.rc = 0#13 ∧
      inWindow (facing [.bufferWrite 1#16 7#32] running) 1#16 = false ∧
      (facing [.bufferWrite 0#16 7#32] running).regs.rc ≠ 0#13 ∧
      inWindow (facing [.bufferWrite 0#16 7#32] running) 0#16 = true ∧
      inWindow (facing [.bufferWrite 0xFFFE#16 7#32] running) 0xFFFE#16 = true := by decide +kernel

theorem test_witness_NopAndReservedOpcodeChangeNothing :
    opcodeOf 0x1FFFFFFF#32 = 0#3 ∧ opcodeOf 0xE0000000#32 = 7#3 := by decide

/-- The answer given, and then a STOP. -/
theorem test_witness_CanplayAnswersTrue :
    ∃ t, step (facing [.command 0x60000001#32] { held with regs := { held.regs with resp := true } }) =
        .next t ∧
      (∀ rest, [Input.command 0x60000001#32] ≠ .reset :: rest) ∧
      (facing [.command 0x60000001#32] { held with regs := { held.regs with resp := true } }).regs.resp
        = true :=
  ⟨_, rfl, fun _ h => (by cases h), rfl⟩

theorem test_witness_PwheelWritesBendOnly :
    exec (.pwheel 8191#14) held = .next { held with regs := { held.regs with bend := bendOf 8191#14 } } :=
  rfl

theorem test_witness_StartRetriggersAnIdleVoiceOnly :
    State.reset.regs.vstate = .idle ∧ running.regs.vstate ≠ .idle := by decide

theorem test_witness_StopWithTailReleases :
    releasing.regs.vstate ≠ .sounding ∧ held.regs.vstate = .sounding := by decide

theorem test_witness_StopWithoutTailKills :
    releasing.regs.vstate ≠ .idle ∧ State.reset.regs.vstate = .idle ∧ State.reset.Inv :=
  ⟨by decide, by decide, (State.inv_iff State.reset).2
    ⟨⟨(Env.inv_iff _).2 (by decide), (Env.inv_iff _).2 (by decide), (Env.inv_iff _).2 (by decide)⟩,
      by decide, rfl⟩⟩

theorem test_witness_RenderBeginsABlock :
    State.reset.regs.vstate = .idle ∧ held.regs.vstate ≠ .idle ∧ (8191#13 : BitVec 13) ≠ 0#13 ∧
      (0#13 : BitVec 13) = 0#13 := by decide

theorem test_witness_RenderRunsItsLoopToTheEnd :
    (facing [.command (encode (.render 65535#16 8191#13))] held).regs.rc = 0#13 ∧
      (facing [.command (encode (.render 65535#16 8191#13))] held).inputs =
        [.command (encode (.render 65535#16 8191#13))] := ⟨by decide, rfl⟩

theorem test_witness_RenderAddsEachSampleOnce :
    (facing [.command (encode (.render 65535#16 8191#13))] held).regs.rc = 0#13 ∧
      (facing [.command (encode (.render 65535#16 8191#13))] held).buffer.wf = true ∧
      (facing [.command (encode (.render 65535#16 8191#13))] held).regs.vstate ≠ .idle ∧
      (8191#13 : BitVec 13) ≠ 0#13 ∧
      (facing [.command (encode (.render 65535#16 8191#13))] held).inputs =
        [.command (encode (.render 65535#16 8191#13))] ∧
      8190 < (8191#13 : BitVec 13).toNat ∧
      (8191#13 : BitVec 13).toNat ≤ ((65534#16 : BitVec 16) - 65535#16).toNat :=
  ⟨by decide, rfl, by decide, by decide, rfl, by decide, by decide⟩

/-- A first block that leaves the envelopes running, and one that ends the voice; together 8191
ticks. -/
theorem test_witness_BlockBoundariesAreInvisible :
    held.regs.vstate ≠ .idle ∧ releasing.regs.vstate ≠ .idle ∧ (1#13 : BitVec 13) ≠ 0#13 ∧
      (8190#13 : BitVec 13) ≠ 0#13 ∧ (1#13 : BitVec 13).toNat + (8190#13 : BitVec 13).toNat ≤ 8191 ∧
      allEnvIdle (renderWhole 0#16 1#13 held).regs = false ∧
      allEnvIdle (renderWhole 0#16 1#13 releasing).regs = true := by decide +kernel

/-- A RELEASING voice in its last tick. -/
theorem test_releasing_inv : (beginBlock 0#16 1#13 releasing).Inv :=
  (State.inv_iff _).2
    ⟨⟨(Env.inv_iff _).2 (by decide), (Env.inv_iff _).2 (by decide), (Env.inv_iff _).2 (by decide)⟩,
      by decide, rfl⟩

/-- Waiting; a SOUNDING voice; a RELEASING one that ends with this tick, and one that does not. -/
theorem test_witness_VoiceStateFollowsTheTable :
    held.regs.rc = 0#13 ∧ running.Inv ∧ running.regs.rc ≠ 0#13 ∧ running.regs.vstate = .sounding ∧
      (beginBlock 0#16 1#13 releasing).Inv ∧
      (beginBlock 0#16 1#13 releasing).regs.vstate = .releasing ∧
      (beginBlock 0#16 1#13 releasing).regs.rc = 1#13 ∧
      (∀ i, (envTick ((beginBlock 0#16 1#13 releasing).regs.env.get i)).stage = .idle) ∧
      (beginBlock 0#16 2#13 releasing).regs.rc ≠ 1#13 :=
  ⟨by decide, test_witness_EveryStepKeepsTheInvariant.1, by decide, by decide, test_releasing_inv,
    by decide, by decide, by decide, by decide⟩

theorem test_witness_IdleVoiceChangesNothing :
    State.reset.Inv ∧ State.reset.regs.vstate = .idle ∧
      ∀ note vel pw, (Instr.render 0#16 8191#13) ≠ .start note vel pw :=
  ⟨test_witness_StopWithoutTailKills.2.2, by decide, fun _ _ _ h => (by cases h)⟩

/-- The last tick of a RELEASING voice, with its event. -/
theorem test_witness_NoteClearedExactlyWhenTheVoiceIsFreed :
    (beginBlock 0#16 1#13 releasing).Inv ∧
      step (beginBlock 0#16 1#13 releasing) = .next (unitStep (beginBlock 0#16 1#13 releasing)) ∧
      (∀ rest, (beginBlock 0#16 1#13 releasing).inputs ≠ .reset :: rest) ∧
      (unitStep (beginBlock 0#16 1#13 releasing)).noteCleared
        ≠ (beginBlock 0#16 1#13 releasing).noteCleared ∧
      (facing [.reset] releasing).inputs = .reset :: [] :=
  ⟨test_releasing_inv, rfl, fun _ h => (by cases h), by decide +kernel, rfl⟩

theorem test_witness_WaveSelectsAndStaysInRange :
    (0#16 : Param) ≠ 1#16 ∧ (0#16 : Param) ≠ 2#16 ∧ (0#16 : Param) ≠ 3#16 ∧
      (4#16 : Param) ≠ 1#16 ∧ (4#16 : Param) ≠ 2#16 ∧ (4#16 : Param) ≠ 3#16 := by decide

theorem test_witness_SawSquareTriangleFromTheTopBits :
    (0x7FFFFFFF#32 : Word).toNat / 65536 < 32768 ∧ 32768 ≤ (0x80000000#32 : Word).toNat / 65536 := by
  decide

theorem test_witness_SineInterpolatesTheQuarterTable :
    (0x3FFFFFFF#32 : Word).toNat / 1073741824 = 0 ∧ (0x40000000#32 : Word).toNat / 1073741824 = 1 ∧
      (0xBFFFFFFF#32 : Word).toNat / 1073741824 = 2 ∧
      (0xC0000000#32 : Word).toNat / 1073741824 = 3 := by decide

theorem test_witness_PitchIncrementIsClampedAndTuned :
    11 < 12 ∧ 0 < 12 ∧ 33791 ≤ 33791 ∧ 0 ≤ 33791 := by decide

theorem test_witness_OscillatorPhaseAdvancesByThePresentPitch :
    -512 ≤ ({ held.regs with bend := bendOf 0#14 } : Regs).bend.toInt ∧
      ({ held.regs with bend := bendOf 16383#14 } : Regs).bend.toInt ≤ 511 := by decide

theorem test_witness_NoteSixtyNineIsFourHundredFortyHertz :
    Osc.reset.cOct = 0#16 ∧ Osc.reset.cSemi = 0#16 := by decide

theorem test_witness_UnroutedOrZeroDepthLfoDoesNothing :
    paRead (patch [(0x0C#7, 3#16)]) (lfoDestIdx 0) ≠ 1#16 ∧
      paRead (patch [(0x0C#7, 3#16)]) (lfoDestIdx 0) ≠ 2#16 ∧
      paRead (patch [(0x2C#7, 2#16)]) (lfoDepthIdx 2) = 0#16 := by decide +kernel

theorem test_witness_KeyOnLatchesTheEnvelopeWords :
    (paRead (patch [(0x24#7, 1#16)]) (BitVec.ofNat 7 (16 * 2 + 4))).toNat ≠ 0 ∧
      (paRead (patch []) (BitVec.ofNat 7 (16 * 0 + 4))).toNat = 0 := by decide +kernel

/-- Every stage, full and empty levels. -/
theorem test_witness_KeyOffLatchesTheReleaseStep :
    (adsr .attack 0).Inv ∧ (adsr .attack 0).level = 0#32 ∧ (adsr .sustain 2147483648).Inv ∧
      (adsr .release 1).Inv ∧ (adsr .idle 0).Inv := by
  refine ⟨?_, by decide, ?_, ?_, ?_⟩ <;> exact (Env.inv_iff _).2 (by decide)

/-- Both sides of every threshold. -/
theorem test_witness_EnvelopeTickFollowsItsStage :
    (adsr .attack 2102744405).Inv ∧
      2147483648 ≤ (adsr .attack 2102744405).level.toNat + (adsr .attack 2102744405).incA.toNat ∧
      (adsr .attack 2102744404).level.toNat + (adsr .attack 2102744404).incA.toNat < 2147483648 ∧
      (adsr .decay 1084926635).Inv ∧
      (adsr .decay 1084926635).level.toNat
        ≤ (adsr .decay 1084926635).sTarget.toNat + (adsr .decay 1084926635).decD.toNat ∧
      (adsr .decay 1084926636).sTarget.toNat + (adsr .decay 1084926636).decD.toNat
        < (adsr .decay 1084926636).level.toNat ∧
      (adsr .release 22369622).Inv ∧
      (adsr .release 22369622).level.toNat ≤ (adsr .release 22369622).decR.toNat ∧
      (adsr .release 22369623).decR.toNat < (adsr .release 22369623).level.toNat ∧
      (adsr .sustain 5).stage = .sustain ∧ (adsr .idle 0).stage = .idle := by
  refine ⟨?_, by decide, by decide, ?_, by decide, by decide, ?_, by decide, by decide, by decide,
    by decide⟩ <;> exact (Env.inv_iff _).2 (by decide)

theorem test_witness_ReleaseEndsWithinTheReleaseTime :
    (adsr .sustain 1073741824).Inv ∧ (adsr .sustain 1073741824).stage = .sustain ∧
      0 < (adsr .sustain 1073741824).level.toNat ∧ (adsr .attack 0).Inv ∧
      (adsr .attack 0).stage = .attack ∧ (adsr .attack 0).level.toNat = 0 := by
  refine ⟨?_, by decide, by decide, ?_, by decide, by decide⟩ <;> exact (Env.inv_iff _).2 (by decide)

theorem test_witness_AttackAndDecayEndInTime :
    (adsr .attack 0).Inv ∧ (adsr .attack 0).stage = .attack ∧ (adsr .attack 0).level = 0#32 ∧
      (adsr .attack 0).incA ≠ 0#32 ∧ (adsr .attack 0).incA.toNat = ceilDiv 2147483648 48 ∧
      (adsr .decay 2147483648).Inv ∧ (adsr .decay 2147483648).stage = .decay ∧
      (adsr .decay 2147483648).level.toNat = 2147483648 ∧
      (adsr .decay 2147483648).decD.toNat =
        ceilDiv (2147483648 - (adsr .decay 2147483648).sTarget.toNat) 96 := by
  refine ⟨?_, by decide, by decide, by decide, by decide, ?_, by decide, by decide, by decide⟩ <;>
    exact (Env.inv_iff _).2 (by decide)

theorem test_witness_DisabledEnvelopeIsAGate :
    paRead (patch []) (envEnableIdx 2) = 0#16 ∧ Env.reset.level = 0#32 ∧
      sounding.regs.env.get 2 = envTick^[0] (envKeyOn (patch []) 2 Env.reset) := by decide +kernel

theorem test_witness_FilterTickFollowsItsEquations :
    ({ Flt.reset with cType := 3#16 } : Flt).cType = 3#16 ∧ Flt.reset.cType ≠ 1#16 ∧
      Flt.reset.cType ≠ 2#16 ∧ Flt.reset.cType ≠ 3#16 := by decide

theorem test_witness_FilterKeepsItsSignalRange :
    (-8388608 : Int) ≤ -8388608 ∧ (-8388608 : Int) ≤ 8388607 ∧ (8388607 : Int) ≤ 8388607 := by decide

/-- The two topologies, and both filters off. -/
theorem test_witness_BypassedFiltersPassTheMix :
    paRead (psetStep 0x40#7 1#16 running).regs.pa 0x40#7 = 1#16 ∧
      paRead running.regs.pa 0x40#7 ≠ 1#16 ∧
      ∀ f, (running.regs.flt.get f).cType ≠ 1#16 ∧ (running.regs.flt.get f).cType ≠ 2#16 ∧
        (running.regs.flt.get f).cType ≠ 3#16 := by decide +kernel

theorem test_witness_NoiseRegisterSteps :
    (0xE270#16 : BitVec 16).toNat % 2 = 0 ∧ running.regs.lfsr.toNat % 2 = 1 ∧
      running.regs.lfsr ≠ 0#16 ∧ running.regs.lfsr ≠ 0x8000#16 ∧
      ({ running.regs with lfsr := 0x8000#16 } : Regs).lfsr = 0x8000#16 := by decide

/-- A machine whose envelopes are all silent. -/
theorem test_witness_MixIsBoundedAndSilentWithTheEnvelopes :
    running.regs.Inv ∧ State.reset.regs.Inv ∧ ∀ i, tickE State.reset.regs i = 0 :=
  ⟨test_witness_EveryStepKeepsTheInvariant.1.regs, test_witness_StopWithoutTailKills.2.2.regs,
    by decide⟩

theorem test_witness_OutputSampleIsClipped :
    paRead (patch []) 0x43#7 = 0#16 ∧ State.reset.regs.keyLevel = 0#16 ∧
      held.regs.keyLevel = 0x8000#16 ∧ paRead (patch [(0x43#7, 0x8000#16)]) 0x42#7 = 0#16 ∧
      paRead (patch [(0x43#7, 0x8000#16)]) 0x43#7 = 0x8000#16 := by decide +kernel

theorem test_witness_TickWritesExactly :
    running.buffer.wf = true ∧ fltOn (running.regs.flt.get 1) = false := by decide +kernel

/-- The rule's example: note 69 held, after a CANPLAY. -/
theorem test_witness_StatusWordShowsItsFields :
    held.regs.vstate = .sounding ∧ held.regs.cleared = false ∧
      ({ held.regs with resp := true } : Regs).resp = true ∧
      (∀ i, (held.regs.env.get i).stage = .sustain) ∧ held.regs.note = 69#7 := by decide

/-- A wait during a RENDER and after one; the two listings, with operands at the ends of their
ranges. -/
theorem test_witness_ListedWritesFallBetweenTheirCommands :
    (facing [.await] running).inputs = .await :: [] ∧ (facing [.await] running).regs.rc ≠ 0#13 ∧
      (facing [.await] held).inputs = .await :: [] ∧ held.regs.rc = 0#13 ∧
      65535 < 65536 ∧ 8191 < 8192 ∧ 127 < 128 ∧
      assembleAll [.render 65535 8191, .pset 127 65535] =
        some (facing [.command 0xDFFFFFFF#32, .await, .pset 127#7 0xFFFF#16] held).inputs ∧
      assembleAll [.pset 127 65535, .render 65535 8191] =
        some (facing [.await, .pset 127#7 0xFFFF#16, .command 0xDFFFFFFF#32] held).inputs := by decide

end Sys2Proof.Tests
end

section
/-! PROOF. The STATUS word (10_state.md R76): one lemma per row of the rule's table, which skips the
fields below the row's own, and the two values the rule states. -/

namespace Sys2Proof.Machine

@[simp] theorem statusWord_vstate (r : Regs) :
    (statusWord r).extractLsb' 0 2 = r.vstate.code :=
  BitVec.extractLsb'_append_eq_right

@[simp] theorem statusWord_cleared (r : Regs) :
    (statusWord r).extractLsb' 2 1 = BitVec.ofBool r.cleared := by
  unfold statusWord
  rw [BitVec.extractLsb'_append_eq_of_le (by decide)]
  exact BitVec.extractLsb'_append_eq_right

@[simp] theorem statusWord_resp (r : Regs) :
    (statusWord r).extractLsb' 3 1 = BitVec.ofBool r.resp := by
  unfold statusWord
  iterate 2 rw [BitVec.extractLsb'_append_eq_of_le (by decide)]
  exact BitVec.extractLsb'_append_eq_right

/-- The stage codes lie side by side from bit 4 on, three bits for each envelope. -/
theorem statusWord_envStage (r : Regs) (i : Fin 3) :
    (statusWord r).extractLsb' (4 + 3 * i) 3 = (r.env.get i).stage.code := by
  unfold statusWord
  iterate 3 rw [BitVec.extractLsb'_append_eq_of_le (by omega)]
  match i with
  | 0 => exact BitVec.extractLsb'_append_eq_right
  | 1 =>
    rw [BitVec.extractLsb'_append_eq_of_le (by decide)]
    exact BitVec.extractLsb'_append_eq_right
  | 2 =>
    iterate 2 rw [BitVec.extractLsb'_append_eq_of_le (by decide)]
    exact BitVec.extractLsb'_append_eq_right

@[simp] theorem statusWord_note (r : Regs) : (statusWord r).extractLsb' 13 7 = r.note := by
  unfold statusWord
  iterate 6 rw [BitVec.extractLsb'_append_eq_of_le (by decide)]
  exact BitVec.extractLsb'_append_eq_right

@[simp] theorem statusWord_unusedBits (r : Regs) :
    (statusWord r).extractLsb' 20 12 = 0#12 := by
  unfold statusWord
  iterate 6 rw [BitVec.extractLsb'_append_eq_of_le (by decide)]
  exact BitVec.extractLsb'_append_eq_left

@[simp] theorem statusWord_reset : statusWord Regs.reset = 0x00000000#32 := by decide

/-- The example of 10_state.md R76: a sounding voice with all envelopes in SUSTAIN, after a CANPLAY. -/
theorem statusWord_of_held_note (r : Regs) (hvstate : r.vstate = .sounding)
    (hcleared : r.cleared = false) (hresp : r.resp = true)
    (hstage : ∀ i, (r.env.get i).stage = .sustain) (hnote : r.note = 69#7) :
    statusWord r = 0x0008ADB9#32 := by
  have h0 : r.env.x0.stage = .sustain := hstage 0
  have h1 : r.env.x1.stage = .sustain := hstage 1
  have h2 : r.env.x2.stage = .sustain := hstage 2
  unfold statusWord
  rw [hvstate, hcleared, hresp, h0, h1, h2, hnote]
  decide

/-- Settles O59: each field by its row's lemma, the codes by definition. -/
theorem statusWordShowsItsFields : Obligations.StatusWordShowsItsFields := by
  unfold Obligations.StatusWordShowsItsFields
  refine ⟨⟨rfl, rfl, rfl, rfl, rfl, rfl, rfl, rfl⟩, statusWord_of_held_note, fun r => ?_⟩
  exact ⟨statusWord_vstate r, statusWord_cleared r, statusWord_resp r, statusWord_envStage r 0,
    statusWord_envStage r 1, statusWord_envStage r 2, statusWord_note r, statusWord_unusedBits r,
    statusWord_reset⟩

end Sys2Proof.Machine
end

section
/-! PROOF. The accumulate (20_memory.md R82). Two canonical buffers that hold the same words are the
same buffer, so that what an accumulate does to every word says what it does. -/

namespace Sys2Proof.Machine

/-- Past the last word a canonical memory lists no cell (20_memory.md R80). -/
theorem Memory.readByte_of_cells_le {lo : Nat} {m : Memory} (h : Memory.wfFrom lo m = true)
    {a : Nat} (ha : Memory.cells ≤ a) : m.readByte a = Memory.unlisted := by
  induction m generalizing lo with
  | nil => rfl
  | cons c m ih =>
    obtain ⟨-, hc, -, hm⟩ := Memory.wfFrom_cons.1 h
    rw [Memory.readByte, if_neg (by omega)]
    exact ih hm

/-- A cell of a word is the byte of the word at its place, the lowest byte first (log 2). -/
theorem Memory.readByte_cellOf (m : Memory) (addr : BitVec 16) {k : Nat} (hk : k < 4) :
    m.readByte (cellOf addr + k) = (m.readWord addr).extractLsb' (8 * k) 8 := by
  symm
  unfold Memory.readWord
  match k with
  | 0 => exact BitVec.extractLsb'_append_eq_right
  | 1 =>
    rw [BitVec.extractLsb'_append_eq_of_le (by decide)]
    exact BitVec.extractLsb'_append_eq_right
  | 2 =>
    iterate 2 rw [BitVec.extractLsb'_append_eq_of_le (by decide)]
    exact BitVec.extractLsb'_append_eq_right
  | 3 =>
    iterate 2 rw [BitVec.extractLsb'_append_eq_of_le (by decide)]
    exact BitVec.extractLsb'_append_eq_left

/-- Every cell lies in a word or past the last, so the words of a canonical buffer determine it. -/
theorem Memory.ext_of_readWord {m m' : Memory} (h : m.wf = true) (h' : m'.wf = true)
    (he : ∀ addr, m.readWord addr = m'.readWord addr) : m = m' := by
  refine Memory.ext_of_wf h h' fun a => ?_
  rcases Nat.lt_or_ge a Memory.cells with ha | ha
  · have hcell : a = cellOf (BitVec.ofNat 16 (a / 4)) + a % 4 := by
      unfold Memory.cells at ha
      rw [cellOf, BitVec.toNat_ofNat]
      omega
    have hk : a % 4 < 4 := Nat.mod_lt a (by decide)
    rw [hcell, Memory.readByte_cellOf m _ hk, Memory.readByte_cellOf m' _ hk, he]
  · rw [Memory.readByte_of_cells_le h ha, Memory.readByte_of_cells_le h' ha]

/-- Every word after an accumulate: the sample is added to the word at `addr`, 0 to the others. -/
theorem Memory.readWord_accumulate {m : Memory} (h : m.wf = true) (addr b : BitVec 16) (out : Int) :
    (m.accumulate addr out).readWord b =
      m.readWord b + if b = addr then BitVec.ofInt 32 out else 0#32 := by
  split
  · next hb => rw [hb, Memory.readWord_accumulate_same h]
  · next hb => rw [Memory.readWord_accumulate_other h hb, BitVec.add_zero]

theorem Memory.toNat_readWord_accumulate {m : Memory} (h : m.wf = true) (addr : BitVec 16)
    (out : Int) :
    (((m.accumulate addr out).readWord addr).toNat : Int) =
      (((m.readWord addr).toNat : Int) + out) % 4294967296 := by
  rw [Memory.readWord_accumulate_same h, BitVec.toNat_add, BitVec.toNat_ofInt]
  omega

/-- A zero sample is accumulated like any other, and the canonical form lets the write not show. -/
theorem Memory.accumulate_zero {m : Memory} (h : m.wf = true) (addr : BitVec 16) :
    m.accumulate addr 0 = m := by
  refine Memory.ext_of_readWord (Memory.accumulate_wf h addr 0) h fun b => ?_
  rw [Memory.readWord_accumulate h, show BitVec.ofInt 32 0 = 0#32 from rfl, ite_self,
    BitVec.add_zero]

/-- Two accumulates commute, into one word or into two. -/
theorem Memory.accumulate_comm {m : Memory} (h : m.wf = true) (a b : BitVec 16) (x y : Int) :
    (m.accumulate a x).accumulate b y = (m.accumulate b y).accumulate a x := by
  have ha := Memory.accumulate_wf h a x
  have hb := Memory.accumulate_wf h b y
  refine Memory.ext_of_readWord (Memory.accumulate_wf ha b y) (Memory.accumulate_wf hb a x)
    fun c => ?_
  rw [Memory.readWord_accumulate ha, Memory.readWord_accumulate h, Memory.readWord_accumulate hb,
    Memory.readWord_accumulate h, add_right_comm]

/-- Accumulates into one word add the sum of their samples, modulo 2^32. -/
theorem Memory.readWord_foldl_accumulate {m : Memory} (h : m.wf = true) (addr : BitVec 16)
    (outs : List Int) :
    (outs.foldl (fun n x => n.accumulate addr x) m).readWord addr =
      m.readWord addr + BitVec.ofInt 32 outs.sum := by
  induction outs generalizing m with
  | nil => exact (BitVec.add_zero _).symm
  | cons x xs ih =>
    rw [List.foldl_cons, ih (Memory.accumulate_wf h addr x), Memory.readWord_accumulate_same h,
      List.sum_cons, BitVec.ofInt_add, BitVec.add_assoc]

/-- The sum of `n` samples lies within `n` times the Q15 range. -/
theorem samples_sum_range {outs : List Int} (hx : ∀ x ∈ outs, -32767 ≤ x ∧ x ≤ 32767) :
    -32767 * (outs.length : Int) ≤ outs.sum ∧ outs.sum ≤ 32767 * (outs.length : Int) := by
  have hlo := outs.card_nsmul_le_sum (-32767) fun x h => (hx x h).1
  have hhi := outs.sum_le_card_nsmul 32767 fun x h => (hx x h).2
  rw [nsmul_eq_mul, mul_comm] at hlo hhi
  exact ⟨hlo, hhi⟩

/-- Up to 65538 samples onto a zero word are summed exactly: their sum fits the signed 32-bit word,
65538 * 32767 being 2^31 - 2 (20_memory.md R82). -/
theorem Memory.sext32_foldl_accumulate {m : Memory} (h : m.wf = true) {addr : BitVec 16}
    (hzero : m.readWord addr = 0#32) {outs : List Int} (hlen : outs.length ≤ 65538)
    (hx : ∀ x ∈ outs, -32767 ≤ x ∧ x ≤ 32767) :
    sext32 ((outs.foldl (fun n x => n.accumulate addr x) m).readWord addr) = outs.sum := by
  obtain ⟨hlo, hhi⟩ := samples_sum_range hx
  rw [Memory.readWord_foldl_accumulate h, hzero, BitVec.zero_add]
  exact sext32_ofInt (by omega) (by omega)

/-- Settles O17: what one accumulate does to the words gives the sum, the zero sample and the order,
and an induction over the samples the exact sum. -/
theorem accumulateAddsModuloTwoTo32 : Obligations.AccumulateAddsModuloTwoTo32 := by
  unfold Obligations.AccumulateAddsModuloTwoTo32
  refine ⟨fun m addr out h _ _ => ⟨Memory.toNat_readWord_accumulate h addr out, ?_, ?_⟩,
    fun m a b x y h => Memory.accumulate_comm h a b x y,
    fun m addr outs h hzero hlen hx => Memory.sext32_foldl_accumulate h hzero hlen hx⟩
  · exact fun a ha => Memory.readByte_accumulate h addr out ha
  · rintro rfl
    exact Memory.accumulate_zero h addr

end Sys2Proof.Machine
end

section
/-! PROOF. The command word (30_encoding.md R102 to R112): the opcode selects the row, the encoder
gives back the decoded word with zeros in its reserved bits, and the decoder gives back the encoded
command. -/

namespace Sys2Proof

/-! Fields of a word of any width. -/

theorem extractLsb'_extractLsb' {n : Nat} (w : BitVec n) {start len start' len' : Nat}
    (h : start' + len' ≤ len) :
    (w.extractLsb' start len).extractLsb' start' len' = w.extractLsb' (start' + start) len' := by
  ext i hi
  have hlt : start' + i < len := by omega
  simp [hlt, Nat.add_assoc, Nat.add_left_comm]

theorem extractLsb'_append_append_middle {a b c : Nat} (x : BitVec a) (y : BitVec b)
    (z : BitVec c) : (x ++ y ++ z).extractLsb' c b = y := by
  rw [BitVec.extractLsb'_append_eq_of_le c.le_refl, Nat.sub_self,
    BitVec.extractLsb'_append_eq_right]

theorem and_ones_append_zeros {a b : Nat} (w : BitVec (a + b)) :
    w &&& (BitVec.allOnes a ++ 0#b) = w.extractLsb' b a ++ 0#b := by
  conv_lhs => rw [← BitVec.extractLsb'_append_extractLsb' (x := w)]
  rw [BitVec.and_append, BitVec.and_allOnes, BitVec.and_zero]

theorem and_ones_append_zeros_append_ones {a b c : Nat} (w : BitVec (a + b + c)) :
    w &&& (BitVec.allOnes a ++ 0#b ++ BitVec.allOnes c) =
      w.extractLsb' (b + c) a ++ 0#b ++ w.extractLsb' 0 c := by
  conv_lhs => rw [← BitVec.extractLsb'_append_extractLsb' (x := w)]
  rw [BitVec.and_append, BitVec.and_allOnes, and_ones_append_zeros,
    extractLsb'_extractLsb' w (Nat.add_comm b a).le]

/-! The opcode and the row it selects (30_encoding.md R102). -/

theorem opcodeOf_toNat (w : Word) : (opcodeOf w).toNat = w.toNat / 2 ^ 29 := by
  unfold opcodeOf
  rw [BitVec.extractLsb'_toNat, Nat.shiftRight_eq_div_pow]
  omega

theorem opcodeOf_eq {w : Word} {op : BitVec 3} (h : w.toNat / 2 ^ 29 = op.toNat) :
    opcodeOf w = op :=
  BitVec.eq_of_toNat_eq ((opcodeOf_toNat w).trans h)

theorem opcode_cases (op : BitVec 3) :
    op = 0#3 ∨ op = 1#3 ∨ op = 2#3 ∨ op = 3#3 ∨ op = 4#3 ∨ op = 5#3 ∨ op = 6#3 ∨ op = 7#3 := by
  decide +revert

section
variable {w : Word}

theorem decode_eq_nop (h : opcodeOf w = 0#3) : decode w = .nop := by
  rw [decode, h]; rfl

theorem decode_eq_canplay (h : opcodeOf w = 1#3) : decode w = .canplay (w.extractLsb' 0 8) := by
  rw [decode, h]; rfl

theorem decode_eq_start (h : opcodeOf w = 2#3) :
    decode w = .start (w.extractLsb' 22 7) (w.extractLsb' 14 8) (w.extractLsb' 0 14) := by
  rw [decode, h]; rfl

theorem decode_eq_stop (h : opcodeOf w = 3#3) : decode w = .stop (w.extractLsb' 0 1) := by
  rw [decode, h]; rfl

theorem decode_eq_pwheel (h : opcodeOf w = 4#3) : decode w = .pwheel (w.extractLsb' 0 14) := by
  rw [decode, h]; rfl

theorem decode_eq_ctrl (h : opcodeOf w = 5#3) :
    decode w = .ctrl (w.extractLsb' 7 7) (w.extractLsb' 0 7) := by
  rw [decode, h]; rfl

theorem decode_eq_render (h : opcodeOf w = 6#3) :
    decode w = .render (w.extractLsb' 13 16) (w.extractLsb' 0 13) := by
  rw [decode, h]; rfl

theorem decode_eq_reserved7 (h : opcodeOf w = 7#3) : decode w = .reserved7 := by
  rw [decode, h]; rfl

end

@[simp] theorem opcode_decode (w : Word) : (decode w).opcode = opcodeOf w := by
  rcases opcode_cases (opcodeOf w) with h | h | h | h | h | h | h | h
  · rw [decode_eq_nop h, h, Instr.opcode]
  · rw [decode_eq_canplay h, h, Instr.opcode]
  · rw [decode_eq_start h, h, Instr.opcode]
  · rw [decode_eq_stop h, h, Instr.opcode]
  · rw [decode_eq_pwheel h, h, Instr.opcode]
  · rw [decode_eq_ctrl h, h, Instr.opcode]
  · rw [decode_eq_render h, h, Instr.opcode]
  · rw [decode_eq_reserved7 h, h, Instr.opcode]

theorem matchWord_decode (w : Word) : (decode w).matchWord = w &&& opcodeMask := by
  rw [Instr.matchWord, opcode_decode]
  exact (and_ones_append_zeros (a := 3) (b := 29) w).symm

/-- Settles O3: the opcode as a number gives the row's decoding, and the decoded row has that
opcode. -/
theorem opcodeAloneSelectsTheRow : Obligations.OpcodeAloneSelectsTheRow := by
  unfold Obligations.OpcodeAloneSelectsTheRow
  intro w
  refine ⟨opcodeOf_toNat w, matchWord_decode w, ?_, ?_, ?_, ?_, ?_, ?_, ?_, ?_⟩
  · exact fun h => decode_eq_nop (opcodeOf_eq h)
  · exact fun h => ⟨_, decode_eq_canplay (opcodeOf_eq h)⟩
  · exact fun h => ⟨_, _, _, decode_eq_start (opcodeOf_eq h)⟩
  · exact fun h => ⟨_, decode_eq_stop (opcodeOf_eq h)⟩
  · exact fun h => ⟨_, decode_eq_pwheel (opcodeOf_eq h)⟩
  · exact fun h => ⟨_, _, decode_eq_ctrl (opcodeOf_eq h)⟩
  · exact fun h => ⟨_, _, decode_eq_render (opcodeOf_eq h)⟩
  · exact fun h => decode_eq_reserved7 (opcodeOf_eq h)

/-! The encoder after the decoder (30_encoding.md R103, R112). -/

/-- Row by row, the fields the encoder writes are those of the word and zeros between them. The row's
masks lie side by side as ones over the opcode, zeros over the reserved bits and ones over the
operands; START and RENDER have no reserved bits. -/
theorem encode_decode (w : Word) :
    encode (decode w) = w &&& (opcodeMask ||| (decode w).operandMask) := by
  have hfull : opcodeMask ||| 0x1FFFFFFF#32 = BitVec.allOnes 32 := by decide
  rcases opcode_cases (opcodeOf w) with h | h | h | h | h | h | h | h
  · rw [decode_eq_nop h, encode, ← h]
    exact (and_ones_append_zeros (a := 3) (b := 29) w).symm
  · rw [decode_eq_canplay h, encode, ← h]
    exact (and_ones_append_zeros_append_ones (a := 3) (b := 21) (c := 8) w).symm
  · rw [decode_eq_start h, encode, ← h, opcodeOf]
    iterate 3 rw [BitVec.extractLsb'_append_extractLsb'_eq_extractLsb' (by decide)]
    rw [BitVec.extractLsb'_eq_self, Instr.operandMask, hfull, BitVec.and_allOnes]
  · rw [decode_eq_stop h, encode, ← h]
    exact (and_ones_append_zeros_append_ones (a := 3) (b := 28) (c := 1) w).symm
  · rw [decode_eq_pwheel h, encode, ← h]
    exact (and_ones_append_zeros_append_ones (a := 3) (b := 15) (c := 14) w).symm
  · rw [decode_eq_ctrl h, encode, ← h, BitVec.append_assoc,
      BitVec.extractLsb'_append_extractLsb'_eq_extractLsb' (by decide), BitVec.cast_eq]
    exact (and_ones_append_zeros_append_ones (a := 3) (b := 15) (c := 14) w).symm
  · rw [decode_eq_render h, encode, ← h, opcodeOf]
    iterate 2 rw [BitVec.extractLsb'_append_extractLsb'_eq_extractLsb' (by decide)]
    rw [BitVec.extractLsb'_eq_self, Instr.operandMask, hfull, BitVec.and_allOnes]
  · rw [decode_eq_reserved7 h, encode, ← h]
    exact (and_ones_append_zeros (a := 3) (b := 29) w).symm

/-! The decoder after the encoder (30_encoding.md R102, R103). -/

/-- The laws of the family `MatchMask` together. -/
theorem matchMask (i : Instr) : Laws.MatchMask.Statement i :=
  match i with
  | .nop => Laws.MatchMask.nop
  | .canplay sound => Laws.MatchMask.canplay sound
  | .start note vel pw => Laws.MatchMask.start note vel pw
  | .stop tail => Laws.MatchMask.stop tail
  | .pwheel pw => Laws.MatchMask.pwheel pw
  | .ctrl id val => Laws.MatchMask.ctrl id val
  | .render first num => Laws.MatchMask.render first num
  | .reserved7 => Laws.MatchMask.reserved7

theorem opcodeOf_and_opcodeMask (w : Word) : opcodeOf (w &&& opcodeMask) = opcodeOf w := by
  have h : opcodeOf opcodeMask = BitVec.allOnes 3 := by decide
  unfold opcodeOf at h ⊢
  rw [BitVec.extractLsb'_and, h, BitVec.and_allOnes]

@[simp] theorem opcodeOf_matchWord (i : Instr) : opcodeOf i.matchWord = i.opcode :=
  BitVec.extractLsb'_append_eq_left

@[simp] theorem opcodeOf_encode (i : Instr) : opcodeOf (encode i) = i.opcode := by
  rw [← opcodeOf_and_opcodeMask, (matchMask i).1, opcodeOf_matchWord]

@[simp] theorem decode_encode (i : Instr) : decode (encode i) = i := by
  have h := opcodeOf_encode i
  cases i with
  | nop => exact decode_eq_nop h
  | canplay sound => rw [decode_eq_canplay h, encode, BitVec.extractLsb'_append_eq_right]
  | start note vel pw =>
    have hnote : (encode (.start note vel pw)).extractLsb' 22 7 = note := by
      rw [encode, BitVec.extractLsb'_append_eq_of_le (by decide)]
      exact extractLsb'_append_append_middle _ _ _
    have hvel : (encode (.start note vel pw)).extractLsb' 14 8 = vel :=
      extractLsb'_append_append_middle _ _ _
    have hpw : (encode (.start note vel pw)).extractLsb' 0 14 = pw :=
      BitVec.extractLsb'_append_eq_right
    rw [decode_eq_start h, hnote, hvel, hpw]
  | stop tail => rw [decode_eq_stop h, encode, BitVec.extractLsb'_append_eq_right]
  | pwheel pw => rw [decode_eq_pwheel h, encode, BitVec.extractLsb'_append_eq_right]
  | ctrl id val =>
    rw [decode_eq_ctrl h, encode, extractLsb'_append_append_middle,
      BitVec.extractLsb'_append_eq_right]
  | render first num =>
    rw [decode_eq_render h, encode, extractLsb'_append_append_middle,
      BitVec.extractLsb'_append_eq_right]
  | reserved7 => exact decode_eq_reserved7 h

theorem decode_and_masks (w : Word) :
    decode (w &&& (opcodeMask ||| (decode w).operandMask)) = decode w := by
  rw [← encode_decode, decode_encode]

/-- No command faults or is refused (60_exceptions.md R235). -/
theorem Machine.exec_eq_next (i : Instr) (s : Machine.State) : ∃ t, Machine.exec i s = .next t := by
  cases i with
  | nop => exact ⟨_, exec_nop s⟩
  | canplay sound => exact ⟨_, exec_canplay sound s⟩
  | start note vel pw => exact ⟨_, exec_start note vel pw s⟩
  | stop tail =>
    obtain rfl | rfl := tail_cases tail
    · exact ⟨_, exec_stop_kill s⟩
    · exact ⟨_, exec_stop_tail s⟩
  | pwheel pw => exact ⟨_, exec_pwheel pw s⟩
  | ctrl id val => exact ⟨_, exec_ctrl id val s⟩
  | render first num => exact ⟨_, exec_render first num s⟩
  | reserved7 => exact ⟨_, exec_reserved7 s⟩

/-- Settles O2: the word with its reserved bits zeroed is the encoding of the command, which decodes
to the command. -/
theorem reservedBitsAreIgnored : Obligations.ReservedBitsAreIgnored := by
  unfold Obligations.ReservedBitsAreIgnored
  intro w
  refine ⟨decode_and_masks w, encode_decode w, fun s => ?_⟩
  obtain ⟨t, ht⟩ := Machine.exec_eq_next (decode w) s
  exact ⟨t, ht, by rw [decode_and_masks, ht]⟩

end Sys2Proof
end

section
/-! PROOF. The pseudo-commands of a listing (30_encoding.md R117). -/

namespace Sys2Proof.Machine

/-- START's fields, each shifted to its place (30_encoding.md R103). -/
theorem encode_start_eq_or (note : BitVec 7) (vel : BitVec 8) (pw : BitVec 14) :
    encode (.start note vel pw) =
      0x40000000#32 ||| note.setWidth 32 <<< 22 ||| vel.setWidth 32 <<< 14 ||| pw.setWidth 32 := by
  rw [encode, ← BitVec.setWidth_eq (2#3 ++ note ++ vel ++ pw),
    BitVec.setWidth_append_append_append_eq_shiftLeft_setWidth_or]
  rfl

/-- A START line whose operands fit is the word of those numbers (30_encoding.md R116). -/
theorem assemble_start {note vel pw : Nat} (hnote : note < 128) (hvel : vel < 256)
    (hpw : pw < 16384) :
    assemble (.start note vel pw) =
      some (.command (0x40000000#32 ||| BitVec.ofNat 32 note <<< 22 |||
        BitVec.ofNat 32 vel <<< 14 ||| BitVec.ofNat 32 pw)) := by
  have hfits : (AsmLine.start note vel pw).wellFormed = true := by
    simp [AsmLine.wellFormed, hnote, hvel, hpw]
  rw [assemble, if_pos hfits]
  simp only [encode_start_eq_or]
  rw [BitVec.setWidth_ofNat_of_le_of_lt (by decide) hnote,
    BitVec.setWidth_ofNat_of_le_of_lt (by decide) hvel,
    BitVec.setWidth_ofNat_of_le_of_lt (by decide) hpw]

/-- The expansion of NOTEON; both lines are an assembly error where an operand does not fit. -/
theorem assemble_noteon (note vel : Nat) :
    assemble (.noteon note vel) = assemble (.start note vel 8192) := by
  simp [assemble, AsmLine.wellFormed]

theorem assemble_noteon_word {note vel : Nat} (hnote : note < 128) (hvel : vel < 256) :
    assemble (.noteon note vel) =
      some (.command (0x40002000#32 ||| BitVec.ofNat 32 note <<< 22 |||
        BitVec.ofNat 32 vel <<< 14)) := by
  have hconst : BitVec.ofNat 32 8192 ||| 0x40000000#32 = 0x40002000#32 := by decide
  rw [assemble_noteon, assemble_start hnote hvel (by decide),
    BitVec.or_comm _ (BitVec.ofNat 32 8192), ← BitVec.or_assoc, ← BitVec.or_assoc, hconst]

/-- Settles O6: NOTEON by the word of its START, the three without operands by computation. -/
theorem pseudoCommandsExpand : Obligations.PseudoCommandsExpand := by
  unfold Obligations.PseudoCommandsExpand
  refine ⟨fun note vel hnote hvel => ?_, rfl, rfl, rfl, rfl, rfl, rfl⟩
  exact ⟨assemble_noteon note vel, assemble_noteon_word hnote hvel⟩

end Sys2Proof.Machine
end

section
/-! PROOF. Block boundaries (40_commands.md R130). Two blocks differ from one block of both lengths
in RC and in the model's window start only, and no tick reads either: `setBlock` writes the two, and
passes through every tick. What the second block's `load_caches()` reads is what the first block's
read. -/

namespace Sys2Proof.Machine

/-! RENDER run to its end, by cases of its guard (40_commands.md R126). -/

theorem renderWhole_eq_endBlock {s : State} {num : BitVec 13} (hvoice : s.regs.vstate ≠ .idle)
    (hnum : num ≠ 0#13) (start : BitVec 16) :
    renderWhole start num s = endBlock (ticks num.toNat (beginBlock start num s)) :=
  if_pos ⟨hvoice, hnum⟩

theorem renderWhole_of_idle {s : State} (hvoice : s.regs.vstate = .idle) (start : BitVec 16)
    (num : BitVec 13) : renderWhole start num s = s :=
  if_neg fun h => h.1 hvoice

/-! The idle check after the loop, by cases (40_commands.md R126). -/

theorem endBlock_of_idle {s : State} (h : allEnvIdle s.regs = true) : endBlock s = freeVoice s :=
  if_pos h

theorem endBlock_of_running {s : State} (h : allEnvIdle s.regs = false) : endBlock s = s :=
  if_neg (Bool.not_eq_true _ ▸ h)

@[simp] theorem allEnvIdle_endBlock (s : State) :
    allEnvIdle (endBlock s).regs = allEnvIdle s.regs := by
  rcases endBlock_cases s with ⟨-, h⟩ | ⟨-, h⟩
  · rw [h]; rfl
  · rw [h]

theorem endBlock_vstate_of_idle {s : State} (h : allEnvIdle (endBlock s).regs = true) :
    (endBlock s).regs.vstate = .idle := by
  rw [endBlock_of_idle (allEnvIdle_endBlock s ▸ h), freeVoice_regs]

/-! What a run of ticks keeps. -/

@[simp] theorem ticks_vstate (k : Nat) (s : State) : (ticks k s).regs.vstate = s.regs.vstate := by
  induction k with
  | zero => rfl
  | succ k ih => rw [ticks_succ, voiceTick_regs, tickRegs_vstate, ih]

theorem ticks_rp (k : Nat) (s : State) :
    (ticks k s).regs.rp = s.regs.rp + BitVec.ofNat 16 k := by
  induction k with
  | zero => exact (BitVec.add_zero _).symm
  | succ k ih =>
    rw [ticks_succ, voiceTick_regs, tickRegs_rp, ih, BitVec.add_assoc, BitVec.ofNat_add]
    rfl

/-! The caches stay loaded while no parameter is written (40_commands.md R128). -/

theorem loadCaches_eq_self_iff (r : Regs) :
    loadCaches r = r ↔ (∀ i, loadOsc r.pa i (r.osc.get i) = r.osc.get i) ∧
      ∀ f, loadFlt r.pa f (r.flt.get f) = r.flt.get f := by
  constructor
  · intro h
    exact ⟨fun i => by conv_rhs => rw [← h, loadCaches_osc, Three.get_ofFn],
      fun f => by conv_rhs => rw [← h, loadCaches_flt, Two.get_ofFn]⟩
  · rintro ⟨hosc, hflt⟩
    have ho : (loadCaches r).osc = r.osc := Three.ext_get fun i => by simp [hosc]
    have hf : (loadCaches r).flt = r.flt := Two.ext_get fun f => by simp [hflt]
    calc loadCaches r = { r with osc := (loadCaches r).osc, flt := (loadCaches r).flt } := rfl
      _ = r := by rw [ho, hf]

theorem loadCaches_beginBlock (start : BitVec 16) (num : BitVec 13) (s : State) :
    loadCaches (beginBlock start num s).regs = (beginBlock start num s).regs := rfl

theorem loadFlt_fltAdvance {pa : Vector Param 128} {f : Fin 2} {t : Flt}
    (h : loadFlt pa f t = t) (x e : Int) :
    loadFlt pa f (fltAdvance pa f t x e) = fltAdvance pa f t x e := by
  rw [← h]
  unfold fltAdvance
  split <;> rfl

theorem loadOsc_oscAdvance {pa : Vector Param 128} {i : Fin 3} {o : Osc}
    (h : loadOsc pa i o = o) (note : BitVec 7) (bend : BitVec 11) (vib : Int) :
    loadOsc pa i (oscAdvance note bend o vib) = oscAdvance note bend o vib := by
  rw [← h]
  rfl

theorem loadCaches_tickRegs {r : Regs} (h : loadCaches r = r) :
    loadCaches (tickRegs r) = tickRegs r := by
  obtain ⟨hosc, hflt⟩ := (loadCaches_eq_self_iff r).1 h
  refine (loadCaches_eq_self_iff _).2 ⟨fun i => ?_, fun f => ?_⟩
  · rw [tickRegs_osc, Three.get_ofFn]
    exact loadOsc_oscAdvance (hosc i) _ _ _
  · match f with
    | 0 => exact loadFlt_fltAdvance (hflt 0) _ _
    | 1 => exact loadFlt_fltAdvance (hflt 1) _ _

theorem loadCaches_ticks {s : State} (h : loadCaches s.regs = s.regs) (k : Nat) :
    loadCaches (ticks k s).regs = (ticks k s).regs := by
  induction k with
  | zero => exact h
  | succ k ih => rw [ticks_succ, voiceTick_regs, loadCaches_tickRegs ih]

/-! The two fields in which a block's boundaries show: RC, and where the window starts (log 6). -/

/-- The machine with `num` ticks to run in a window that starts at `first`. -/
def setBlock (num : BitVec 13) (first : BitVec 16) (s : State) : State :=
  { s with regs := { s.regs with rc := num }, winStart := first }

theorem beginBlock_eq_setBlock (start : BitVec 16) (num other : BitVec 13) (s : State) :
    beginBlock start num s = setBlock num start (beginBlock start other s) := rfl

/-- A RENDER that goes on where RP stands, with its caches loaded, sets the two fields only. -/
theorem beginBlock_rp {s : State} (h : loadCaches s.regs = s.regs) (num : BitVec 13) :
    beginBlock s.regs.rp num s = setBlock num s.regs.rp s := by
  unfold beginBlock
  rw [h]
  rfl

theorem voiceTick_setBlock (num : BitVec 13) (first : BitVec 16) (s : State) :
    voiceTick (setBlock num first s) = setBlock (num - 1#13) first (voiceTick s) := rfl

theorem ticks_setBlock (k : Nat) (num : BitVec 13) (first : BitVec 16) (s : State) :
    ticks k (setBlock num first s) = setBlock (num - BitVec.ofNat 13 k) first (ticks k s) := by
  induction k with
  | zero => rw [BitVec.sub_zero]; rfl
  | succ k ih =>
    rw [ticks_succ, ticks_succ, ih, voiceTick_setBlock, BitVec.ofNat_add, sub_add_eq_sub_sub]

theorem endBlock_setBlock (num : BitVec 13) (first : BitVec 16) (s : State) :
    endBlock (setBlock num first s) = setBlock num first (endBlock s) := by
  have hsame : allEnvIdle (setBlock num first s).regs = allEnvIdle s.regs := rfl
  rcases endBlock_cases s with ⟨hidle, h⟩ | ⟨hruns, h⟩
  · rw [h, endBlock_of_idle (hsame.trans hidle)]
    rfl
  · rw [h, endBlock_of_running (hsame.trans hruns)]

/-- The ticks of a whole block leave RC 0. -/
theorem endBlock_ticks_setBlock (num : BitVec 13) (first : BitVec 16) (s : State) :
    endBlock (ticks num.toNat (setBlock num first s)) =
      setBlock 0#13 first (endBlock (ticks num.toNat s)) := by
  rw [ticks_setBlock, endBlock_setBlock, BitVec.ofNat_toNat, BitVec.setWidth_eq, BitVec.sub_self]

/-- One block is its ticks, counted from the beginning of a block of any length. -/
theorem renderWhole_eq_setBlock {s : State} {num : BitVec 13} (hvoice : s.regs.vstate ≠ .idle)
    (hnum : num ≠ 0#13) (start : BitVec 16) (other : BitVec 13) :
    renderWhole start num s =
      setBlock 0#13 start (endBlock (ticks num.toNat (beginBlock start other s))) := by
  rw [renderWhole_eq_endBlock hvoice hnum, beginBlock_eq_setBlock start num other,
    endBlock_ticks_setBlock]

/-- A block that goes on where RP stands, with its caches loaded, is its ticks. -/
theorem renderWhole_rp {s : State} {num : BitVec 13} (hvoice : s.regs.vstate ≠ .idle)
    (hnum : num ≠ 0#13) (hload : loadCaches s.regs = s.regs) :
    renderWhole s.regs.rp num s = setBlock 0#13 s.regs.rp (endBlock (ticks num.toNat s)) := by
  rw [renderWhole_eq_endBlock hvoice hnum, beginBlock_rp hload, endBlock_ticks_setBlock]

/-- Two blocks, an envelope still running between them, are the ticks of both from the first one's
beginning on. -/
theorem renderWhole_renderWhole {s : State} {a b : BitVec 13} (hvoice : s.regs.vstate ≠ .idle)
    (ha : a ≠ 0#13) (hb : b ≠ 0#13) (start : BitVec 16)
    (hruns : allEnvIdle (renderWhole start a s).regs = false) :
    renderWhole (start + BitVec.ofNat 16 a.toNat) b (renderWhole start a s) =
      setBlock 0#13 (start + BitVec.ofNat 16 a.toNat)
        (endBlock (ticks (a.toNat + b.toNat) (beginBlock start a s))) := by
  rw [renderWhole_eq_endBlock hvoice ha, allEnvIdle_endBlock] at hruns
  rw [renderWhole_eq_endBlock hvoice ha, endBlock_of_running hruns, ticks_add]
  have hrp : (ticks a.toNat (beginBlock start a s)).regs.rp = start + BitVec.ofNat 16 a.toNat :=
    ticks_rp _ _
  have hvoice' : (ticks a.toNat (beginBlock start a s)).regs.vstate ≠ .idle := by
    rwa [ticks_vstate]
  rw [← hrp]
  exact renderWhole_rp hvoice' hb (loadCaches_ticks (loadCaches_beginBlock start a s) _)

/-- Settles O32: with an envelope running both sides are the ticks of both blocks, but for the
window's start; with none the first block frees the voice. -/
theorem blockBoundariesAreInvisible : Obligations.BlockBoundariesAreInvisible := by
  unfold Obligations.BlockBoundariesAreInvisible
  intro s start a b hvoice ha hb hsum
  refine ⟨fun hruns => ?_, fun hidle => ?_⟩
  · have htoNat : (a + b).toNat = a.toNat + b.toNat := BitVec.toNat_add_of_lt (by omega)
    have hab : a + b ≠ 0#13 := by
      intro h
      rw [h] at htoNat
      exact ha (BitVec.eq_of_toNat_eq (Nat.eq_zero_of_add_eq_zero_right htoNat.symm))
    rw [renderWhole_renderWhole hvoice ha hb start hruns,
      renderWhole_eq_setBlock hvoice hab start a, htoNat]
    exact ⟨rfl, rfl, rfl, rfl⟩
  · have hfreed : (renderWhole start a s).regs.vstate = .idle := by
      rw [renderWhole_eq_endBlock hvoice ha] at hidle ⊢
      exact endBlock_vstate_of_idle hidle
    exact ⟨hfreed, renderWhole_of_idle hfreed _ _⟩

end Sys2Proof.Machine
end

section
/-! PROOF. What the small commands write and leave (40_commands.md R120, R121, R125, R127), and what
the commands keep: RESP once it is set (R121), the buffer, and an IDLE voice's registers (R134). -/

namespace Sys2Proof.Machine

/-! NOP and the reserved opcode. -/

/-- Settles O21: the opcode alone gives the decoding, whatever the reserved bits. -/
theorem nopAndReservedOpcodeChangeNothing : Obligations.NopAndReservedOpcodeChangeNothing := by
  unfold Obligations.NopAndReservedOpcodeChangeNothing
  refine ⟨by decide, fun s => ⟨exec_nop s, exec_reserved7 s, fun w hw => ?_⟩⟩
  rcases hw with h | h
  · rw [decode_eq_nop h, exec_nop]
  · rw [decode_eq_reserved7 h, exec_reserved7]

/-! CTRL. -/

theorem append_toNat_eq_mul_add {a b : Nat} (x : BitVec a) (y : BitVec b) :
    (x ++ y).toNat = x.toNat * 2 ^ b + y.toNat := by
  rw [BitVec.toNat_append, ← Nat.shiftLeft_add_eq_or_of_lt y.isLt, Nat.shiftLeft_eq]

/-- The pair as a number, `id * 128 + val` (40_commands.md R125). -/
theorem ctrlPair_toNat (id val : BitVec 7) : (id ++ val).toNat = id.toNat * 128 + val.toNat :=
  append_toNat_eq_mul_add id val

/-- CTRL's word is its opcode and the pair's number (30_encoding.md R103). -/
theorem encode_ctrl_eq_add (id val : BitVec 7) :
    encode (.ctrl id val) = 0xA0000000#32 + BitVec.ofNat 32 (id.toNat * 128 + val.toNat) := by
  have hword : encode (.ctrl id val) = (5#3 ++ 0#15) ++ (id ++ val) := BitVec.append_assoc
  have hop : (5#3 ++ 0#15).toNat = 0x28000 := by decide
  apply BitVec.eq_of_toNat_eq
  rw [hword, append_toNat_eq_mul_add, ctrlPair_toNat, hop, BitVec.toNat_add,
    BitVec.toNat_ofNat, BitVec.toNat_ofNat]
  omega

/-- Settles O24: one register is written, and its number and the word's are the pair's. -/
theorem ctrlRecordsItsPairOnly : Obligations.CtrlRecordsItsPairOnly := by
  unfold Obligations.CtrlRecordsItsPairOnly
  intro id val s
  exact ⟨_, exec_ctrl id val s, ctrlPair_toNat id val, rfl, fun _ => rfl, ⟨rfl, rfl, rfl⟩,
    encode_ctrl_eq_add id val⟩

/-! RESP: CANPLAY sets it, and only the reset input clears it (10_state.md R37). -/

@[simp] theorem endBlock_resp (s : State) : (endBlock s).regs.resp = s.regs.resp := by
  rcases endBlock_cases s with ⟨-, h⟩ | ⟨-, h⟩ <;> simp [h]

@[simp] theorem renderTick_resp (s : State) : (renderTick s).regs.resp = s.regs.resp := by
  rcases renderTick_cases s with ⟨-, h⟩ | ⟨-, h⟩ <;> simp [h]

@[simp] theorem unitStep_resp (s : State) : (unitStep s).regs.resp = s.regs.resp := by
  unfold unitStep
  split <;> simp

@[simp] theorem retrigger_resp (r : Regs) : (retrigger r).resp = r.resp := by
  unfold retrigger
  split <;> rfl

@[simp] theorem startRegs_resp (note : BitVec 7) (vel : BitVec 8) (pw : BitVec 14) (r : Regs) :
    (startRegs note vel pw r).resp = r.resp :=
  retrigger_resp r

@[simp] theorem killVoice_resp (s : State) : (killVoice s).regs.resp = s.regs.resp := by
  rcases killVoice_cases s with ⟨-, h⟩ | ⟨-, h⟩ <;> simp [h]

@[simp] theorem releaseVoice_resp (s : State) : (releaseVoice s).regs.resp = s.regs.resp := by
  rcases releaseVoice_cases s with ⟨-, h⟩ | ⟨-, h⟩ <;> simp [h]

theorem exec_keeps_resp {i : Instr} {s t : State} (h : exec i s = .next t)
    (hresp : s.regs.resp = true) : t.regs.resp = true := by
  cases i with
  | nop => cases h; exact hresp
  | canplay sound => cases h; rfl
  | start note vel pw => cases h; exact (startRegs_resp ..).trans hresp
  | stop tail =>
    obtain rfl | rfl := tail_cases tail
    · cases h; exact (killVoice_resp s).trans hresp
    · cases h; exact (releaseVoice_resp s).trans hresp
  | pwheel pw => cases h; exact hresp
  | ctrl id val => cases h; exact hresp
  | render start num =>
    cases h
    split <;> exact hresp
  | reserved7 => cases h; exact hresp

theorem step_keeps_resp {s t : State} (h : step s = .next t)
    (hreset : ∀ rest, s.inputs ≠ .reset :: rest) (hresp : s.regs.resp = true) :
    t.regs.resp = true := by
  rcases step_cases h with ⟨-, rfl⟩ | ⟨w, rest, -, -, rfl⟩ | ⟨w, rest, -, -, hexec⟩ |
    ⟨idx, val, rest, -, rfl⟩ | ⟨addr, val, rest, -, -, rfl⟩ | ⟨addr, val, rest, -, -, rfl⟩ |
    ⟨rest, hin, -⟩ | ⟨rest, -, rfl⟩ | ⟨rest, -, -, rfl⟩ | ⟨rest, -, -, rfl⟩
  · exact (unitStep_resp s).trans hresp
  · exact (unitStep_resp s).trans hresp
  · exact exec_keeps_resp hexec hresp
  · exact hresp
  · exact hresp
  · exact (unitStep_resp s).trans hresp
  · exact absurd hin (hreset rest)
  · exact (unitStep_resp _).trans hresp
  · exact (unitStep_resp s).trans hresp
  · exact hresp

/-- Settles O22: RESP is written and shown at its place in STATUS, and every step but a reset keeps
it. -/
theorem canplayAnswersTrue : Obligations.CanplayAnswersTrue := by
  unfold Obligations.CanplayAnswersTrue
  refine ⟨fun sound s => ?_, fun s t h hreset hresp => step_keeps_resp h hreset hresp, by decide⟩
  exact ⟨_, exec_canplay sound s, rfl, statusWord_resp _, rfl, fun _ => rfl, rfl, rfl, rfl⟩

/-! The buffer and the IDLE voice (40_commands.md R134). -/

@[simp] theorem killVoice_buffer (s : State) : (killVoice s).buffer = s.buffer := by
  rcases killVoice_cases s with ⟨-, h⟩ | ⟨-, h⟩ <;> simp [h]

@[simp] theorem releaseVoice_buffer (s : State) : (releaseVoice s).buffer = s.buffer := by
  rcases releaseVoice_cases s with ⟨-, h⟩ | ⟨-, h⟩ <;> simp [h]

/-- No command's own step accesses the buffer; RENDER's ticks are steps of their own (log 4). -/
theorem exec_keeps_buffer {i : Instr} {s t : State} (h : exec i s = .next t) :
    t.buffer = s.buffer := by
  cases i with
  | nop => cases h; rfl
  | canplay sound => cases h; rfl
  | start note vel pw => cases h; rfl
  | stop tail =>
    obtain rfl | rfl := tail_cases tail
    · cases h; exact killVoice_buffer s
    · cases h; exact releaseVoice_buffer s
  | pwheel pw => cases h; rfl
  | ctrl id val => cases h; rfl
  | render start num => cases h; split <;> rfl
  | reserved7 => cases h; rfl

theorem envKill_of_idle {e : Env} (h : e.Inv) (hidle : e.stage = .idle) : envKill e = e := by
  rw [envKill, ← h.idle_zero hidle, ← hidle]

theorem envKill_map_of_idle {r : Regs} (h : r.Inv) (hidle : r.vstate = .idle) :
    r.env.map envKill = r.env := by
  refine Three.ext_get fun i => ?_
  have hstage := h.stage i
  rw [hidle, stageFits, beq_iff_eq] at hstage
  rw [Three.get_map, envKill_of_idle (h.env i) hstage]

theorem killVoice_of_idle {s : State} (h : s.regs.Inv) (hidle : s.regs.vstate = .idle) :
    killVoice s = s := by
  rw [killVoice, if_pos hidle, envKill_map_of_idle h hidle]

theorem releaseVoice_of_idle {s : State} (hidle : s.regs.vstate = .idle) : releaseVoice s = s :=
  if_neg fun h => by rw [hidle] at h; cases h

theorem exec_render_of_idle {s : State} (hidle : s.regs.vstate = .idle) (start : BitVec 16)
    (num : BitVec 13) : exec (.render start num) s = .next s := by
  rw [exec_render, if_neg fun h => h.1 hidle]

/-- The commands other than START, on an IDLE voice: each is the identity or writes RESP, BEND or
LAST_CC. -/
theorem exec_regs_of_idle {i : Instr} {s t : State} (hinv : s.regs.Inv)
    (hidle : s.regs.vstate = .idle) (hstart : ∀ note vel pw, i ≠ .start note vel pw)
    (h : exec i s = .next t) :
    { t.regs with resp := s.regs.resp, bend := s.regs.bend, lastCc := s.regs.lastCc } = s.regs := by
  cases i with
  | nop => cases h; rfl
  | canplay sound => cases h; rfl
  | start note vel pw => exact absurd rfl (hstart note vel pw)
  | stop tail =>
    obtain rfl | rfl := tail_cases tail
    · rw [exec_stop_kill, killVoice_of_idle hinv hidle] at h; cases h; rfl
    · rw [exec_stop_tail, releaseVoice_of_idle hidle] at h; cases h; rfl
  | pwheel pw => cases h; rfl
  | ctrl id val => cases h; rfl
  | render start num => rw [exec_render_of_idle hidle] at h; cases h; rfl
  | reserved7 => cases h; rfl

/-- Settles O34: the buffer in every voice state, the registers command by command. -/
theorem idleVoiceChangesNothing : Obligations.IdleVoiceChangesNothing := by
  unfold Obligations.IdleVoiceChangesNothing
  intro s i hinv hidle
  obtain ⟨t, ht⟩ := exec_eq_next i s
  exact ⟨t, ht, exec_keeps_buffer ht, fun hstart => exec_regs_of_idle hinv.regs hidle hstart ht⟩

end Sys2Proof.Machine
end

section
/-! PROOF. The waveforms (41_oscillator.md R140 to R144) and the pitch of an unshifted note (R147,
R152): the fields of a phase as quotients, one equation per selector and per shape, and the range of
each shape. -/

namespace Sys2Proof.Machine

/-! The fields of a phase, read as quotients (00_scope.md R8). -/

theorem phase_top_toNat (ph : BitVec 32) : (ph.extractLsb' 16 16).toNat = ph.toNat / 65536 := by
  rw [BitVec.extractLsb'_toNat, Nat.shiftRight_eq_div_pow]
  omega

theorem phase_msb_eq_zero_iff (ph : BitVec 32) :
    (ph.extractLsb' 31 1).toNat = 0 ↔ ph.toNat < 2147483648 := by
  rw [BitVec.extractLsb'_toNat, Nat.shiftRight_eq_div_pow]
  omega

/-! Sawtooth, square and triangle (41_oscillator.md R142 to R144). -/

theorem sawQ15_eq (ph : BitVec 32) :
    sawQ15 ph = max (((ph.toNat / 65536 : Nat) : Int) - 32768) (-32767) := by
  rw [sawQ15, phase_top_toNat]

theorem squareQ15_eq (ph : BitVec 32) :
    squareQ15 ph = if ph.toNat < 2147483648 then 32767 else -32767 := by
  simp only [squareQ15, phase_msb_eq_zero_iff]

theorem triQ15_rising {ph : BitVec 32} (h : ph.toNat / 65536 < 32768) :
    triQ15 ph = -32767 + 2 * ((ph.toNat / 65536 : Nat) : Int) := by
  unfold triQ15
  simp only [phase_top_toNat]
  exact if_pos (by omega)

theorem triQ15_falling {ph : BitVec 32} (h : 32768 ≤ ph.toNat / 65536) :
    triQ15 ph = 32767 - 2 * (((ph.toNat / 65536 : Nat) : Int) - 32768) := by
  unfold triQ15
  simp only [phase_top_toNat]
  exact if_neg (by omega)

theorem triQ15_odd (ph : BitVec 32) : triQ15 ph % 2 = 1 := by
  rcases Nat.lt_or_ge (ph.toNat / 65536) 32768 with h | h
  · rw [triQ15_rising h]; omega
  · rw [triQ15_falling h]; omega

/-- Settles O37: each shape's equation, the triangle's by half period. -/
theorem sawSquareTriangleFromTheTopBits : Obligations.SawSquareTriangleFromTheTopBits := by
  unfold Obligations.SawSquareTriangleFromTheTopBits
  exact fun ph => ⟨sawQ15_eq ph, squareQ15_eq ph, triQ15_rising, triQ15_falling, triQ15_odd ph⟩

/-! The range of each shape (41_oscillator.md R141 to R144). -/

theorem sawQ15_range (ph : BitVec 32) : -32767 ≤ sawQ15 ph ∧ sawQ15 ph ≤ 32767 := by
  have := ph.isLt
  rw [sawQ15_eq]
  omega

theorem squareQ15_range (ph : BitVec 32) : -32767 ≤ squareQ15 ph ∧ squareQ15 ph ≤ 32767 := by
  rw [squareQ15_eq]
  split <;> decide

theorem triQ15_range (ph : BitVec 32) : -32767 ≤ triQ15 ph ∧ triQ15 ph ≤ 32767 := by
  have := ph.isLt
  rcases Nat.lt_or_ge (ph.toNat / 65536) 32768 with h | h
  · rw [triQ15_rising h]; omega
  · rw [triQ15_falling h]; omega

/-- Linear interpolation over a fraction of 256 stays between bounds of its end points: the result
is the floor of their weighted mean. -/
theorem interpolation_range {lo hi a b fr : Int} (ha : lo ≤ a ∧ a ≤ hi) (hb : lo ≤ b ∧ b ≤ hi)
    (hfr : 0 ≤ fr ∧ fr ≤ 256) :
    lo ≤ a + asr ((b - a) * fr) 8 ∧ a + asr ((b - a) * fr) 8 ≤ hi := by
  have hlo : (lo - a) * 256 ≤ (b - a) * fr := by nlinarith
  have hhi : (b - a) * fr ≤ (hi - a) * 256 := by nlinarith
  unfold asr
  omega

theorem sinQ15_range (ph : BitVec 32) : -32767 ≤ sinQ15 ph ∧ sinQ15 ph ≤ 32767 := by
  unfold sinQ15
  extract_lets q idx fr a b v
  have ha : 0 ≤ a ∧ a ≤ 32767 := by unfold a; split <;> exact Config.sinq_range _
  have hb : 0 ≤ b ∧ b ≤ 32767 := by unfold b; split <;> exact Config.sinq_range _
  have hfr : fr < 256 := (ph.extractLsb' 16 8).isLt
  have hv : 0 ≤ v ∧ v ≤ 32767 := interpolation_range ha hb (by omega)
  split <;> omega

/-! The selector (41_oscillator.md R140). -/

@[simp] theorem wave_saw (ph : BitVec 32) : wave 1#16 ph = sawQ15 ph := by simp [wave]

@[simp] theorem wave_square (ph : BitVec 32) : wave 2#16 ph = squareQ15 ph := by simp [wave]

@[simp] theorem wave_tri (ph : BitVec 32) : wave 3#16 ph = triQ15 ph := by simp [wave]

theorem wave_sine {sel : Param} (h1 : sel ≠ 1#16) (h2 : sel ≠ 2#16) (h3 : sel ≠ 3#16)
    (ph : BitVec 32) : wave sel ph = sinQ15 ph := by
  rw [wave, if_neg h1, if_neg h2, if_neg h3]

theorem wave_range (sel : Param) (ph : BitVec 32) : -32767 ≤ wave sel ph ∧ wave sel ph ≤ 32767 := by
  by_cases h1 : sel = 1#16
  · rw [h1, wave_saw]; exact sawQ15_range ph
  by_cases h2 : sel = 2#16
  · rw [h2, wave_square]; exact squareQ15_range ph
  by_cases h3 : sel = 3#16
  · rw [h3, wave_tri]; exact triQ15_range ph
  rw [wave_sine h1 h2 h3]; exact sinQ15_range ph

/-- Settles O36: the selector's four equations and the range of the shape it selects. -/
theorem waveSelectsAndStaysInRange : Obligations.WaveSelectsAndStaysInRange := by
  unfold Obligations.WaveSelectsAndStaysInRange
  intro sel ph
  refine ⟨?_, ?_, ?_, fun h1 h2 h3 => wave_sine h1 h2 h3 ph, wave_range sel ph⟩
  · rintro rfl; exact wave_saw ph
  · rintro rfl; exact wave_square ph
  · rintro rfl; exact wave_tri ph

/-! The pitch of an unshifted note (41_oscillator.md R145, R147, R152). -/

/-- With octave 0, semitone 0 and no vibrato the pitch word is the note's own, moved by the wheel. -/
theorem oscPitch_of_zero_offsets {o : Osc} (hoct : o.cOct = 0#16) (hsemi : o.cSemi = 0#16)
    (note : BitVec 7) (bend : BitVec 11) :
    oscPitch note bend o 0 = 256 * (note.toNat : Int) + bend.toInt := by
  have hzero : sext16 0#16 = 0 := rfl
  rw [oscPitch, hoct, hsemi, hzero, clamp_of_mem (by decide) (by decide),
    clamp_of_mem (by decide) (by decide)]
  omega

/-- Note 69 has the pitch word 17664, whose increment R146 lists among its values. -/
theorem pitchToInc_note69 : pitchToInc 17664 = 39370533 := by decide

/-- Settles O41: the pitch word is 17664 for every such oscillator. -/
theorem noteSixtyNineIsFourHundredFortyHertz :
    Obligations.NoteSixtyNineIsFourHundredFortyHertz := by
  unfold Obligations.NoteSixtyNineIsFourHundredFortyHertz
  refine ⟨fun o hoct hsemi => ?_, by decide, by decide⟩
  rw [oscPitch_of_zero_offsets hoct hsemi]
  exact pitchToInc_note69

end Sys2Proof.Machine
end

section
/-! PROOF. Key-off (42_envelope.md R164) and the envelope keyed on disabled (R169). Key-off and the
release tick that reaches 0 have an equation each; the disabled envelope runs through three concrete
register files. -/

namespace Sys2Proof.Machine

/-! Key-off, by the two halves of its guard. -/

theorem envKeyOff_of_running {e : Env}
    (h : e.stage = .attack ∨ e.stage = .decay ∨ e.stage = .sustain) :
    envKeyOff e =
      { e with decR := BitVec.ofNat 32 (ceilDiv e.level.toNat e.nR.toNat), stage := .release } := by
  unfold envKeyOff
  rcases h with h | h | h <;> rw [h]

theorem envKeyOff_of_released {e : Env} (h : e.stage = .release ∨ e.stage = .idle) :
    envKeyOff e = e := by
  unfold envKeyOff
  rcases h with h | h <;> rw [h]

theorem ceilDiv_eq_zero_iff {a b : Nat} (hb : 1 ≤ b) : ceilDiv a b = 0 ↔ a = 0 := by
  rw [← Nat.le_zero, ceilDiv_le_iff hb, Nat.zero_mul, Nat.le_zero]

/-- The latched step is exact: it is at most the level, so it fits its register. -/
theorem envKeyOff_decR_toNat {e : Env}
    (h : e.stage = .attack ∨ e.stage = .decay ∨ e.stage = .sustain) (hn : 1 ≤ e.nR.toNat) :
    (envKeyOff e).decR.toNat = ceilDiv e.level.toNat e.nR.toNat := by
  have hle : ceilDiv e.level.toNat e.nR.toNat ≤ e.level.toNat := ceilDiv_le_self hn
  rw [envKeyOff_of_running h]
  exact Nat.mod_eq_of_lt (hle.trans_lt e.level.isLt)

theorem envKeyOff_decR_eq_zero_iff {e : Env}
    (h : e.stage = .attack ∨ e.stage = .decay ∨ e.stage = .sustain) (hn : 1 ≤ e.nR.toNat) :
    (envKeyOff e).decR = 0#32 ↔ e.level = 0#32 := by
  rw [← BitVec.toNat_inj, ← BitVec.toNat_inj, envKeyOff_decR_toNat h hn]
  exact ceilDiv_eq_zero_iff hn

/-! The ticks that change the stage, and SUSTAIN, which holds (42_envelope.md R166). -/

theorem envTick_of_attack_done {e : Env} (hstage : e.stage = .attack)
    (h : 2147483648 ≤ e.level.toNat + e.incA.toNat) :
    envTick e = { e with level := 0x80000000#32, stage := .decay } := by
  have hfull : (e.level.toNat : Int) + e.incA.toNat ≥ Config.lMax := by
    rw [Config.lMax]
    omega
  unfold envTick
  rw [hstage]
  exact if_pos hfull

theorem envTick_of_decay_done {e : Env} (hstage : e.stage = .decay)
    (h : e.level.toNat ≤ e.sTarget.toNat + e.decD.toNat) :
    envTick e = { e with level := e.sTarget, stage := .sustain } := by
  unfold envTick
  rw [hstage]
  exact if_pos (by omega)

theorem envTick_of_sustain {e : Env} (hstage : e.stage = .sustain) : envTick e = e := by
  unfold envTick
  rw [hstage]

theorem envTick_of_release_done {e : Env} (hstage : e.stage = .release)
    (h : e.level.toNat ≤ e.decR.toNat) : envTick e = envKill e := by
  unfold envTick
  rw [hstage]
  exact if_pos (by omega)

/-- A key-off whose step is the whole level is a kill one tick later, but for the latched step. -/
theorem envTick_envKeyOff_of_level_le {e : Env}
    (h : e.stage = .attack ∨ e.stage = .decay ∨ e.stage = .sustain)
    (hle : e.level.toNat ≤ (envKeyOff e).decR.toNat) :
    envTick (envKeyOff e) = envKill (envKeyOff e) := by
  refine envTick_of_release_done ?_ ?_
  · rw [envKeyOff_of_running h]
  · rwa [envKeyOff_level]

/-- Settles O46: the key-off by its equation, its step as a number, and from level 0 the release
tick that reaches 0. -/
theorem keyOffLatchesTheReleaseStep : Obligations.KeyOffLatchesTheReleaseStep := by
  unfold Obligations.KeyOffLatchesTheReleaseStep
  refine fun e he => ⟨fun h => ⟨?_, envKeyOff_decR_toNat h he.nR_pos, ?_,
    envKeyOff_decR_eq_zero_iff h he.nR_pos, fun hzero => ?_⟩, envKeyOff_of_released⟩
  · rw [envKeyOff_of_running h]
  · rw [envKeyOff_of_running h]
  · have hle : e.level.toNat ≤ (envKeyOff e).decR.toNat := by
      rw [hzero]
      exact Nat.zero_le _
    rw [envTick_envKeyOff_of_level_le h hle, envKill_stage]

/-! The disabled envelope: what its key-on latches, and its run (42_envelope.md R163, R169). -/

/-- An envelope with the registers that a key-on latches when the envelope is disabled. -/
def gateEnv (stage : Stage) (level decR : BitVec 32) : Env where
  stage := stage
  level := level
  incA := 0x80000000#32
  decD := 0#32
  sTarget := 0x80000000#32
  nR := 1#22
  decR := decR

@[simp] theorem gateEnv_stage (stage : Stage) (level decR : BitVec 32) :
    (gateEnv stage level decR).stage = stage := rfl

theorem envKeyOn_of_disabled {pa : Vector Param 128} {i : Fin 3}
    (h : paRead pa (envEnableIdx i) = 0#16) (e : Env) :
    envKeyOn pa i e = gateEnv .attack e.level e.decR := by
  simp [envKeyOn, h, Config.lMax, gateEnv]

/-- The attack step is full scale: one tick reaches unity from level 0. -/
theorem envTick_gateEnv_attack (decR : BitVec 32) :
    envTick (gateEnv .attack 0#32 decR) = gateEnv .decay 0x80000000#32 decR :=
  envTick_of_attack_done rfl (by simp [gateEnv])

/-- Unity is the sustain level already, so the decay takes one tick. -/
theorem envTick_gateEnv_decay (decR : BitVec 32) :
    envTick (gateEnv .decay 0x80000000#32 decR) = gateEnv .sustain 0x80000000#32 decR :=
  envTick_of_decay_done rfl (by simp [gateEnv])

theorem envTick_gateEnv_sustain (level decR : BitVec 32) :
    envTick (gateEnv .sustain level decR) = gateEnv .sustain level decR :=
  envTick_of_sustain rfl

theorem envTick_iterate_gateEnv (k : Nat) (decR : BitVec 32) :
    envTick^[k + 2] (gateEnv .attack 0#32 decR) = gateEnv .sustain 0x80000000#32 decR := by
  rw [Function.iterate_add_apply, Function.iterate_succ_apply, Function.iterate_one,
    envTick_gateEnv_attack, envTick_gateEnv_decay]
  exact Function.iterate_fixed (envTick_gateEnv_sustain _ _) k

/-- The run never leaves the three stages that a key-off acts on. -/
theorem envTick_iterate_gateEnv_running (k : Nat) (decR : BitVec 32) :
    ∃ stage level, (stage = .attack ∨ stage = .decay ∨ stage = .sustain) ∧
      envTick^[k] (gateEnv .attack 0#32 decR) = gateEnv stage level decR := by
  match k with
  | 0 => exact ⟨.attack, 0#32, .inl rfl, rfl⟩
  | 1 =>
    refine ⟨.decay, 0x80000000#32, .inr (.inl rfl), ?_⟩
    rw [Function.iterate_one, envTick_gateEnv_attack]
  | k + 2 => exact ⟨.sustain, 0x80000000#32, .inr (.inr rfl), envTick_iterate_gateEnv k decR⟩

/-! Its output and its key-off (42_envelope.md R164, R167, R169). -/

theorem envOut_gateEnv_unity (stage : Stage) (decR : BitVec 32) :
    envOut (gateEnv stage 0x80000000#32 decR) = 32768 := by
  have hlevel : asr (0x80000000#32).toNat 16 = 32768 := by decide
  exact hlevel

theorem envOut_envTick_iterate_gateEnv (k : Nat) (decR : BitVec 32) :
    envOut (envTick^[k + 1] (gateEnv .attack 0#32 decR)) = 32768 := by
  match k with
  | 0 => rw [Function.iterate_one, envTick_gateEnv_attack, envOut_gateEnv_unity]
  | k + 1 => rw [envTick_iterate_gateEnv, envOut_gateEnv_unity]

/-- The release time is one tick, so the step is the whole level. -/
theorem envTick_envKeyOff_gateEnv {stage : Stage}
    (h : stage = .attack ∨ stage = .decay ∨ stage = .sustain) (level decR : BitVec 32) :
    envTick (envKeyOff (gateEnv stage level decR)) =
      envKill (envKeyOff (gateEnv stage level decR)) := by
  refine envTick_envKeyOff_of_level_le h ?_
  rw [envKeyOff_decR_toNat h le_rfl]
  exact (ceilDiv_one level.toNat).ge

theorem envOut_envKill (e : Env) : envOut (envKill e) = 0 := asr_zero 16

/-- An envelope at unity leaves its oscillator's sample as it is (45_voice_mix.md R216). -/
theorem tickC_of_unity {r : Regs} {i : Fin 3} (h : tickE r i = 32768) : tickC r i = tickB r i := by
  rw [tickC, h, asr_mul_unity]

/-- Settles O50: the disabled key-on is a gate at level 0, whose run has three register
files. -/
theorem disabledEnvelopeIsAGate : Obligations.DisabledEnvelopeIsAGate := by
  unfold Obligations.DisabledEnvelopeIsAGate
  intro pa i e hdisabled hlevel
  rw [envKeyOn_of_disabled hdisabled, hlevel]
  refine ⟨fun k => envOut_envTick_iterate_gateEnv k _, ?_, fun k => ?_, fun k => ?_,
    fun k r hr => ?_⟩
  · rw [Function.iterate_one, envTick_gateEnv_attack, gateEnv_stage]
  · rw [envTick_iterate_gateEnv, gateEnv_stage]
  · obtain ⟨stage, level, hstage, hrun⟩ := envTick_iterate_gateEnv_running k e.decR
    rw [hrun, envTick_envKeyOff_gateEnv hstage]
    exact ⟨envOut_envKill _, rfl⟩
  · have hunity : tickE r i = 32768 := by
      rw [tickE, hr, ← Function.iterate_succ_apply' envTick, envOut_envTick_iterate_gateEnv]
    exact ⟨hunity, tickC_of_unity hunity⟩

end Sys2Proof.Machine
end

section
/-! PROOF. The LFO that does nothing (43_lfo.md R187): the vibrato and the tremolo factor by the
destination word, and the neutral values that depth 0 gives for any destination. -/

namespace Sys2Proof.Machine

section
variable {pa : Vector Param 128} {i : Fin 3}

/-! The two effects, by destination (43_lfo.md R181, R185, R186). -/

theorem lfoVib_of_dest_pitch (h : paRead pa (lfoDestIdx i) = 1#16) (l : Lfo) :
    lfoVib pa i l = asr (lfoOutput pa i l) 7 := if_pos h

theorem lfoVib_of_dest_ne_pitch (h : paRead pa (lfoDestIdx i) ≠ 1#16) (l : Lfo) :
    lfoVib pa i l = 0 := if_neg h

theorem lfoTrem_of_dest_amplitude (h : paRead pa (lfoDestIdx i) = 2#16) (l : Lfo) :
    lfoTrem pa i l =
      32768 - asr ((u115 (paRead pa (lfoDepthIdx i)) : Int) - lfoOutput pa i l) 1 := if_pos h

theorem lfoTrem_of_dest_ne_amplitude (h : paRead pa (lfoDestIdx i) ≠ 2#16) (l : Lfo) :
    lfoTrem pa i l = 32768 := if_neg h

/-! Depth 0: the output is 0, so either effect is neutral where it is routed (43_lfo.md R182). -/

theorem lfoOutput_of_depth_zero (h : paRead pa (lfoDepthIdx i) = 0#16) (l : Lfo) :
    lfoOutput pa i l = 0 := by
  rw [lfoOutput, h, u115_zero, Int.natCast_zero, Int.mul_zero, asr_zero]

theorem lfoVib_of_depth_zero (h : paRead pa (lfoDepthIdx i) = 0#16) (l : Lfo) :
    lfoVib pa i l = 0 := by
  by_cases hdest : paRead pa (lfoDestIdx i) = 1#16
  · rw [lfoVib_of_dest_pitch hdest, lfoOutput_of_depth_zero h, asr_zero]
  · exact lfoVib_of_dest_ne_pitch hdest l

theorem lfoTrem_of_depth_zero (h : paRead pa (lfoDepthIdx i) = 0#16) (l : Lfo) :
    lfoTrem pa i l = 32768 := by
  by_cases hdest : paRead pa (lfoDestIdx i) = 2#16
  · rw [lfoTrem_of_dest_amplitude hdest, lfoOutput_of_depth_zero h, h, u115_zero,
      Int.natCast_zero, Int.sub_zero, asr_zero, Int.sub_zero]
  · exact lfoTrem_of_dest_ne_amplitude hdest l

end

/-! What the neutral values leave as it is (41_oscillator.md R147, R150). -/

theorem oscPitch_of_no_vib (note : BitVec 7) (bend : BitVec 11) (o : Osc) :
    oscPitch note bend o 0 =
      256 * ((note.toNat : Int) + 12 * clamp (sext16 o.cOct) (-4) 4
        + clamp (sext16 o.cSemi) (-12) 12) + bend.toInt :=
  Int.add_zero _

theorem oscScaled_of_unity_trem (o : Osc) :
    oscScaled o 32768 = asr (oscRaw o * u115 o.cLevel) 15 :=
  asr_mul_unity _

/-- Settles O42: the neutral vibrato and factor, by destination and by depth, and what an oscillator
makes of them. -/
theorem unroutedOrZeroDepthLfoDoesNothing : Obligations.UnroutedOrZeroDepthLfoDoesNothing := by
  unfold Obligations.UnroutedOrZeroDepthLfoDoesNothing
  refine fun pa i l => ⟨fun hpitch hamp => ?_, fun hdepth => ?_, fun note bend o => ?_⟩
  · exact ⟨lfoVib_of_dest_ne_pitch hpitch l, lfoTrem_of_dest_ne_amplitude hamp l⟩
  · exact ⟨lfoOutput_of_depth_zero hdepth l, lfoVib_of_depth_zero hdepth l,
      lfoTrem_of_depth_zero hdepth l⟩
  · exact ⟨oscPitch_of_no_vib note bend o, oscScaled_of_unity_trem o⟩

end Sys2Proof.Machine
end

section
/-! PROOF. One sample through a filter (44_filter.md R197): an equation for the output of each type and
for each state variable, read back as a signed value. The saturation keeps the new values within
their registers. -/

namespace Sys2Proof.Machine

section
variable {pa : Vector Param 128} {f : Fin 2} {t : Flt} {x e : Int}

/-! The output, by type (44_filter.md R196, R202). -/

theorem fltOut_lowPass (h : t.cType = 1#16) :
    fltOut pa f t x e = asr (fltLow t (fltFc pa f t e)) 8 := by
  simp [fltOut, h]

theorem fltOut_highPass (h : t.cType = 2#16) :
    fltOut pa f t x e = asr (fltHigh t (fltFc pa f t e) (fltQd pa f) x) 8 := by
  simp [fltOut, h]

theorem fltOut_bandPass (h : t.cType = 3#16) :
    fltOut pa f t x e = asr (fltBand t (fltFc pa f t e) (fltQd pa f) x) 8 := by
  simp [fltOut, h]

theorem fltOut_off (h : fltOn t = false) : fltOut pa f t x e = x := by
  rw [← Bool.not_eq_true, fltOn_iff, not_or, not_or] at h
  obtain ⟨h1, h2, h3⟩ := h
  simp [fltOut, h1, h2, h3]

/-! The state variables of a running filter, as signed values (44_filter.md R200). -/

theorem sext32_ofInt_sat32 (v : Int) : sext32 (BitVec.ofInt 32 (sat32 v)) = sat32 v :=
  sext32_ofInt (sat32_range v).1 (sat32_range v).2

theorem sext32_fltAdvance_low (h : fltOn t = true) :
    sext32 (fltAdvance pa f t x e).low = fltLow t (fltFc pa f t e) := by
  rw [fltAdvance, if_pos h]
  exact sext32_ofInt_sat32 _

theorem sext32_fltAdvance_band (h : fltOn t = true) :
    sext32 (fltAdvance pa f t x e).band = fltBand t (fltFc pa f t e) (fltQd pa f) x := by
  rw [fltAdvance, if_pos h]
  exact sext32_ofInt_sat32 _

end

/-- Settles O51: the statement writes out the coefficients and the three signals in place; each clause
is the equation of its type or its state variable. -/
theorem filterTickFollowsItsEquations : Obligations.FilterTickFollowsItsEquations := by
  unfold Obligations.FilterTickFollowsItsEquations
  intro pa f t x e
  refine ⟨fun htype => ?_, fltOut_lowPass, fltOut_highPass, fltOut_bandPass, fun h1 h2 h3 => ?_⟩
  · have hon : fltOn t = true := (fltOn_iff t).2 htype
    exact ⟨sext32_fltAdvance_low hon, sext32_fltAdvance_band hon, fltAdvance_cType pa f t x e,
      fltAdvance_cEnvDepth pa f t x e⟩
  · have hoff : fltOn t = false := by simp [fltOn, h1, h2, h3]
    exact ⟨fltOut_off hoff, fltAdvance_off pa f t x e hoff⟩

end Sys2Proof.Machine
end

section
/-! PROOF. The output stage (45_voice_mix.md R224). The clip puts the sample in the Q15 range, and the
output gain, at most unity, keeps it there. -/

namespace Sys2Proof.Machine

theorem clamp_eq_min_max {lo hi : Int} (v : Int) (h : lo ≤ hi) :
    clamp v lo hi = min (max v lo) hi := by
  unfold clamp
  split_ifs <;> omega

theorem outputStage_eq (keyLevel : BitVec 16) (drive outGain : Param) (y : Int) :
    outputStage keyLevel drive outGain y =
      min (max (y * (keyLevel.toNat : Int) / 32768 * (4096 + (drive.toNat : Int)) / 4096) (-32767))
        32767 * ((min outGain.toNat 32768 : Nat) : Int) / 32768 := by
  rw [← clamp_eq_min_max _ (by decide)]
  rfl

theorem outputStage_range (keyLevel : BitVec 16) (drive outGain : Param) (y : Int) :
    -32767 ≤ outputStage keyLevel drive outGain y ∧
      outputStage keyLevel drive outGain y ≤ 32767 := by
  have hgain := u115_le outGain
  exact asr_gain_range (clamp_range _ (by decide)) ⟨by omega, by omega⟩

theorem outputStage_of_outGain_zero (keyLevel : BitVec 16) (drive : Param) (y : Int) :
    outputStage keyLevel drive 0#16 y = 0 := by
  simp [outputStage]

theorem outputStage_of_keyLevel_zero (drive outGain : Param) (y : Int) :
    outputStage 0#16 drive outGain y = 0 := by
  have hclip : clamp 0 (-32767) 32767 = 0 := by decide
  simp [outputStage, hclip]

/-- Velocity and output gain at unity and no drive leave the clip alone. -/
theorem outputStage_of_unity (y : Int) :
    outputStage 0x8000#16 0#16 0x8000#16 y = clamp y (-32767) 32767 := by
  have hvel : asr (y * (0x8000#16 : BitVec 16).toNat) 15 = y := asr_mul_unity y
  have hdrive : asr (y * (4096 + (zext16 0#16 : Int))) 12 = y :=
    Int.mul_ediv_cancel y (by decide)
  have hgain : u115 0x8000#16 = 32768 := by decide
  dsimp only [outputStage]
  rw [hvel, hdrive, hgain]
  exact asr_mul_unity _

theorem tickOut_of_outGain_zero {r : Regs} (h : paRead r.pa outGainIdx = 0#16) :
    tickOut r = 0 := by
  rw [tickOut, h, outputStage_of_outGain_zero]

theorem tickOut_of_keyLevel_zero {r : Regs} (h : r.keyLevel = 0#16) : tickOut r = 0 := by
  rw [tickOut, h, outputStage_of_keyLevel_zero]

theorem tickOut_of_unity {r : Regs} (hkey : r.keyLevel = 0x8000#16)
    (hdrive : paRead r.pa driveIdx = 0#16) (hgain : paRead r.pa outGainIdx = 0x8000#16) :
    tickOut r = clamp (tickY r) (-32767) 32767 := by
  rw [tickOut, hkey, hdrive, hgain, outputStage_of_unity]

/-- Settles O57: the formula, the range and the three special cases are those of the output stage. -/
theorem outputSampleIsClipped : Obligations.OutputSampleIsClipped := by
  unfold Obligations.OutputSampleIsClipped
  intro r
  refine ⟨outputStage_eq .., (outputStage_range ..).1, (outputStage_range ..).2, ?_, ?_⟩
  · rintro (hgain | hkey)
    · exact tickOut_of_outGain_zero hgain
    · exact tickOut_of_keyLevel_zero hkey
  · intro hkey hdrive hgain
    rw [← clamp_eq_min_max _ (by decide)]
    exact tickOut_of_unity hkey hdrive hgain

end Sys2Proof.Machine
end

section
/-! PROOF. What a tick writes (45_voice_mix.md R228): one frame lemma per part of the tick. -/

namespace Sys2Proof.Machine

/-- An envelope's tick writes its level and its stage (42_envelope.md R166). -/
theorem envTick_frame (e : Env) : { envTick e with level := e.level, stage := e.stage } = e := by
  simp only [envTick_incA, envTick_decD, envTick_sTarget, envTick_nR, envTick_decR]

/-- A filter's tick writes its two state variables (44_filter.md R197). -/
theorem fltAdvance_frame (pa : Vector Param 128) (f : Fin 2) (t : Flt) (x e : Int) :
    { fltAdvance pa f t x e with low := t.low, band := t.band } = t := by
  simp only [fltAdvance_cType, fltAdvance_cEnvDepth]

/-- Each filter is stepped once, on an input of its own (45_voice_mix.md R221). -/
theorem tickFlt_get (r : Regs) (f : Fin 2) :
    ∃ x e, (tickFlt r).get f = fltAdvance r.pa f (r.flt.get f) x e := by
  match f with
  | 0 => exact ⟨_, _, rfl⟩
  | 1 => exact ⟨_, _, rfl⟩

theorem tickFlt_get_frame (r : Regs) (f : Fin 2) :
    { (tickFlt r).get f with low := (r.flt.get f).low, band := (r.flt.get f).band } =
      r.flt.get f := by
  obtain ⟨x, e, h⟩ := tickFlt_get r f
  rw [h, fltAdvance_frame]

theorem tickFlt_get_off {r : Regs} {f : Fin 2} (hoff : fltOn (r.flt.get f) = false) :
    (tickFlt r).get f = r.flt.get f := by
  obtain ⟨x, e, h⟩ := tickFlt_get r f
  rw [h, fltAdvance_off _ _ _ _ _ hoff]

theorem tickRegs_env_get (r : Regs) (i : Fin 3) :
    (tickRegs r).env.get i = envTick (r.env.get i) := by
  rw [tickRegs_env, Three.get_map]

theorem tickRegs_osc_get_frame (r : Regs) (i : Fin 3) :
    { (tickRegs r).osc.get i with phase := (r.osc.get i).phase } = r.osc.get i := by
  rw [tickRegs_osc, Three.get_ofFn]
  rfl

/-- Settles O58: the registers by the frame lemma of each part, the buffer by those of the
accumulate. -/
theorem tickWritesExactly : Obligations.TickWritesExactly := by
  unfold Obligations.TickWritesExactly
  intro s hwf
  have henv (i : Fin 3) : (voiceTick s).regs.env.get i = envTick (s.regs.env.get i) :=
    tickRegs_env_get s.regs i
  refine ⟨rfl, tickRegs_osc_get_frame s.regs, fun i => ⟨henv i, ?_⟩, tickFlt_get_frame s.regs,
    fun f hoff => tickFlt_get_off hoff, BitVec.toNat_add _ _, rfl,
    Memory.toNat_readWord_accumulate hwf _ _, fun a ha => Memory.readByte_accumulate hwf _ _ ha,
    ⟨rfl, rfl, rfl⟩, Memory.accumulate_wf hwf _ _⟩
  rw [henv, envTick_frame]

end Sys2Proof.Machine
end

section
/-! PROOF. No step faults or is refused (60_exceptions.md R235). -/

namespace Sys2Proof.Machine

/-- Every step has a next state: one that accepts a command because every command has one, any other
because it ends in a state of its own. -/
theorem step_eq_next (s : State) : ∃ t, step s = .next t := by
  unfold step
  cases s.inputs with
  | nil => exact ⟨_, rfl⟩
  | cons i rest =>
    cases i with
    | command w =>
      by_cases hrun : rendering s
      · exact ⟨_, if_pos hrun⟩
      · obtain ⟨t, ht⟩ := exec_eq_next (decode w) { s with inputs := rest }
        exact ⟨t, (if_neg hrun).trans ht⟩
    | pset idx val => exact ⟨_, rfl⟩
    | bufferWrite addr val =>
      by_cases hmay : mayWrite s addr
      · exact ⟨_, if_pos hmay⟩
      · exact ⟨_, if_neg hmay⟩
    | reset => exact ⟨_, rfl⟩
    | pause => exact ⟨_, rfl⟩
    | await => exact ⟨_, rfl⟩

/-- Settles O11: `Fault` has no constructor, and every step and every command has a next state. -/
theorem nothingFaultsOrIsRefused : Obligations.NothingFaultsOrIsRefused := by
  unfold Obligations.NothingFaultsOrIsRefused
  exact ⟨nofun, step_eq_next, exec_eq_next⟩

end Sys2Proof.Machine
end

section
/-! PROOF. Reset (70_reset_and_hazards.md R255): the reset value of every register, and that an IDLE
voice stays IDLE until a START. -/

namespace Sys2Proof

/-! A register array whose entries are all the same. -/

theorem Three.get_same {α : Type} (a : α) (i : Fin 3) : (Three.mk a a a).get i = a := by
  match i with
  | 0 => rfl
  | 1 => rfl
  | 2 => rfl

theorem Two.get_same {α : Type} (a : α) (f : Fin 2) : (Two.mk a a).get f = a := by
  match f with
  | 0 => rfl
  | 1 => rfl

namespace Machine

theorem step_of_reset {s : State} {rest : List Input} (h : s.inputs = .reset :: rest) :
    step s = .next (resetStep { s with inputs := rest }) := by
  rw [step, h]

/-! No part of a step but START takes the voice out of IDLE (10_state.md R31). -/

theorem endBlock_keeps_idle {s : State} (hidle : s.regs.vstate = .idle) :
    (endBlock s).regs.vstate = .idle := by
  rcases endBlock_cases s with ⟨-, h⟩ | ⟨-, h⟩ <;> rw [h]
  · rfl
  · exact hidle

theorem renderTick_keeps_idle {s : State} (hidle : s.regs.vstate = .idle) :
    (renderTick s).regs.vstate = .idle := by
  rcases renderTick_cases s with ⟨-, h⟩ | ⟨-, h⟩ <;> rw [h]
  · exact endBlock_keeps_idle hidle
  · exact hidle

theorem unitStep_keeps_idle {s : State} (hidle : s.regs.vstate = .idle) :
    (unitStep s).regs.vstate = .idle := by
  unfold unitStep
  split
  · exact hidle
  · exact renderTick_keeps_idle hidle

/-- A kill leaves the voice IDLE, whatever it was (40_commands.md R123). -/
theorem killVoice_vstate (s : State) : (killVoice s).regs.vstate = .idle := by
  rcases killVoice_cases s with ⟨hidle, h⟩ | ⟨-, h⟩ <;> rw [h]
  · exact hidle
  · rfl

theorem exec_keeps_idle_or_start {i : Instr} {s t : State} (h : exec i s = .next t)
    (hidle : s.regs.vstate = .idle) :
    t.regs.vstate = .idle ∨ ∃ note vel pw, i = .start note vel pw := by
  cases i with
  | nop => cases h; exact .inl hidle
  | canplay sound => cases h; exact .inl hidle
  | start note vel pw => exact .inr ⟨note, vel, pw, rfl⟩
  | stop tail =>
    obtain rfl | rfl := tail_cases tail
    · cases h; exact .inl (killVoice_vstate s)
    · rw [exec_stop_tail, releaseVoice_of_idle hidle] at h; cases h; exact .inl hidle
  | pwheel pw => cases h; exact .inl hidle
  | ctrl id val => cases h; exact .inl hidle
  | render start num => rw [exec_render_of_idle hidle] at h; cases h; exact .inl hidle
  | reserved7 => cases h; exact .inl hidle

theorem step_keeps_idle_or_start {s t : State} (hidle : s.regs.vstate = .idle)
    (h : step s = .next t) : t.regs.vstate = .idle ∨
      ∃ w rest note vel pw, s.inputs = .command w :: rest ∧ decode w = .start note vel pw := by
  rcases step_cases h with ⟨-, rfl⟩ | ⟨w, rest, -, -, rfl⟩ | ⟨w, rest, hin, -, hexec⟩ |
    ⟨idx, val, rest, -, rfl⟩ | ⟨addr, val, rest, -, -, rfl⟩ | ⟨addr, val, rest, -, -, rfl⟩ |
    ⟨rest, -, rfl⟩ | ⟨rest, -, rfl⟩ | ⟨rest, -, -, rfl⟩ | ⟨rest, -, -, rfl⟩
  · exact .inl (unitStep_keeps_idle hidle)
  · exact .inl (unitStep_keeps_idle hidle)
  · rcases exec_keeps_idle_or_start hexec hidle with hstay | ⟨note, vel, pw, hdec⟩
    · exact .inl hstay
    · exact .inr ⟨w, rest, note, vel, pw, hin, hdec⟩
  · exact .inl hidle
  · exact .inl hidle
  · exact .inl (unitStep_keeps_idle hidle)
  · exact .inl rfl
  · exact .inl (unitStep_keeps_idle hidle)
  · exact .inl (unitStep_keeps_idle hidle)
  · exact .inl hidle

/-- Settles O7: the step of a reset is `resetStep`, an IDLE voice ignores RENDER, and of the steps only
a START's takes it out of IDLE. -/
theorem resetPutsEveryRegisterAtItsResetValue :
    Obligations.ResetPutsEveryRegisterAtItsResetValue := by
  unfold Obligations.ResetPutsEveryRegisterAtItsResetValue
  refine ⟨fun s rest hin => ⟨_, step_of_reset hin, rfl, rfl, rfl, rfl, rfl, rfl, rfl, rfl, rfl,
      fun i => Three.get_same Osc.reset i, fun i => Three.get_same Lfo.reset i,
      fun i => Three.get_same Env.reset i, fun f => Two.get_same Flt.reset f, rfl, paRead_reset,
      statusWord_reset, rfl, fun _ => rfl⟩,
    fun u start num hidle => exec_render_of_idle hidle start num,
    fun u u' hidle hstep => step_keeps_idle_or_start hidle hstep⟩

end Machine
end Sys2Proof
end

section
/-! PROOF. The operands of a command word as numbers (30_encoding.md R103, R111). -/

namespace Sys2Proof

/-- A field of a word as the quotient and remainder of its number. -/
theorem field_toNat (w : Word) (start len : Nat) :
    (w.extractLsb' start len).toNat = w.toNat / 2 ^ start % 2 ^ len := by
  rw [BitVec.extractLsb'_toNat, Nat.shiftRight_eq_div_pow]

/-- A field that begins at bit 0. -/
theorem lowField_toNat (w : Word) (len : Nat) :
    (w.extractLsb' 0 len).toNat = w.toNat % 2 ^ len := by
  rw [field_toNat, pow_zero, Nat.div_one]

/-- Settles O1: the decoder after the encoder, which was proved command by command. -/
theorem decodeOfEncodeIsTheCommand : Obligations.DecodeOfEncodeIsTheCommand := by
  unfold Obligations.DecodeOfEncodeIsTheCommand
  exact decode_encode

/-- Settles O4: row by row, each operand is a field, and a field is its quotient. -/
theorem operandsAreTheFieldsOfTheWord : Obligations.OperandsAreTheFieldsOfTheWord := by
  unfold Obligations.OperandsAreTheFieldsOfTheWord
  intro w
  rcases opcode_cases (opcodeOf w) with h | h | h | h | h | h | h | h
  · rw [decode_eq_nop h]; trivial
  · rw [decode_eq_canplay h]; exact lowField_toNat w 8
  · rw [decode_eq_start h]; exact ⟨field_toNat w 22 7, field_toNat w 14 8, lowField_toNat w 14⟩
  · rw [decode_eq_stop h]; exact lowField_toNat w 1
  · rw [decode_eq_pwheel h]; exact lowField_toNat w 14
  · rw [decode_eq_ctrl h]; exact ⟨field_toNat w 7 7, lowField_toNat w 7⟩
  · rw [decode_eq_render h]; exact ⟨field_toNat w 13 16, lowField_toNat w 13⟩
  · rw [decode_eq_reserved7 h]; trivial

/-- Settles O5: eight closed words, evaluated. -/
theorem workedWordsDecode : Obligations.WorkedWordsDecode := by
  unfold Obligations.WorkedWordsDecode
  decide

end Sys2Proof
end

section
/-! PROOF. The envelope over many ticks (42_envelope.md R163, R166, R170). While a stage lasts, a
tick moves the level by the stage's step and writes nothing else; so a stage is a run of levels,
whose length is the `ceil_div` of the way and the step. -/

namespace Sys2Proof.Machine

/-! Levels (42_envelope.md R167). -/

/-- The envelope at another level. -/
def Env.atLevel (e : Env) (l : Nat) : Env := { e with level := BitVec.ofNat 32 l }

@[simp] theorem Env.atLevel_incA (e : Env) (l : Nat) : (e.atLevel l).incA = e.incA := rfl
@[simp] theorem Env.atLevel_decD (e : Env) (l : Nat) : (e.atLevel l).decD = e.decD := rfl
@[simp] theorem Env.atLevel_sTarget (e : Env) (l : Nat) : (e.atLevel l).sTarget = e.sTarget := rfl
@[simp] theorem Env.atLevel_decR (e : Env) (l : Nat) : (e.atLevel l).decR = e.decR := rfl
@[simp] theorem Env.atLevel_atLevel (e : Env) (l l' : Nat) :
    (e.atLevel l).atLevel l' = e.atLevel l' := rfl

@[simp] theorem Env.atLevel_self (e : Env) : e.atLevel e.level.toNat = e := by
  rw [Env.atLevel, BitVec.ofNat_toNat, BitVec.setWidth_eq]

theorem Env.atLevel_toNat (e : Env) {l : Nat} (h : l ≤ 2147483648) :
    (e.atLevel l).level.toNat = l :=
  Nat.mod_eq_of_lt (by omega)

theorem envOut_eq (e : Env) : envOut e = ((e.level.toNat / 65536 : Nat) : Int) := rfl

theorem envOut_range {e : Env} (h : e.level.toNat ≤ 2147483648) :
    0 ≤ envOut e ∧ envOut e ≤ 32768 := by
  rw [envOut_eq]
  omega

/-! The ticks that keep the stage (42_envelope.md R166); those that leave it have their equations
beside key-off. -/

theorem envTick_of_attack_rising {e : Env} (hstage : e.stage = .attack)
    (h : e.level.toNat + e.incA.toNat < 2147483648) :
    envTick e = e.atLevel (e.level.toNat + e.incA.toNat) := by
  have hbelow : ¬(e.level.toNat : Int) + e.incA.toNat ≥ Config.lMax := by
    rw [Config.lMax]
    omega
  have hsum : BitVec.ofInt 32 ((e.level.toNat : Int) + e.incA.toNat) =
      BitVec.ofNat 32 (e.level.toNat + e.incA.toNat) := by
    rw [← Int.natCast_add, BitVec.ofInt_natCast]
  unfold envTick
  rw [hstage, Env.atLevel, ← hsum, hstage]
  exact if_neg hbelow

theorem ofInt_sub_of_le {a b : Nat} (h : b ≤ a) :
    BitVec.ofInt 32 ((a : Int) - b) = BitVec.ofNat 32 (a - b) := by
  rw [← Int.natCast_sub h, BitVec.ofInt_natCast]

theorem envTick_of_decay_falling {e : Env} (hstage : e.stage = .decay)
    (h : e.sTarget.toNat + e.decD.toNat < e.level.toNat) :
    envTick e = e.atLevel (e.level.toNat - e.decD.toNat) := by
  unfold envTick
  rw [hstage, Env.atLevel, ← ofInt_sub_of_le (by omega), hstage]
  exact if_neg (by omega)

theorem envTick_of_release_falling {e : Env} (hstage : e.stage = .release)
    (h : e.decR.toNat < e.level.toNat) :
    envTick e = e.atLevel (e.level.toNat - e.decR.toNat) := by
  unfold envTick
  rw [hstage, Env.atLevel, ← ofInt_sub_of_le h.le, hstage]
  exact if_neg (by omega)

theorem envTick_of_idle {e : Env} (hstage : e.stage = .idle) : envTick e = envKill e := by
  unfold envTick
  rw [hstage, envKill]

/-- Everything a tick can do to an envelope, thresholds included (42_envelope.md R166). -/
theorem envTick_cases (e : Env) :
    (e.stage = .attack ∧ 2147483648 ≤ e.level.toNat + e.incA.toNat ∧
      envTick e = { e with level := 0x80000000#32, stage := .decay }) ∨
    (e.stage = .attack ∧ e.level.toNat + e.incA.toNat < 2147483648 ∧
      envTick e = e.atLevel (e.level.toNat + e.incA.toNat)) ∨
    (e.stage = .decay ∧ e.level.toNat ≤ e.sTarget.toNat + e.decD.toNat ∧
      envTick e = { e with level := e.sTarget, stage := .sustain }) ∨
    (e.stage = .decay ∧ e.sTarget.toNat + e.decD.toNat < e.level.toNat ∧
      envTick e = e.atLevel (e.level.toNat - e.decD.toNat)) ∨
    (e.stage = .sustain ∧ envTick e = e) ∨
    (e.stage = .release ∧ e.level.toNat ≤ e.decR.toNat ∧ envTick e = envKill e) ∨
    (e.stage = .release ∧ e.decR.toNat < e.level.toNat ∧
      envTick e = e.atLevel (e.level.toNat - e.decR.toNat)) ∨
    (e.stage = .idle ∧ envTick e = envKill e) := by
  cases hstage : e.stage with
  | attack =>
    rcases Nat.lt_or_ge (e.level.toNat + e.incA.toNat) 2147483648 with h | h
    · exact .inr (.inl ⟨rfl, h, envTick_of_attack_rising hstage h⟩)
    · exact .inl ⟨rfl, h, envTick_of_attack_done hstage h⟩
  | decay =>
    rcases Nat.lt_or_ge (e.sTarget.toNat + e.decD.toNat) e.level.toNat with h | h
    · exact .inr (.inr (.inr (.inl ⟨rfl, h, envTick_of_decay_falling hstage h⟩)))
    · exact .inr (.inr (.inl ⟨rfl, h, envTick_of_decay_done hstage h⟩))
  | sustain => exact .inr (.inr (.inr (.inr (.inl ⟨rfl, envTick_of_sustain hstage⟩))))
  | release =>
    rcases Nat.lt_or_ge e.decR.toNat e.level.toNat with h | h
    · exact .inr (.inr (.inr (.inr (.inr (.inr (.inl
        ⟨rfl, h, envTick_of_release_falling hstage h⟩))))))
    · exact .inr (.inr (.inr (.inr (.inr (.inl ⟨rfl, h, envTick_of_release_done hstage h⟩)))))
  | idle => exact .inr (.inr (.inr (.inr (.inr (.inr (.inr ⟨rfl, envTick_of_idle hstage⟩))))))

/-- A tick keeps the value sets of an envelope (10_state.md R42, 40_commands.md R135). -/
theorem Env.Inv.envTick {e : Env} (h : e.Inv) : (envTick e).Inv := by
  have hlevel := h.level_le
  rcases envTick_cases e with ⟨-, -, ht⟩ | ⟨hs, hl, ht⟩ | ⟨-, -, ht⟩ | ⟨hs, hl, ht⟩ | ⟨-, ht⟩ |
    ⟨-, -, ht⟩ | ⟨hs, hl, ht⟩ | ⟨-, ht⟩ <;> rw [ht]
  · exact { h with level_le := le_rfl, idle_zero := nofun }
  · exact { h with
      level_le := (e.atLevel_toNat hl.le).le.trans hl.le
      idle_zero := fun hidle => by cases hs.symm.trans hidle }
  · exact { h with level_le := h.sTarget_le, idle_zero := nofun }
  · exact { h with
      level_le := by rw [e.atLevel_toNat (by omega)]; omega
      idle_zero := fun hidle => by cases hs.symm.trans hidle }
  · exact h
  · exact { h with level_le := Nat.zero_le _, idle_zero := fun _ => rfl }
  · exact { h with
      level_le := by rw [e.atLevel_toNat (by omega)]; omega
      idle_zero := fun hidle => by cases hs.symm.trans hidle }
  · exact { h with level_le := Nat.zero_le _, idle_zero := fun _ => rfl }

/-- Settles O47: the equation of each stage and threshold; the level stays at most full scale, so
the output is a gain. -/
theorem envelopeTickFollowsItsStage : Obligations.EnvelopeTickFollowsItsStage := by
  unfold Obligations.EnvelopeTickFollowsItsStage
  intro e he
  have hlevel := he.level_le
  obtain ⟨hout0, hout1⟩ := envOut_range he.envTick.level_le
  refine ⟨fun hs => ⟨fun h => ?_, fun h => ?_⟩, fun hs => ⟨fun h => ?_, fun h => ?_⟩,
    envTick_of_sustain, fun hs => ⟨fun h => ?_, fun h => ?_⟩, fun hs => ?_, envTick_frame e,
    envOut_eq _, hout0, hout1⟩
  · rw [envTick_of_attack_done hs h]
    exact ⟨rfl, rfl⟩
  · rw [envTick_of_attack_rising hs h]
    exact ⟨e.atLevel_toNat h.le, hs⟩
  · rw [envTick_of_decay_done hs h]
    exact ⟨rfl, rfl⟩
  · rw [envTick_of_decay_falling hs h]
    exact ⟨e.atLevel_toNat (by omega), hs⟩
  · rw [envTick_of_release_done hs h]
    exact ⟨rfl, rfl⟩
  · rw [envTick_of_release_falling hs h]
    exact ⟨e.atLevel_toNat (by omega), hs⟩
  · rw [envTick_of_idle hs]
    exact ⟨rfl, rfl⟩

/-! The length of a stage (42_envelope.md R170). -/

theorem lt_ceilDiv_iff {a b q : Nat} (hb : 1 ≤ b) : q < ceilDiv a b ↔ q * b < a := by
  rw [← Nat.not_le, ceilDiv_le_iff hb, Nat.not_le]

theorem le_ceilDiv_mul {a b : Nat} (hb : 1 ≤ b) : a ≤ ceilDiv a b * b :=
  (ceilDiv_le_iff hb).1 le_rfl

/-- Way and step of a stage that has a way to go: the ticks before the last, and the last. -/
theorem exists_ceilDiv_eq_succ {a b : Nat} (ha : 0 < a) (hb : 1 ≤ b) :
    ∃ m, ceilDiv a b = m + 1 ∧ m * b < a ∧ a ≤ (m + 1) * b := by
  obtain ⟨m, hm⟩ : ∃ m, ceilDiv a b = m + 1 :=
    Nat.exists_eq_succ_of_ne_zero (by rw [ne_eq, ceilDiv_eq_zero_iff hb]; omega)
  exact ⟨m, hm, (lt_ceilDiv_iff hb).1 (by omega), hm ▸ le_ceilDiv_mul hb⟩

/-- A step latched for `n` ticks covers its way within `n` ticks. -/
theorem ceilDiv_ceilDiv_le {a n : Nat} (hn : 1 ≤ n) (hstep : 1 ≤ ceilDiv a n) :
    ceilDiv a (ceilDiv a n) ≤ n := by
  rw [ceilDiv_le_iff hstep, Nat.mul_comm]
  exact le_ceilDiv_mul hn

/-- A run of ticks through known envelopes. -/
theorem envTick_iterate_of_run {run : Nat → Env} {n : Nat}
    (hstep : ∀ k < n, envTick (run k) = run (k + 1)) {k : Nat} (hk : k ≤ n) :
    envTick^[k] (run 0) = run k := by
  induction k with
  | zero => rfl
  | succ k ih => rw [Function.iterate_succ_apply', ih (by omega), hstep k hk]

/-- The attack from level 0, while it lasts: `k` ticks are `k` steps. -/
theorem envTick_iterate_attack {e : Env} (hstage : e.stage = .attack) (hlevel : e.level = 0#32)
    {k : Nat} (hk : k * e.incA.toNat < 2147483648) :
    envTick^[k] e = e.atLevel (k * e.incA.toNat) := by
  have hstart : e = e.atLevel (0 * e.incA.toNat) := by
    rw [Nat.zero_mul, ← Env.atLevel_self e, hlevel]
    rfl
  conv_lhs => rw [hstart]
  refine envTick_iterate_of_run (run := fun k => e.atLevel (k * e.incA.toNat))
    (fun j hj => ?_) le_rfl
  have hnext : (j + 1) * e.incA.toNat < 2147483648 :=
    (Nat.mul_le_mul_right _ hj).trans_lt hk
  rw [Nat.succ_mul] at hnext ⊢
  have hnow := e.atLevel_toNat (l := j * e.incA.toNat) (by omega)
  rw [envTick_of_attack_rising (e := e.atLevel _) hstage (by rwa [hnow]), hnow]
  rfl

/-- The decay from full scale, while it lasts. -/
theorem envTick_iterate_decay {e : Env} (hstage : e.stage = .decay)
    (hlevel : e.level.toNat = 2147483648) {k : Nat}
    (hk : k * e.decD.toNat < 2147483648 - e.sTarget.toNat ∨ k = 0) :
    envTick^[k] e = e.atLevel (2147483648 - k * e.decD.toNat) := by
  have hstart : e = e.atLevel (2147483648 - 0 * e.decD.toNat) := by
    rw [Nat.zero_mul, Nat.sub_zero, ← hlevel, Env.atLevel_self]
  conv_lhs => rw [hstart]
  refine envTick_iterate_of_run (run := fun k => e.atLevel (2147483648 - k * e.decD.toNat))
    (fun j hj => ?_) le_rfl
  have hnext : (j + 1) * e.decD.toNat < 2147483648 - e.sTarget.toNat :=
    (Nat.mul_le_mul_right _ hj).trans_lt (hk.resolve_right (by omega))
  rw [Nat.succ_mul] at hnext ⊢
  have hnow := e.atLevel_toNat (l := 2147483648 - j * e.decD.toNat) (by omega)
  rw [envTick_of_decay_falling (e := e.atLevel _) hstage
      (by rw [hnow, Env.atLevel_decD, Env.atLevel_sTarget]; omega), hnow,
    Env.atLevel_atLevel, Env.atLevel_decD, Nat.sub_sub]

/-- The release, while it lasts. -/
theorem envTick_iterate_release {e : Env} (hstage : e.stage = .release)
    (hlevel : e.level.toNat ≤ 2147483648) {k : Nat}
    (hk : k * e.decR.toNat < e.level.toNat) :
    envTick^[k] e = e.atLevel (e.level.toNat - k * e.decR.toNat) := by
  have hstart : e = e.atLevel (e.level.toNat - 0 * e.decR.toNat) := by
    rw [Nat.zero_mul, Nat.sub_zero, Env.atLevel_self]
  conv_lhs => rw [hstart]
  refine envTick_iterate_of_run (run := fun k => e.atLevel (e.level.toNat - k * e.decR.toNat))
    (fun j hj => ?_) le_rfl
  have hnext : (j + 1) * e.decR.toNat < e.level.toNat :=
    (Nat.mul_le_mul_right _ hj).trans_lt hk
  rw [Nat.succ_mul] at hnext ⊢
  have hnow := e.atLevel_toNat (l := e.level.toNat - j * e.decR.toNat) (by omega)
  rw [envTick_of_release_falling (e := e.atLevel _) hstage
      (by rw [hnow, Env.atLevel_decR]; omega), hnow, Env.atLevel_atLevel,
    Env.atLevel_decR, Nat.sub_sub]

/-- The release ends at tick `ceil_div(L, ENV_DEC_R)`. -/
theorem envTick_iterate_release_done {e : Env} (hstage : e.stage = .release)
    (hlevel : e.level.toNat ≤ 2147483648) (hpos : 0 < e.level.toNat) (hstep : 1 ≤ e.decR.toNat) :
    envTick^[ceilDiv e.level.toNat e.decR.toNat] e = envKill e := by
  obtain ⟨m, hm, hlast, hend⟩ := exists_ceilDiv_eq_succ hpos hstep
  rw [Nat.succ_mul] at hend
  rw [hm, Function.iterate_succ_apply', envTick_iterate_release hstage hlevel hlast,
    envTick_of_release_done (e := e.atLevel _) hstage
      (by rw [e.atLevel_toNat (by omega), Env.atLevel_decR]; omega)]
  rfl

/-- The attack reaches unity at tick `ceil_div(L_MAX, ENV_INC_A)`. -/
theorem envTick_iterate_attack_done {e : Env} (hstage : e.stage = .attack) (hlevel : e.level = 0#32)
    (hstep : 1 ≤ e.incA.toNat) :
    envTick^[ceilDiv 2147483648 e.incA.toNat] e =
      { e with level := 0x80000000#32, stage := .decay } := by
  obtain ⟨m, hm, hlast, hend⟩ := exists_ceilDiv_eq_succ (a := 2147483648) (by decide) hstep
  rw [Nat.succ_mul] at hend
  rw [hm, Function.iterate_succ_apply', envTick_iterate_attack hstage hlevel hlast,
    envTick_of_attack_done (e := e.atLevel _) hstage
      (by rwa [e.atLevel_toNat hlast.le, Env.atLevel_incA])]
  rfl

/-- The decay ends at the tick whose step would take the level to its target or below. -/
theorem envTick_iterate_decay_done {e : Env} (hstage : e.stage = .decay)
    (hlevel : e.level.toNat = 2147483648) {m : Nat}
    (hlast : m * e.decD.toNat < 2147483648 - e.sTarget.toNat ∨ m = 0)
    (hend : 2147483648 - e.sTarget.toNat ≤ (m + 1) * e.decD.toNat) :
    envTick^[m + 1] e = { e with level := e.sTarget, stage := .sustain } := by
  rw [Nat.succ_mul] at hend
  rw [Function.iterate_succ_apply', envTick_iterate_decay hstage hlevel hlast,
    envTick_of_decay_done (e := e.atLevel _) hstage
      (by rw [e.atLevel_toNat (by omega), Env.atLevel_sTarget, Env.atLevel_decD]; omega)]
  rfl

/-- A decay whose step was latched for `nD` ticks ends within them; with no way to go the step is 0
and one tick enters SUSTAIN. -/
theorem exists_decay_ticks {e : Env} {nD : Nat} (hstage : e.stage = .decay)
    (hlevel : e.level.toNat = 2147483648) (hnD : 1 ≤ nD)
    (hdec : e.decD.toNat = ceilDiv (2147483648 - e.sTarget.toNat) nD) :
    ∃ k, 1 ≤ k ∧ k ≤ nD ∧ envTick^[k] e = { e with level := e.sTarget, stage := .sustain } := by
  rcases Nat.eq_zero_or_pos (2147483648 - e.sTarget.toNat) with hway | hway
  · exact ⟨1, le_rfl, hnD, envTick_iterate_decay_done hstage hlevel (m := 0) (.inr rfl) (by omega)⟩
  · have hstep : 1 ≤ e.decD.toNat := by
      rw [hdec, Nat.one_le_iff_ne_zero, ne_eq, ceilDiv_eq_zero_iff hnD]
      omega
    obtain ⟨m, hm, hlast, hend⟩ := exists_ceilDiv_eq_succ hway hstep
    refine ⟨m + 1, by omega, ?_, envTick_iterate_decay_done hstage hlevel (.inl hlast) hend⟩
    rw [← hm, hdec]
    exact ceilDiv_ceilDiv_le hnD (hdec ▸ hstep)

/-! A released envelope never rises (42_envelope.md R170). -/

theorem envTick_of_released {e : Env} (h : e.stage = .release ∨ e.stage = .idle) :
    ((envTick e).stage = .release ∨ (envTick e).stage = .idle) ∧
      (envTick e).level.toNat ≤ e.level.toNat := by
  have hlt := e.level.isLt
  rcases h with hs | hs
  · rcases Nat.lt_or_ge e.decR.toNat e.level.toNat with hl | hl
    · rw [envTick_of_release_falling hs hl]
      refine ⟨.inl hs, ?_⟩
      rw [Env.atLevel, BitVec.toNat_ofNat]
      omega
    · rw [envTick_of_release_done hs hl]
      exact ⟨.inr rfl, Nat.zero_le _⟩
  · rw [envTick_of_idle hs]
    exact ⟨.inr rfl, Nat.zero_le _⟩

theorem envTick_iterate_released {e : Env} (h : e.stage = .release ∨ e.stage = .idle) (k : Nat) :
    (envTick^[k] e).stage = .release ∨ (envTick^[k] e).stage = .idle := by
  induction k with
  | zero => exact h
  | succ k ih =>
    rw [Function.iterate_succ_apply']
    exact (envTick_of_released ih).1

theorem envOut_iterate_released_le {e : Env} (h : e.stage = .release ∨ e.stage = .idle) (k : Nat) :
    envOut (envTick^[k + 1] e) ≤ envOut (envTick^[k] e) := by
  rw [Function.iterate_succ_apply']
  exact asr_mono (Int.ofNat_le.2 (envTick_of_released (envTick_iterate_released h k)).2) 16

/-- Settles O48: the key-off enters RELEASE with a step that covers the level within the latched
time; the level then falls step by step, and the tick after the last full step ends at IDLE. -/
theorem releaseEndsWithinTheReleaseTime : Obligations.ReleaseEndsWithinTheReleaseTime := by
  unfold Obligations.ReleaseEndsWithinTheReleaseTime
  intro e he hrun
  have hstage : (envKeyOff e).stage = .release := by rw [envKeyOff_of_running hrun]
  have hlevel := envKeyOff_level e
  have hle : (envKeyOff e).level.toNat ≤ 2147483648 := hlevel ▸ he.level_le
  refine ⟨fun hpos => ?_, fun hzero => ?_, fun k => envOut_iterate_released_le (.inl hstage) k⟩
  · have hdec := envKeyOff_decR_toNat hrun he.nR_pos
    have hstep : 1 ≤ (envKeyOff e).decR.toNat := by
      rw [hdec, Nat.one_le_iff_ne_zero, ne_eq, ceilDiv_eq_zero_iff he.nR_pos]
      omega
    refine ⟨fun k hk => ?_, ?_, ?_⟩
    · have hk' := (lt_ceilDiv_iff hstep).1 hk
      rw [envTick_iterate_release hstage hle (by rwa [hlevel]), Env.atLevel_toNat _ (by omega),
        hlevel]
      exact ⟨hstage, rfl⟩
    · have hdone := envTick_iterate_release_done hstage hle (by rwa [hlevel]) hstep
      rw [hlevel] at hdone
      rw [hdone, envKill_stage]
    · rw [hdec] at hstep ⊢
      exact ceilDiv_ceilDiv_le he.nR_pos hstep
  · rw [envTick_envKeyOff_of_level_le hrun (by rw [hzero]; exact Nat.zero_le _), envKill_stage]

/-- Settles O49: the attack's levels are the multiples of its step, and its last tick clips at full
scale; the decay's are those of its step below full scale, and its last tick lands on the target. -/
theorem attackAndDecayEndInTime : Obligations.AttackAndDecayEndInTime := by
  unfold Obligations.AttackAndDecayEndInTime
  refine ⟨fun e he hstage hlevel hinc => ?_, fun e nD he hstage hlevel hnD hdec => ?_⟩
  · have hstep : 1 ≤ e.incA.toNat :=
      Nat.one_le_iff_ne_zero.2 fun h => hinc (BitVec.eq_of_toNat_eq h)
    refine ⟨fun k hk => ?_, ?_, ?_, fun nA hnA hlatched => ?_⟩
    · have hk' := (lt_ceilDiv_iff hstep).1 hk
      rw [envTick_iterate_attack hstage hlevel hk']
      exact ⟨hstage, e.atLevel_toNat hk'.le⟩
    · rw [envTick_iterate_attack_done hstage hlevel hstep]
    · rw [envTick_iterate_attack_done hstage hlevel hstep]
      rfl
    · rw [hlatched] at hstep ⊢
      exact ceilDiv_ceilDiv_le hnA hstep
  · obtain ⟨k, hk1, hkn, hdone⟩ := exists_decay_ticks hstage hlevel hnD hdec
    exact ⟨k, hk1, hkn, by rw [hdone], by rw [hdone]⟩

/-! Key-on (42_envelope.md R163). -/

/-- The envelope after a key-on that latches `nA`, `nD`, `nR` ticks and the gain `sus`. -/
def latchEnv (nA nD sus nR : Nat) (e : Env) : Env :=
  { e with
    sTarget := BitVec.ofNat 32 (sus * 65536)
    incA := BitVec.ofNat 32 (ceilDiv 2147483648 nA)
    decD := BitVec.ofNat 32 (ceilDiv (2147483648 - sus * 65536) nD)
    nR := BitVec.ofNat 22 nR
    stage := .attack }

theorem envKeyOn_eq_of_enabled {pa : Vector Param 128} {i : Fin 3}
    (h : paRead pa (envEnableIdx i) ≠ 0#16) (e : Env) :
    envKeyOn pa i e =
      latchEnv (envTicks (paRead pa (envAttackIdx i))) (envTicks (paRead pa (envDecayIdx i)))
        (u115 (paRead pa (envSustainIdx i))) (envTicks (paRead pa (envReleaseIdx i))) e := by
  simp [envKeyOn, h, latchEnv, Config.lMax]

theorem envKeyOn_eq_of_disabled {pa : Vector Param 128} {i : Fin 3}
    (h : paRead pa (envEnableIdx i) = 0#16) (e : Env) :
    envKeyOn pa i e = latchEnv 1 1 32768 1 e := by
  simp [envKeyOn, h, latchEnv, Config.lMax]

/-- The tick counts that a time word can give (42_envelope.md R162). -/
theorem envTicks_range (t : Param) : 1 ≤ envTicks t ∧ envTicks t ≤ 3145680 := by
  have := t.isLt
  unfold envTicks zext16 Config.ticksPerMs
  omega

/-- Enabled or not, key-on latches counts and a gain in range. -/
theorem envKeyOn_eq_latchEnv (pa : Vector Param 128) (i : Fin 3) (e : Env) :
    ∃ nA nD sus nR, (1 ≤ nA ∧ nA ≤ 3145680) ∧ 1 ≤ nD ∧ sus ≤ 32768 ∧ (1 ≤ nR ∧ nR ≤ 3145680) ∧
      envKeyOn pa i e = latchEnv nA nD sus nR e := by
  by_cases h : paRead pa (envEnableIdx i) = 0#16
  · exact ⟨_, _, _, _, by decide, by decide, by decide, by decide, envKeyOn_eq_of_disabled h e⟩
  · exact ⟨_, _, _, _, envTicks_range _, (envTicks_range _).1, u115_le _, envTicks_range _,
      envKeyOn_eq_of_enabled h e⟩

/-! What is latched fits its register. -/

section
variable {nA nD sus nR : Nat} (e : Env)

theorem latchEnv_sTarget_toNat (h : sus ≤ 32768) :
    (latchEnv nA nD sus nR e).sTarget.toNat = sus * 65536 :=
  Nat.mod_eq_of_lt (by omega)

theorem latchEnv_incA_toNat (h : 1 ≤ nA) :
    (latchEnv nA nD sus nR e).incA.toNat = ceilDiv 2147483648 nA :=
  Nat.mod_eq_of_lt ((ceilDiv_le_self h).trans_lt (by decide))

theorem latchEnv_decD_toNat (h : 1 ≤ nD) :
    (latchEnv nA nD sus nR e).decD.toNat = ceilDiv (2147483648 - sus * 65536) nD :=
  Nat.mod_eq_of_lt ((ceilDiv_le_self h).trans_lt (by omega))

theorem latchEnv_nR_toNat (h : nR ≤ 3145680) : (latchEnv nA nD sus nR e).nR.toNat = nR :=
  Nat.mod_eq_of_lt (by omega)

end

/-- The longest attack has the step 683 (42_envelope.md R163). -/
theorem envKeyOn_ranges (pa : Vector Param 128) (i : Fin 3) (e : Env) :
    683 ≤ (envKeyOn pa i e).incA.toNat ∧ (envKeyOn pa i e).incA.toNat ≤ 2147483648 ∧
      (envKeyOn pa i e).decD.toNat ≤ 2147483648 ∧
      (envKeyOn pa i e).sTarget.toNat ≤ 2147483648 := by
  obtain ⟨nA, nD, sus, nR, ⟨hA, hA'⟩, hD, hsus, -, h⟩ := envKeyOn_eq_latchEnv pa i e
  rw [h, latchEnv_incA_toNat e hA, latchEnv_decD_toNat e hD, latchEnv_sTarget_toNat e hsus]
  exact ⟨(lt_ceilDiv_iff hA).2 (by omega), ceilDiv_le_self hA,
    (ceilDiv_le_self hD).trans (Nat.sub_le _ _), by omega⟩

theorem Env.Inv.envKeyOn {e : Env} (he : e.Inv) (pa : Vector Param 128) (i : Fin 3) :
    (envKeyOn pa i e).Inv := by
  obtain ⟨-, hinc, hdec, htarget⟩ := envKeyOn_ranges pa i e
  obtain ⟨nA, nD, sus, nR, -, -, hsus, ⟨hR, hR'⟩, h⟩ := envKeyOn_eq_latchEnv pa i e
  rw [h] at hinc hdec htarget ⊢
  exact { he with
    incA_le := hinc
    decD_le := hdec
    sTarget_le := htarget
    sTarget_mul := by rw [latchEnv_sTarget_toNat e hsus]; exact Nat.mul_mod_left _ _
    nR_pos := by rwa [latchEnv_nR_toNat e hR']
    nR_le := by rwa [latchEnv_nR_toNat e hR']
    idle_zero := nofun }

theorem Env.Inv.envKeyOff {e : Env} (he : e.Inv) : (envKeyOff e).Inv := by
  by_cases h : e.stage = .attack ∨ e.stage = .decay ∨ e.stage = .sustain
  · have hdec := (envKeyOff_decR_toNat h he.nR_pos).le.trans
      ((ceilDiv_le_self he.nR_pos).trans he.level_le)
    rw [envKeyOff_of_running h] at hdec ⊢
    exact { he with decR_le := hdec, idle_zero := nofun }
  · have hreleased : e.stage = .release ∨ e.stage = .idle := by
      cases hs : e.stage <;> simp_all
    rwa [envKeyOff_of_released hreleased]

theorem Env.Inv.envKill {e : Env} (he : e.Inv) : (envKill e).Inv :=
  { he with level_le := Nat.zero_le _, idle_zero := fun _ => rfl }

/-- Settles O45: the latched counts and gain by the enable word, and their ranges for either. -/
theorem keyOnLatchesTheEnvelopeWords : Obligations.KeyOnLatchesTheEnvelopeWords := by
  unfold Obligations.KeyOnLatchesTheEnvelopeWords
  intro pa i e
  refine ⟨rfl, rfl, rfl, fun hon => ?_, fun hoff => ?_, envKeyOn_ranges pa i e⟩
  · have hne : paRead pa (envEnableIdx i) ≠ 0#16 := fun h => hon (congrArg BitVec.toNat h)
    have hticks := fun t => (envTicks_range t).1
    rw [envKeyOn_eq_of_enabled hne, latchEnv_sTarget_toNat e (u115_le _),
      latchEnv_incA_toNat e (hticks _), latchEnv_decD_toNat e (hticks _),
      latchEnv_nR_toNat e (envTicks_range _).2]
    exact ⟨rfl, rfl, rfl, rfl⟩
  · rw [envKeyOn_eq_of_disabled (BitVec.eq_of_toNat_eq hoff)]
    exact ⟨rfl, rfl, rfl, rfl⟩

end Sys2Proof.Machine
end

section
/-! PROOF. What the commands that move a note write and leave (40_commands.md R122 to R126), and
what the ports do in a step of their own (20_memory.md R84, R88, 30_encoding.md R101). -/

namespace Sys2Proof.Machine

/-! PWHEEL and the wheel of a START (40_commands.md R124). -/

/-- Every wheel position fits the signed register (10_state.md R34). -/
theorem bendOf_toInt (pw : BitVec 14) : (bendOf pw).toInt = ((pw.toNat : Int) - 8192) / 16 := by
  have hlt := pw.isLt
  have hval : asr ((pw.toNat : Int) - 8192) 4 = ((pw.toNat : Int) - 8192) / 16 := rfl
  rw [bendOf, hval]
  exact BitVec.toInt_ofInt_eq_self (by decide) (by omega) (by omega)

theorem bendOf_range (pw : BitVec 14) :
    -512 ≤ (bendOf pw).toInt ∧ (bendOf pw).toInt ≤ 511 := by
  have hlt := pw.isLt
  rw [bendOf_toInt]
  omega

/-- Settles O23: one register is written, and its value is the wheel position's. -/
theorem pwheelWritesBendOnly : Obligations.PwheelWritesBendOnly := by
  unfold Obligations.PwheelWritesBendOnly
  refine ⟨fun pw s => ?_, fun s t h => ?_⟩
  · exact ⟨_, exec_pwheel pw s, bendOf_toInt pw, (bendOf_range pw).1, (bendOf_range pw).2, rfl,
      fun _ => rfl, rfl, rfl, rfl⟩
  · have hbelow : (bendOf 8191#14).toInt = -1 := by decide
    rw [exec_pwheel] at h
    cases h
    exact hbelow

/-! START (40_commands.md R122). -/

theorem keyLevelOf_toNat (vel : BitVec 8) : (keyLevelOf vel).toNat = min vel.toNat 128 * 256 :=
  Nat.mod_eq_of_lt (by omega)

/-- Everything the retrigger can do (40_commands.md R122). -/
theorem retrigger_cases (r : Regs) :
    (r.vstate = .idle ∧ retrigger r =
      { r with
        osc := r.osc.map fun o => { o with phase := 0 }
        lfo := r.lfo.map fun l => { l with phase := 0 }
        flt := r.flt.map fun t => { t with low := 0, band := 0 } }) ∨
      (r.vstate ≠ .idle ∧ retrigger r = r) := by
  unfold retrigger
  by_cases h : r.vstate = .idle
  · exact .inl ⟨h, if_pos h⟩
  · exact .inr ⟨h, if_neg h⟩

/-- START's writes, the retrigger aside: the caches are loaded from the words as they stand. -/
theorem startRegs_eq (note : BitVec 7) (vel : BitVec 8) (pw : BitVec 14) (r : Regs) :
    startRegs note vel pw r =
      { r with
        note := note
        keyLevel := keyLevelOf vel
        bend := bendOf pw
        osc := Three.ofFn fun i => loadOsc r.pa i ((retrigger r).osc.get i)
        lfo := (retrigger r).lfo
        flt := Two.ofFn fun f => loadFlt r.pa f ((retrigger r).flt.get f)
        env := Three.ofFn fun i => envKeyOn r.pa i (r.env.get i)
        vstate := .sounding
        cleared := false } := by
  rcases retrigger_cases r with ⟨-, h⟩ | ⟨-, h⟩ <;> rw [startRegs, h] <;> rfl

/-- Settles O25: the writes of START by its equation. -/
theorem startSetsTheNote : Obligations.StartSetsTheNote := by
  unfold Obligations.StartSetsTheNote
  intro note vel pw s
  refine ⟨_, exec_start note vel pw s, ?_⟩
  rw [startRegs_eq]
  refine ⟨rfl, rfl, rfl, keyLevelOf_toNat vel, bendOf_toInt pw, fun i => ?_, fun f => ?_,
    fun i => ?_, rfl, rfl, rfl, rfl, rfl, rfl, fun _ => rfl, rfl, rfl, rfl⟩
  · simp only [Three.get_ofFn]
    exact ⟨rfl, rfl, rfl, rfl⟩
  · simp only [Two.get_ofFn]
    exact ⟨rfl, rfl⟩
  · exact Three.get_ofFn _ i

/-- Settles O26: loading the caches keeps phases and filter variables, so they are those that the
retrigger leaves. -/
theorem startRetriggersAnIdleVoiceOnly : Obligations.StartRetriggersAnIdleVoiceOnly := by
  unfold Obligations.StartRetriggersAnIdleVoiceOnly
  intro note vel pw s
  refine ⟨_, exec_start note vel pw s, ?_⟩
  rw [startRegs_eq]
  rcases retrigger_cases s.regs with ⟨hidle, h⟩ | ⟨hrun, h⟩
  · refine ⟨fun _ => ⟨fun i => ?_, fun f => ?_⟩, fun hne => absurd hidle hne⟩
    · simp [h]
    · simp [h]
  · refine ⟨fun he => absurd he hrun, fun _ => ⟨by rw [h], fun i => ?_, fun f => ?_, rfl⟩⟩
    · simp [h]
    · simp [h]

/-! STOP (40_commands.md R123). -/

/-- Settles O27: the release by cases of its guard. -/
theorem stopWithTailReleases : Obligations.StopWithTailReleases := by
  unfold Obligations.StopWithTailReleases
  intro s
  refine ⟨_, exec_stop_tail s, ?_⟩
  rcases releaseVoice_cases s with ⟨hs, h⟩ | ⟨hs, h⟩ <;> rw [h]
  · exact ⟨fun hne => absurd hs hne,
      fun _ => ⟨rfl, Three.get_map _ _, rfl, fun _ => rfl, rfl, rfl, rfl⟩⟩
  · exact ⟨fun _ => rfl, fun he => absurd he hs⟩

/-- Settles O28: the kill by cases of its guard; it leaves the voice IDLE, which RENDER ignores. -/
theorem stopWithoutTailKills : Obligations.StopWithoutTailKills := by
  unfold Obligations.StopWithoutTailKills
  refine ⟨fun s => ?_, fun s hinv hidle => ?_⟩
  · have hvoice := killVoice_vstate s
    refine ⟨_, exec_stop_kill s, hvoice, ?_⟩
    have hrender := fun start num => exec_render_of_idle hvoice start num
    rcases killVoice_cases s with ⟨hs, h⟩ | ⟨hs, h⟩ <;> rw [h] at hrender ⊢
    · exact ⟨Three.get_map _ _, fun hne => absurd hs hne, fun _ => ⟨rfl, rfl⟩, rfl, fun _ => rfl,
        rfl, rfl, hrender⟩
    · exact ⟨Three.get_map _ _, fun _ => ⟨rfl, rfl⟩, fun he => absurd he hs, rfl, fun _ => rfl,
        rfl, rfl, hrender⟩
  · rw [exec_stop_kill, killVoice_of_idle hinv.regs hidle]

/-! RENDER's own step (40_commands.md R126). -/

theorem exec_render_of_nothing {s : State} {num : BitVec 13}
    (h : s.regs.vstate = .idle ∨ num = 0#13) (start : BitVec 16) :
    exec (.render start num) s = .next s := by
  rw [exec_render, if_neg fun hboth => h.elim hboth.1 hboth.2]

theorem exec_render_of_block {s : State} {num : BitVec 13} (hvoice : s.regs.vstate ≠ .idle)
    (hnum : num ≠ 0#13) (start : BitVec 16) :
    exec (.render start num) s = .next (beginBlock start num s) := by
  rw [exec_render, if_pos ⟨hvoice, hnum⟩]

/-- Settles O29: either the step does nothing or it begins the block. -/
theorem renderBeginsABlock : Obligations.RenderBeginsABlock := by
  unfold Obligations.RenderBeginsABlock
  intro start num s
  by_cases h : s.regs.vstate = .idle ∨ num = 0#13
  · exact ⟨s, exec_render_of_nothing h start, fun _ => rfl,
      fun hvoice hnum => absurd h (not_or.2 ⟨hvoice, hnum⟩)⟩
  · obtain ⟨hvoice, hnum⟩ := not_or.1 h
    exact ⟨_, exec_render_of_block hvoice hnum start, fun hnothing => absurd hnothing h,
      fun _ _ => ⟨rfl, rfl, Three.get_ofFn _, Two.get_ofFn _, rfl, fun _ => rfl, rfl, rfl⟩⟩

/-! The ports (30_encoding.md R101, 20_memory.md R84, R88): the step of each input, by its guard. -/

section
variable {s : State} {rest : List Input}

theorem step_of_command {w : Word} (hin : s.inputs = .command w :: rest) (hrc : s.regs.rc = 0#13) :
    step s = exec (decode w) { s with inputs := rest } := by
  simp [step, hin, rendering, hrc]

theorem step_of_waiting_command {w : Word} (hin : s.inputs = .command w :: rest)
    (hrc : s.regs.rc ≠ 0#13) : step s = .next (unitStep s) := by
  simp [step, hin, rendering, hrc]

theorem step_of_pset {idx : BitVec 7} {val : Param} (hin : s.inputs = .pset idx val :: rest) :
    step s = .next (psetStep idx val { s with inputs := rest }) := by
  simp [step, hin]

theorem step_of_bufferWrite {addr : BitVec 16} {v : Word}
    (hin : s.inputs = .bufferWrite addr v :: rest) (hmay : mayWrite s addr = true) :
    step s = .next (bufferStep addr v { s with inputs := rest }) := by
  simp [step, hin, hmay]

theorem step_of_waiting_bufferWrite {addr : BitVec 16} {v : Word}
    (hin : s.inputs = .bufferWrite addr v :: rest) (hmay : mayWrite s addr = false) :
    step s = .next (unitStep s) := by
  simp [step, hin, hmay]

theorem step_of_pause (hin : s.inputs = .pause :: rest) :
    step s = .next (unitStep { s with inputs := rest }) := by
  simp [step, hin]

theorem step_of_await (hin : s.inputs = .await :: rest) :
    step s = .next (awaitStep rest s) := by
  simp [step, hin]

theorem step_of_no_input (hin : s.inputs = []) : step s = .next (unitStep s) := by
  simp [step, hin]

end

/-- A step that is a tick takes 1 from RC. -/
theorem unitStep_rc_toNat {s : State} (h : s.regs.rc ≠ 0#13) :
    (unitStep s).regs.rc.toNat + 1 = s.regs.rc.toNat := by
  rw [unitStep_of_running h]
  exact renderTick_rc_toNat h

/-- Settles O10: the command port by its guard, and `withFetchWord` meets the guard. -/
theorem stepRunsTheDecodedCommand : Obligations.StepRunsTheDecodedCommand := by
  unfold Obligations.StepRunsTheDecodedCommand
  refine ⟨fun s w rest hin hrc => step_of_command hin hrc, fun s w rest hin hrc =>
    ⟨_, step_of_waiting_command hin hrc, unitStep_inputs s, unitStep_rc_toNat hrc⟩, fun s w => ?_⟩
  have hword : BitVec.ofNat 32 (w.toNat % 2 ^ 32) = w := by
    rw [Nat.mod_eq_of_lt w.isLt, BitVec.ofNat_toNat, BitVec.setWidth_eq]
  rw [State.withFetchWord, hword]
  exact step_of_command (presentCommand_inputs w s) rfl

/-- Settles O13: the parameter port takes its input in any state. -/
theorem psetWritesOneWholeWord : Obligations.PsetWritesOneWholeWord := by
  unfold Obligations.PsetWritesOneWholeWord
  intro s idx val rest hin
  refine ⟨_, step_of_pset hin, ?_, fun k hk => ?_, rfl, rfl, fun _ => rfl, rfl, rfl, rfl⟩
  · exact (paRead_paWrite ..).trans (if_pos rfl)
  · exact (paRead_paWrite ..).trans (if_neg hk)

theorem mayWrite_iff (s : State) (addr : BitVec 16) :
    mayWrite s addr = true ↔ s.regs.rc = 0#13 ∨ inWindow s addr = false := by
  simp [mayWrite, rendering]

theorem mayWrite_eq_false {s : State} {addr : BitVec 16} (hrc : s.regs.rc ≠ 0#13)
    (hwin : inWindow s addr = true) : mayWrite s addr = false := by
  simp [mayWrite, rendering, hrc, hwin]

/-- Settles O20: the buffer port by its guard, and the word's cells by the laws of the buffer. -/
theorem bufferOwnerWritesOutsideARunningWindow :
    Obligations.BufferOwnerWritesOutsideARunningWindow := by
  unfold Obligations.BufferOwnerWritesOutsideARunningWindow
  intro s addr v rest hin hwf
  refine ⟨fun hmay => ⟨_, step_of_bufferWrite hin ((mayWrite_iff s addr).2 hmay),
    Memory.readWord_writeWord_same hwf addr v, fun a ha => ?_, rfl, rfl, rfl⟩, fun hrc hwin =>
      ⟨_, step_of_waiting_bufferWrite hin (mayWrite_eq_false hrc hwin), unitStep_inputs s,
        unitStep_rc_toNat hrc⟩⟩
  rw [bufferStep_buffer, Memory.readByte_writeWord hwf, if_neg (by omega), if_neg (by omega),
    if_neg (by omega), if_neg (by omega)]

end Sys2Proof.Machine
end

section
/-! PROOF. The noise register (45_voice_mix.md R218), the invariant (40_commands.md R135,
10_state.md R30), which each write of the registers keeps, so every step does, and the end of a
note (R129, 60_exceptions.md R238). -/

namespace Sys2Proof.Machine

/-! The noise register (45_voice_mix.md R218). -/

theorem lfsr_lowBit_toNat (lfsr : BitVec 16) :
    (lfsr.extractLsb' 0 1).toNat = lfsr.toNat % 2 := by
  rw [BitVec.extractLsb'_toNat, Nat.shiftRight_zero, pow_one]

theorem noiseNext_of_even {lfsr : BitVec 16} (h : lfsr.toNat % 2 = 0) :
    noiseNext lfsr = lfsr >>> 1 :=
  if_neg (by rw [lfsr_lowBit_toNat]; omega)

theorem noiseNext_of_odd {lfsr : BitVec 16} (h : lfsr.toNat % 2 = 1) :
    noiseNext lfsr = (lfsr >>> 1) ^^^ Config.lfsrTaps :=
  if_pos (by rwa [lfsr_lowBit_toNat])

theorem lfsr_shift_toNat (lfsr : BitVec 16) : (lfsr >>> 1).toNat = lfsr.toNat / 2 := by
  rw [BitVec.toNat_ushiftRight, Nat.shiftRight_one]

/-- An even state other than 0 has a bit above bit 0; an odd one gets bit 15 from the taps. -/
theorem noiseNext_ne_zero {lfsr : BitVec 16} (h : lfsr ≠ 0#16) : noiseNext lfsr ≠ 0#16 := by
  rcases Nat.mod_two_eq_zero_or_one lfsr.toNat with heven | hodd
  · intro hzero
    rw [noiseNext_of_even heven] at hzero
    have hhalf := lfsr_shift_toNat lfsr
    rw [hzero, BitVec.toNat_ofNat] at hhalf
    exact h (BitVec.eq_of_toNat_eq (by rw [BitVec.toNat_ofNat]; omega))
  · intro hzero
    have htop : (noiseNext lfsr).getLsbD 15 = true := by
      rw [noiseNext_of_odd hodd, BitVec.getLsbD_xor, BitVec.getLsbD_ushiftRight,
        BitVec.getLsbD_of_ge lfsr (1 + 15) (by decide)]
      decide
    rw [hzero] at htop
    cases htop

theorem noiseSample_of_ne {lfsr : BitVec 16} (h : lfsr ≠ 0x8000#16) :
    noiseSample lfsr = sext16 lfsr := by
  have hne : lfsr.toNat ≠ 32768 := fun he => h (BitVec.eq_of_toNat_eq he)
  have hlt := lfsr.isLt
  refine max_eq_left ?_
  unfold sext16
  split <;> omega

theorem noiseSample_range (lfsr : BitVec 16) :
    -32767 ≤ noiseSample lfsr ∧ noiseSample lfsr ≤ 32767 :=
  ⟨le_max_right _ _, max_le (sext16_range lfsr).2 (by decide)⟩

/-- Settles O55: the next state by the lowest bit, and the sample by the one exception. -/
theorem noiseRegisterSteps : Obligations.NoiseRegisterSteps := by
  unfold Obligations.NoiseRegisterSteps
  intro s
  simp only [voiceTick_regs, tickRegs_lfsr]
  refine ⟨fun heven => ?_, fun hodd => ?_, noiseNext_ne_zero, (noiseSample_range _).1,
    (noiseSample_range _).2, noiseSample_of_ne, fun h => ?_⟩
  · rw [noiseNext_of_even heven, lfsr_shift_toNat]
  · rw [noiseNext_of_odd hodd, BitVec.toNat_xor, lfsr_shift_toNat]
    rfl
  · rw [h]
    decide

/-! The stages a voice state allows (40_commands.md R135 (a), (b), (c)). -/

theorem stageFits_idle_iff (st : Stage) : stageFits .idle st = true ↔ st = .idle := by
  simp [stageFits]

theorem stageFits_sounding_iff (st : Stage) :
    stageFits .sounding st = true ↔ st = .attack ∨ st = .decay ∨ st = .sustain := by
  simp [stageFits, or_assoc]

theorem stageFits_releasing_iff (st : Stage) :
    stageFits .releasing st = true ↔ st = .release ∨ st = .idle := by
  simp [stageFits]

theorem envTick_stage_of_running {e : Env}
    (h : e.stage = .attack ∨ e.stage = .decay ∨ e.stage = .sustain) :
    (envTick e).stage = .attack ∨ (envTick e).stage = .decay ∨ (envTick e).stage = .sustain := by
  rcases envTick_cases e with ⟨-, -, ht⟩ | ⟨hs, -, ht⟩ | ⟨-, -, ht⟩ | ⟨hs, -, ht⟩ | ⟨hs, ht⟩ |
    ⟨hs, -⟩ | ⟨hs, -⟩ | ⟨hs, -⟩
  · rw [ht]; exact .inr (.inl rfl)
  · rw [ht]; exact .inl hs
  · rw [ht]; exact .inr (.inr rfl)
  · rw [ht]; exact .inr (.inl hs)
  · rw [ht]; exact .inr (.inr hs)
  · simp [hs] at h
  · simp [hs] at h
  · simp [hs] at h

/-- A tick moves an envelope within the stages that its voice state allows. -/
theorem stageFits_envTick {v : VState} {e : Env} (h : stageFits v e.stage = true) :
    stageFits v (envTick e).stage = true := by
  cases v with
  | idle =>
    rw [stageFits_idle_iff] at h
    rw [envTick_of_idle h]
    rfl
  | sounding =>
    rw [stageFits_sounding_iff] at h ⊢
    exact envTick_stage_of_running h
  | releasing =>
    rw [stageFits_releasing_iff] at h ⊢
    exact (envTick_of_released h).1

theorem allEnvIdle_iff (r : Regs) : allEnvIdle r = true ↔ ∀ i, (r.env.get i).stage = .idle := by
  rw [Fin.forall_fin_succ, Fin.forall_fin_two]
  simp [allEnvIdle, Three.get, and_assoc]

/-! Registers that keep the invariant. -/

namespace Regs.Inv

variable {r : Regs}

/-- A tick of a running RENDER (45_voice_mix.md R228). -/
theorem tickRegs (h : r.Inv) (hrc : r.rc ≠ 0#13) : (tickRegs r).Inv :=
  { h with
    env := fun i => by rw [tickRegs_env_get]; exact (h.env i).envTick
    stage := fun i => by rw [tickRegs_env_get]; exact stageFits_envTick (h.stage i)
    lfsr := noiseNext_ne_zero h.lfsr
    running := fun _ => h.running hrc }

/-- A voice becomes IDLE with idle envelopes and no RENDER running. -/
theorem freeVoice (h : r.Inv) (hidle : ∀ i, (r.env.get i).stage = .idle) (hrc : r.rc = 0#13) :
    Regs.Inv { r with vstate := .idle, cleared := true } :=
  { h with
    stage := fun i => (stageFits_idle_iff _).2 (hidle i)
    cleared := fun _ => rfl
    running := fun hne => absurd hrc hne }

/-- START (40_commands.md R122). -/
theorem startRegs (h : r.Inv) (note : BitVec 7) (vel : BitVec 8) (pw : BitVec 14) :
    (startRegs note vel pw r).Inv := by
  have hkey := keyLevelOf_toNat vel
  rw [startRegs_eq]
  exact { h with
    env := fun i => by rw [Three.get_ofFn]; exact (h.env i).envKeyOn r.pa i
    stage := fun i => by rw [Three.get_ofFn]; rfl
    keyLevel_le := hkey.le.trans (by omega)
    keyLevel_mul := (congrArg (· % 256) hkey).trans (Nat.mul_mod_left _ _)
    bend_range := bendOf_range pw
    cleared := nofun
    running := fun _ => nofun }

/-- The release of a SOUNDING voice (40_commands.md R123). -/
theorem release (h : r.Inv) (hs : r.vstate = .sounding) :
    Regs.Inv { r with env := r.env.map envKeyOff, vstate := .releasing } := by
  refine { h with
    env := fun i => by rw [Three.get_map]; exact (h.env i).envKeyOff
    stage := fun i => ?_
    cleared := fun hc => by cases hs.symm.trans (h.cleared hc)
    running := fun _ => nofun }
  have hrun := h.stage i
  rw [hs, stageFits_sounding_iff] at hrun
  rw [Three.get_map, envKeyOff_of_running hrun]
  rfl

/-- The kill, the voice freed (40_commands.md R123). -/
theorem kill (h : r.Inv) (hrc : r.rc = 0#13) :
    Regs.Inv { r with env := r.env.map envKill, vstate := .idle, cleared := true } :=
  { h with
    env := fun i => by rw [Three.get_map]; exact (h.env i).envKill
    stage := fun i => by rw [Three.get_map]; rfl
    cleared := fun _ => rfl
    running := fun hne => absurd hrc hne }

end Regs.Inv

/-! Steps that keep the invariant. -/

section
variable {s t : State}

theorem renderTick_inv (h : s.regs.Inv) (hrc : s.regs.rc ≠ 0#13) : (renderTick s).regs.Inv := by
  have htick : (voiceTick s).regs.Inv := h.tickRegs hrc
  rcases renderTick_cases s with ⟨hlast, ht⟩ | ⟨-, ht⟩ <;> rw [ht]
  · rcases endBlock_cases (voiceTick s) with ⟨hidle, he⟩ | ⟨-, he⟩ <;> rw [he]
    · exact htick.freeVoice ((allEnvIdle_iff _).1 hidle) hlast
    · exact htick
  · exact htick

theorem unitStep_inv (h : s.Inv) : (unitStep s).Inv := by
  by_cases hrc : s.regs.rc = 0#13
  · rwa [unitStep_of_waiting hrc]
  · rw [unitStep_of_running hrc]
    refine ⟨renderTick_inv h.regs hrc, ?_⟩
    rw [renderTick_buffer]
    exact Memory.accumulate_wf h.buffer _ _

/-- A command keeps the invariant where the port accepts it, with no RENDER running. -/
theorem exec_inv {i : Instr} (h : s.regs.Inv) (hrc : s.regs.rc = 0#13)
    (hexec : exec i s = .next t) : t.regs.Inv := by
  cases i with
  | nop => cases hexec; exact h
  | canplay sound => cases hexec; exact { h with }
  | start note vel pw => cases hexec; exact h.startRegs note vel pw
  | stop tail =>
    obtain rfl | rfl := tail_cases tail
    · cases hexec
      rcases killVoice_cases s with ⟨hidle, -⟩ | ⟨-, hk⟩
      · rwa [killVoice_of_idle h hidle]
      · rw [hk]
        exact h.kill hrc
    · cases hexec
      rcases releaseVoice_cases s with ⟨hs, hr⟩ | ⟨-, hr⟩ <;> rw [hr]
      · exact h.release hs
      · exact h
  | pwheel pw => cases hexec; exact { h with bend_range := bendOf_range pw }
  | ctrl id val => cases hexec; exact { h with }
  | render start num =>
    by_cases hnothing : s.regs.vstate = .idle ∨ num = 0#13
    · rw [exec_render_of_nothing hnothing] at hexec
      cases hexec
      exact h
    · obtain ⟨hvoice, hnum⟩ := not_or.1 hnothing
      rw [exec_render_of_block hvoice hnum] at hexec
      cases hexec
      exact { h with running := fun _ => hvoice }
  | reserved7 => cases hexec; exact h

end

/-- Settles O8: the reset values, checked one by one. -/
theorem resetStateMeetsTheInvariant : Obligations.ResetStateMeetsTheInvariant := by
  unfold Obligations.ResetStateMeetsTheInvariant
  simp only [State.inv_iff, Env.inv_iff]
  decide

/-- Settles O9: input by input, the registers by the lemma of the step and the buffer by the laws of
its writes. -/
theorem everyStepKeepsTheInvariant : Obligations.EveryStepKeepsTheInvariant := by
  unfold Obligations.EveryStepKeepsTheInvariant
  intro s t h hstep
  rcases step_cases hstep with ⟨-, rfl⟩ | ⟨w, rest, -, -, rfl⟩ | ⟨w, rest, -, hrc, hexec⟩ |
    ⟨idx, val, rest, -, rfl⟩ | ⟨addr, val, rest, -, -, rfl⟩ | ⟨addr, val, rest, -, -, rfl⟩ |
    ⟨rest, -, rfl⟩ | ⟨rest, -, rfl⟩ | ⟨rest, -, -, rfl⟩ | ⟨rest, -, -, rfl⟩
  · exact unitStep_inv h
  · exact unitStep_inv h
  · exact ⟨exec_inv (s := { s with inputs := rest }) h.regs hrc hexec,
      exec_keeps_buffer hexec ▸ h.buffer⟩
  · exact ⟨{ h.regs with }, h.buffer⟩
  · exact ⟨h.regs, Memory.writeWord_wf h.buffer addr val⟩
  · exact unitStep_inv h
  · exact ⟨resetStateMeetsTheInvariant.regs, h.buffer⟩
  · exact unitStep_inv ⟨h.regs, h.buffer⟩
  · exact unitStep_inv h
  · exact ⟨h.regs, h.buffer⟩

/-! The end of a note (40_commands.md R129, 60_exceptions.md R238). -/

/-- A step either emits no event and makes no voice IDLE, or emits one and frees the voice. -/
def countsFreeing (s t : State) : Prop :=
  (t.noteCleared = s.noteCleared ∧ (t.regs.vstate = .idle → s.regs.vstate = .idle)) ∨
    (t.noteCleared = s.noteCleared + 1 ∧ s.regs.vstate ≠ .idle ∧ t.regs.vstate = .idle ∧
      t.regs.cleared = true)

section
variable {s t : State}

theorem countsFreeing_unitStep (h : s.Inv) : countsFreeing s (unitStep s) := by
  by_cases hrc : s.regs.rc = 0#13
  · rw [unitStep_of_waiting hrc]
    exact .inl ⟨rfl, id⟩
  · have hvoice := h.regs.running hrc
    rw [unitStep_of_running hrc]
    rcases renderTick_cases s with ⟨-, ht⟩ | ⟨-, ht⟩ <;> rw [ht]
    · rcases endBlock_cases (voiceTick s) with ⟨-, he⟩ | ⟨-, he⟩ <;> rw [he]
      · exact .inr ⟨rfl, hvoice, rfl, rfl⟩
      · exact .inl ⟨rfl, id⟩
    · exact .inl ⟨rfl, id⟩

theorem countsFreeing_exec {i : Instr} (hexec : exec i s = .next t) : countsFreeing s t := by
  cases i with
  | nop => cases hexec; exact .inl ⟨rfl, id⟩
  | canplay sound => cases hexec; exact .inl ⟨rfl, id⟩
  | start note vel pw => cases hexec; exact .inl ⟨rfl, nofun⟩
  | stop tail =>
    obtain rfl | rfl := tail_cases tail
    · cases hexec
      rcases killVoice_cases s with ⟨hidle, hk⟩ | ⟨hvoice, hk⟩ <;> rw [hk]
      · exact .inl ⟨rfl, id⟩
      · exact .inr ⟨rfl, hvoice, rfl, rfl⟩
    · cases hexec
      rcases releaseVoice_cases s with ⟨-, hr⟩ | ⟨-, hr⟩ <;> rw [hr]
      · exact .inl ⟨rfl, nofun⟩
      · exact .inl ⟨rfl, id⟩
  | pwheel pw => cases hexec; exact .inl ⟨rfl, id⟩
  | ctrl id val => cases hexec; exact .inl ⟨rfl, fun h => h⟩
  | render start num => cases hexec; split <;> exact .inl ⟨rfl, id⟩
  | reserved7 => cases hexec; exact .inl ⟨rfl, id⟩

theorem countsFreeing_step (h : s.Inv) (hstep : step s = .next t)
    (hreset : ∀ rest, s.inputs ≠ .reset :: rest) : countsFreeing s t := by
  rcases step_cases hstep with ⟨-, rfl⟩ | ⟨w, rest, -, -, rfl⟩ | ⟨w, rest, -, -, hexec⟩ |
    ⟨idx, val, rest, -, rfl⟩ | ⟨addr, val, rest, -, -, rfl⟩ | ⟨addr, val, rest, -, -, rfl⟩ |
    ⟨rest, hin, -⟩ | ⟨rest, -, rfl⟩ | ⟨rest, -, -, rfl⟩ | ⟨rest, -, -, rfl⟩
  · exact countsFreeing_unitStep h
  · exact countsFreeing_unitStep h
  · exact countsFreeing_exec (s := { s with inputs := rest }) hexec
  · exact .inl ⟨rfl, id⟩
  · exact .inl ⟨rfl, id⟩
  · exact countsFreeing_unitStep h
  · exact absurd hin (hreset rest)
  · exact countsFreeing_unitStep (s := { s with inputs := rest }) ⟨h.regs, h.buffer⟩
  · exact countsFreeing_unitStep h
  · exact .inl ⟨rfl, id⟩

end

/-- Settles O35: of the two things a step can do to the count only the freeing makes a voice IDLE,
and CLEARED was 0 before, the voice not being IDLE. -/
theorem noteClearedExactlyWhenTheVoiceIsFreed :
    Obligations.NoteClearedExactlyWhenTheVoiceIsFreed := by
  unfold Obligations.NoteClearedExactlyWhenTheVoiceIsFreed
  refine ⟨fun s t h hstep hreset => ?_, fun s rest hin => ⟨_, step_of_reset hin, rfl, rfl⟩⟩
  rcases countsFreeing_step h hstep hreset with ⟨hcount, hkeep⟩ | ⟨hcount, hvoice, hidle, hcleared⟩
  · rw [if_neg fun hfreed => hfreed.1 (hkeep hfreed.2)]
    exact ⟨hcount, fun hne => absurd hcount hne⟩
  · rw [if_pos ⟨hvoice, hidle⟩]
    refine ⟨hcount, fun _ => ⟨?_, hcleared⟩⟩
    exact Bool.eq_false_iff.2 fun hc => hvoice (h.regs.cleared hc)

/-- The tick after which the idle check frees the voice: the last of the block, with every envelope
IDLE after it (40_commands.md R126, R129). -/
def freesVoice (r : Regs) : Prop := r.rc = 1#13 ∧ ∀ i, (envTick (r.env.get i)).stage = .idle

section
variable {s : State}

theorem allEnvIdle_voiceTick_iff :
    allEnvIdle (voiceTick s).regs = true ↔ ∀ i, (envTick (s.regs.env.get i)).stage = .idle := by
  simp only [allEnvIdle_iff, voiceTick_regs, tickRegs_env_get]

theorem unitStep_of_freesVoice (h : freesVoice s.regs) :
    unitStep s = freeVoice (voiceTick s) := by
  obtain ⟨hlast, hidle⟩ := h
  rw [unitStep_of_running (by rw [hlast]; decide), renderTick,
    if_pos (by rw [voiceTick_regs, tickRegs_rc, hlast]; rfl),
    endBlock_of_idle (allEnvIdle_voiceTick_iff.2 hidle)]

theorem unitStep_of_not_freesVoice (hrc : s.regs.rc ≠ 0#13) (h : ¬freesVoice s.regs) :
    unitStep s = voiceTick s := by
  rw [unitStep_of_running hrc]
  rcases renderTick_cases s with ⟨hlast, ht⟩ | ⟨-, ht⟩ <;> rw [ht]
  rcases endBlock_cases (voiceTick s) with ⟨hidle, -⟩ | ⟨-, he⟩
  · exact absurd ⟨sub_eq_zero.1 hlast, allEnvIdle_voiceTick_iff.1 hidle⟩ h
  · exact he

/-- A tick leaves the envelopes of a SOUNDING voice in ATTACK, DECAY or SUSTAIN. -/
theorem not_freesVoice_of_sounding (h : s.regs.Inv) (hs : s.regs.vstate = .sounding) :
    ¬freesVoice s.regs := by
  rintro ⟨-, hidle⟩
  have hstage := stageFits_envTick (h.stage 0)
  rw [hs, hidle 0] at hstage
  cases hstage

end

/-- Settles O33: the commands' rows by the command and the voice state; a tick's row by the idle
check, which a SOUNDING voice never passes. -/
theorem voiceStateFollowsTheTable : Obligations.VoiceStateFollowsTheTable := by
  unfold Obligations.VoiceStateFollowsTheTable
  refine ⟨fun s i => ?_, fun _ _ _ => rfl, fun _ _ _ => rfl, fun s hrc => ?_, fun s h hrc =>
    ⟨fun hs => ?_, fun hs => ?_⟩⟩
  · cases i with
    | nop => exact ⟨s, rfl, rfl, rfl⟩
    | canplay sound => exact ⟨_, rfl, rfl, rfl⟩
    | start note vel pw => exact ⟨_, rfl, rfl, rfl⟩
    | stop tail =>
      obtain rfl | rfl := tail_cases tail
      · refine ⟨_, exec_stop_kill s, ?_⟩
        rw [killVoice_vstate]
        rcases killVoice_cases s with ⟨hs, hk⟩ | ⟨hs, hk⟩ <;> rw [hk]
        · rw [hs]
          exact ⟨rfl, rfl⟩
        · cases hv : s.regs.vstate with
          | idle => exact absurd hv hs
          | sounding => exact ⟨rfl, rfl⟩
          | releasing => exact ⟨rfl, rfl⟩
      · refine ⟨_, exec_stop_tail s, ?_⟩
        rcases releaseVoice_cases s with ⟨hs, hr⟩ | ⟨hs, hr⟩ <;> rw [hr]
        · rw [hs]
          exact ⟨rfl, rfl⟩
        · cases hv : s.regs.vstate with
          | idle => exact ⟨rfl, rfl⟩
          | sounding => exact absurd hv hs
          | releasing => exact ⟨rfl, rfl⟩
    | pwheel pw => exact ⟨_, rfl, rfl, rfl⟩
    | ctrl id val => exact ⟨_, rfl, rfl, rfl⟩
    | render start num =>
      refine ⟨_, exec_render start num s, ?_⟩
      split <;> exact ⟨rfl, rfl⟩
    | reserved7 => exact ⟨s, rfl, rfl, rfl⟩
  · rw [unitStep_of_waiting hrc]
  · rw [unitStep_of_not_freesVoice hrc (not_freesVoice_of_sounding h.regs hs)]
    exact ⟨hs, rfl⟩
  · by_cases hfree : freesVoice s.regs
    · rw [unitStep_of_freesVoice hfree]
      exact (if_pos hfree).mpr ⟨rfl, rfl⟩
    · rw [unitStep_of_not_freesVoice hrc hfree]
      exact (if_neg hfree).mpr ⟨hs, rfl⟩

end Sys2Proof.Machine
end

section
/-! PROOF. A RENDER run to its end (30_encoding.md R101, 40_commands.md R126). Its steps are the
ticks of the loop, the last with the idle check; what the host lets wait behind it does not change
them. Every tick adds one sample to one word, so a run of ticks adds a sum of samples that does not
depend on the buffer. -/

namespace Sys2Proof.Machine

/-! A run of ticks, register by register (45_voice_mix.md R226). -/

theorem ticks_regs (k : Nat) (s : State) : (ticks k s).regs = tickRegs^[k] s.regs := by
  induction k with
  | zero => rfl
  | succ k ih => rw [ticks_succ, voiceTick_regs, ih, Function.iterate_succ_apply']

theorem ticks_rc (k : Nat) (s : State) :
    (ticks k s).regs.rc = s.regs.rc - BitVec.ofNat 13 k := by
  induction k with
  | zero => exact (BitVec.sub_zero _).symm
  | succ k ih =>
    rw [ticks_succ, voiceTick_regs, tickRegs_rc, ih, BitVec.ofNat_add, sub_add_eq_sub_sub]
    rfl

theorem ticks_rc_eq_zero (s : State) : (ticks s.regs.rc.toNat s).regs.rc = 0#13 := by
  rw [ticks_rc, BitVec.ofNat_toNat, BitVec.setWidth_eq, BitVec.sub_self]

@[simp] theorem ticks_inputs (k : Nat) (s : State) : (ticks k s).inputs = s.inputs := by
  induction k with
  | zero => rfl
  | succ k ih => rw [ticks_succ, voiceTick_inputs, ih]

/-! The steps of a running RENDER are its ticks (log 4). -/

theorem ticks_rc_ne_zero {k : Nat} {s : State} (hk : k < s.regs.rc.toNat) :
    (ticks k s).regs.rc ≠ 0#13 := by
  have hlt := s.regs.rc.isLt
  intro hzero
  rw [ticks_rc] at hzero
  have hsame := congrArg BitVec.toNat (sub_eq_zero.1 hzero)
  rw [BitVec.toNat_ofNat] at hsame
  omega

/-- Before the last tick the steps are ticks without the idle check. -/
theorem unitStep_iterate_eq_ticks {s : State} {k : Nat} (hk : k < s.regs.rc.toNat) :
    unitStep^[k] s = ticks k s := by
  induction k with
  | zero => rfl
  | succ k ih =>
    have hnow : (ticks k s).regs.rc ≠ 0#13 := ticks_rc_ne_zero (by omega)
    have hnext : (voiceTick (ticks k s)).regs.rc ≠ 0#13 := by
      rw [← ticks_succ]
      exact ticks_rc_ne_zero hk
    rw [Function.iterate_succ_apply', ih (by omega), unitStep_of_running hnow, renderTick,
      if_neg hnext, ticks_succ]

/-- The last tick's step does the idle check. -/
theorem unitStep_iterate_rc {s : State} (hrc : s.regs.rc ≠ 0#13) :
    unitStep^[s.regs.rc.toNat] s = endBlock (ticks s.regs.rc.toNat s) := by
  obtain ⟨m, hm⟩ : ∃ m, s.regs.rc.toNat = m + 1 :=
    Nat.exists_eq_succ_of_ne_zero fun h => hrc (BitVec.eq_of_toNat_eq h)
  have hnow : (ticks m s).regs.rc ≠ 0#13 := ticks_rc_ne_zero (by omega)
  have hlast : (voiceTick (ticks m s)).regs.rc = 0#13 := by
    rw [← ticks_succ, ← hm, ticks_rc_eq_zero]
  rw [hm, Function.iterate_succ_apply', unitStep_iterate_eq_ticks (by omega),
    unitStep_of_running hnow, renderTick, if_pos hlast, ticks_succ]

theorem unitStep_iterate_rc_toNat {s : State} {k : Nat} (hk : k ≤ s.regs.rc.toNat) :
    (unitStep^[k] s).regs.rc.toNat + k = s.regs.rc.toNat := by
  induction k with
  | zero => rfl
  | succ k ih =>
    have hprev := ih (by omega)
    have hrun : (unitStep^[k] s).regs.rc ≠ 0#13 := by
      intro h
      rw [h, BitVec.toNat_ofNat] at hprev
      omega
    have hstep := unitStep_rc_toNat hrun
    rw [Function.iterate_succ_apply']
    omega

@[simp] theorem unitStep_iterate_inputs (k : Nat) (s : State) :
    (unitStep^[k] s).inputs = s.inputs := by
  induction k with
  | zero => rfl
  | succ k ih => rw [Function.iterate_succ_apply', unitStep_inputs, ih]

/-! Runs (60_exceptions.md R248). -/

/-- The unit makes its own steps while nothing is presented, or the host waits for a RENDER. -/
theorem run_of_quiet_inputs {s : State} {k : Nat}
    (h : s.inputs = [] ∨ (∃ rest, s.inputs = .await :: rest) ∧ k ≤ s.regs.rc.toNat) :
    core.run k s = .next (unitStep^[k] s) := by
  induction k generalizing s with
  | zero => rfl
  | succ k ih =>
    have hstep : step s = .next (unitStep s) := by
      rcases h with hin | ⟨⟨rest, hin⟩, hk⟩
      · exact step_of_no_input hin
      · have hrc : s.regs.rc ≠ 0#13 := fun h0 => by rw [h0, BitVec.toNat_ofNat] at hk; omega
        rw [step_of_await hin, awaitStep_of_running hrc]
    rw [run_step hstep, Function.iterate_succ_apply]
    refine ih (h.imp (fun hin => (unitStep_inputs s).trans hin) fun ⟨⟨rest, hin⟩, hk⟩ => ?_)
    have hrc : s.regs.rc ≠ 0#13 := fun h0 => by rw [h0, BitVec.toNat_ofNat] at hk; omega
    have hleft := unitStep_rc_toNat hrc
    exact ⟨⟨rest, (unitStep_inputs s).trans hin⟩, by omega⟩

/-- Settles O12: the steps are `unitStep`s, each of which takes 1 from RC until it is 0. -/
theorem runningRenderEndsAfterItsTicks : Obligations.RunningRenderEndsAfterItsTicks := by
  unfold Obligations.RunningRenderEndsAfterItsTicks
  intro s hin
  refine ⟨fun k hk => ⟨_, run_of_quiet_inputs (.inl hin), unitStep_iterate_rc_toNat hk⟩, ?_⟩
  have hleft := unitStep_iterate_rc_toNat (s := s) le_rfl
  have hdone : (unitStep^[s.regs.rc.toNat] s).regs.rc = 0#13 :=
    BitVec.eq_of_toNat_eq (by rw [BitVec.toNat_ofNat]; omega)
  have hin' := (unitStep_iterate_inputs s.regs.rc.toNat s).trans hin
  refine ⟨_, run_of_quiet_inputs (.inl hin), hdone, hin', ?_⟩
  rw [step_of_no_input hin', unitStep_of_waiting hdone]

/-- A unit that waits with nothing presented stays as it is. -/
theorem run_of_waiting {s : State} (hin : s.inputs = []) (hrc : s.regs.rc = 0#13) (k : Nat) :
    core.run k s = .next s := by
  rw [run_of_quiet_inputs (.inl hin), Function.iterate_fixed (unitStep_of_waiting hrc)]

/-- A run of `a` steps, then one of `b`. -/
theorem run_add {s t : State} {a : Nat} (h : core.run a s = .next t) (b : Nat) :
    core.run (a + b) s = core.run b t := by
  induction a generalizing s with
  | zero =>
    cases h
    rw [Nat.zero_add]
  | succ a ih =>
    obtain ⟨u, hu⟩ := step_eq_next s
    rw [run_step hu] at h
    rw [Nat.succ_add, run_step hu, ih h]

/-! RENDER at the command port (40_commands.md R126). -/

theorem renderWhole_of_nothing {s : State} {num : BitVec 13}
    (h : s.regs.vstate = .idle ∨ num = 0#13) (start : BitVec 16) : renderWhole start num s = s :=
  if_neg fun hboth => h.elim hboth.1 hboth.2

theorem renderWhole_rc {s : State} (hrc : s.regs.rc = 0#13) (start : BitVec 16) (num : BitVec 13) :
    (renderWhole start num s).regs.rc = 0#13 := by
  by_cases h : s.regs.vstate = .idle ∨ num = 0#13
  · rwa [renderWhole_of_nothing h]
  · obtain ⟨hvoice, hnum⟩ := not_or.1 h
    rw [renderWhole_eq_endBlock hvoice hnum, endBlock_rc]
    exact ticks_rc_eq_zero (beginBlock start num s)

theorem renderWhole_inputs (s : State) (start : BitVec 16) (num : BitVec 13) :
    (renderWhole start num s).inputs = s.inputs := by
  by_cases h : s.regs.vstate = .idle ∨ num = 0#13
  · rw [renderWhole_of_nothing h]
  · obtain ⟨hvoice, hnum⟩ := not_or.1 h
    rw [renderWhole_eq_endBlock hvoice hnum, endBlock_inputs, ticks_inputs, beginBlock_inputs]

/-- A RENDER presented to a unit that renders nothing, and behind it nothing or a host that waits:
one step and at most `num` ticks. -/
theorem run_render {s : State} {start : BitVec 16} {num : BitVec 13} {rest : List Input}
    (hin : s.inputs = .command (encode (.render start num)) :: rest) (hrc : s.regs.rc = 0#13)
    (hrest : rest = [] ∨ ∃ more, rest = .await :: more) :
    ∃ k ≤ num.toNat,
      core.run (k + 1) s = .next (renderWhole start num { s with inputs := rest }) := by
  have hstep := step_of_command hin hrc
  rw [decode_encode] at hstep
  by_cases h : s.regs.vstate = .idle ∨ num = 0#13
  · rw [exec_render_of_nothing (s := { s with inputs := rest }) h] at hstep
    refine ⟨0, Nat.zero_le _, ?_⟩
    rw [run_step hstep, renderWhole_of_nothing (s := { s with inputs := rest }) h]
    rfl
  · obtain ⟨hvoice, hnum⟩ := not_or.1 h
    rw [exec_render_of_block (s := { s with inputs := rest }) hvoice hnum] at hstep
    refine ⟨num.toNat, le_rfl, ?_⟩
    have hticks : core.run num.toNat (beginBlock start num { s with inputs := rest }) = _ :=
      run_of_quiet_inputs (hrest.imp id fun hawait => ⟨hawait, le_rfl⟩)
    rw [run_step hstep, hticks,
      renderWhole_eq_endBlock (s := { s with inputs := rest }) hvoice hnum]
    exact congrArg _
      (unitStep_iterate_rc (s := beginBlock start num { s with inputs := rest }) hnum)

/-- A RENDER presented alone: the steps that its ticks leave over change nothing. -/
theorem run_render_alone {s : State} {start : BitVec 16} {num : BitVec 13}
    (hin : s.inputs = [.command (encode (.render start num))]) (hrc : s.regs.rc = 0#13) :
    core.run (num.toNat + 1) s = .next (renderWhole start num { s with inputs := [] }) := by
  obtain ⟨k, hk, hrun⟩ := run_render hin hrc (.inl rfl)
  rw [show num.toNat + 1 = k + 1 + (num.toNat - k) by omega, run_add hrun]
  exact run_of_waiting (renderWhole_inputs { s with inputs := [] } start num)
    (renderWhole_rc (s := { s with inputs := [] }) hrc start num) _

/-- Settles O30: the command's step begins the block, and the ticks that follow are the loop's. -/
theorem renderRunsItsLoopToTheEnd : Obligations.RenderRunsItsLoopToTheEnd := by
  unfold Obligations.RenderRunsItsLoopToTheEnd
  exact fun s start num hrc hin => run_render_alone hin hrc

/-! What a run of ticks adds to the buffer (20_memory.md R82, R83, R91, R92). -/

/-- What `n` ticks from the registers `r` on add to a word: the samples of the ticks that find RP at
it. -/
def voiceWord (n : Nat) (r : Regs) (addr : BitVec 16) : Word :=
  ∑ k ∈ Finset.range n,
    if addr = (tickRegs^[k] r).rp then BitVec.ofInt 32 (tickOut (tickRegs^[k] r)) else 0#32

theorem voiceWord_succ (n : Nat) (r : Regs) (addr : BitVec 16) :
    voiceWord (n + 1) r addr = voiceWord n r addr +
      if addr = (tickRegs^[n] r).rp then BitVec.ofInt 32 (tickOut (tickRegs^[n] r)) else 0#32 :=
  Finset.sum_range_succ _ n

theorem ticks_wf {s : State} (h : s.buffer.wf = true) (n : Nat) : (ticks n s).buffer.wf = true := by
  induction n with
  | zero => exact h
  | succ n ih =>
    rw [ticks_succ, voiceTick_buffer]
    exact Memory.accumulate_wf ih _ _

theorem ticks_readWord {s : State} (h : s.buffer.wf = true) (n : Nat) (addr : BitVec 16) :
    (ticks n s).buffer.readWord addr = s.buffer.readWord addr + voiceWord n s.regs addr := by
  induction n with
  | zero => exact (BitVec.add_zero _).symm
  | succ n ih =>
    rw [ticks_succ, voiceTick_buffer, Memory.readWord_accumulate (ticks_wf h n), ih, ticks_regs,
      voiceWord_succ, BitVec.add_assoc]

/-- Settles O18: what a voice adds to a word depends on its registers alone, and addition
commutes. -/
theorem voicesSumInAnyOrder : Obligations.VoicesSumInAnyOrder := by
  unfold Obligations.VoicesSumInAnyOrder
  intro s rA rB nA nB m hm a b
  have ha (n : Memory) (hn : n.wf = true) (addr : BitVec 16) :
      (a n).buffer.readWord addr = n.readWord addr + voiceWord nA rA addr :=
    ticks_readWord (s := { s with regs := rA, buffer := n }) hn nA addr
  have hb (n : Memory) (hn : n.wf = true) (addr : BitVec 16) :
      (b n).buffer.readWord addr = n.readWord addr + voiceWord nB rB addr :=
    ticks_readWord (s := { s with regs := rB, buffer := n }) hn nB addr
  have hawf (n : Memory) (hn : n.wf = true) : (a n).buffer.wf = true := ticks_wf hn nA
  have hbwf (n : Memory) (hn : n.wf = true) : (b n).buffer.wf = true := ticks_wf hn nB
  have haregs (n : Memory) : (a n).regs = tickRegs^[nA] rA := ticks_regs nA _
  have hbregs (n : Memory) : (b n).regs = tickRegs^[nB] rB := ticks_regs nB _
  refine ⟨Memory.ext_of_readWord (hbwf _ (hawf m hm)) (hawf _ (hbwf m hm)) fun addr => ?_, ?_, ?_,
    fun addr => ?_⟩
  · rw [hb _ (hawf m hm), ha _ (hbwf m hm), ha m hm, hb m hm, add_right_comm]
  · rw [hbregs, hbregs]
  · rw [haregs, haregs]
  · rw [hb _ (hawf m hm), ha m hm, hb m hm]
    ring

/-- RP after `k` ticks. -/
theorem tickRegs_iterate_rp (k : Nat) (r : Regs) :
    (tickRegs^[k] r).rp = r.rp + BitVec.ofNat 16 k := by
  have h := ticks_rp k { State.reset with regs := r }
  rwa [ticks_regs] at h

/-- The tick that finds RP at a word, in a run of at most 65536. -/
theorem eq_add_ofNat_iff {addr first : BitVec 16} {k : Nat} (hk : k < 65536) :
    addr = first + BitVec.ofNat 16 k ↔ k = (addr - first).toNat := by
  rw [← sub_eq_iff_eq_add', ← BitVec.toNat_inj, BitVec.toNat_ofNat, Nat.mod_eq_of_lt hk, eq_comm]

/-- In a run that does not come round, a word in the window gets one sample, one outside it none. -/
theorem voiceWord_eq {n : Nat} (hn : n ≤ 65536) (r : Regs) (addr : BitVec 16) :
    voiceWord n r addr =
      if (addr - r.rp).toNat < n then
        BitVec.ofInt 32 (tickOut (tickRegs^[(addr - r.rp).toNat] r))
      else 0#32 := by
  have hterm : ∀ k ∈ Finset.range n,
      (if addr = (tickRegs^[k] r).rp then BitVec.ofInt 32 (tickOut (tickRegs^[k] r)) else 0#32) =
        if k = (addr - r.rp).toNat then BitVec.ofInt 32 (tickOut (tickRegs^[k] r)) else 0 := by
    intro k hk
    have hlt := Finset.mem_range.1 hk
    simp only [tickRegs_iterate_rp, eq_add_ofNat_iff (show k < 65536 by omega)]
    rfl
  rw [voiceWord, Finset.sum_congr rfl hterm, Finset.sum_ite_eq']
  simp only [Finset.mem_range]
  rfl

/-- Settles O31: the block is its ticks, and its window is shorter than the buffer. -/
theorem renderAddsEachSampleOnce : Obligations.RenderAddsEachSampleOnce := by
  unfold Obligations.RenderAddsEachSampleOnce
  intro s start num hrc hwf hvoice hnum hin
  have hlen := num.isLt
  have hword := ticks_readWord (s := beginBlock start num { s with inputs := [] }) hwf num.toNat
  have hrun := run_render_alone hin hrc
  rw [renderWhole_eq_endBlock (s := { s with inputs := [] }) hvoice hnum] at hrun
  refine ⟨_, hrun, ?_, ?_, ?_, fun k hk => ?_, fun addr ha => ?_⟩
  · rw [endBlock_rc]
    exact ticks_rc_eq_zero (beginBlock start num { s with inputs := [] })
  · rw [endBlock_rp, ticks_rp, beginBlock_regs]
  · rw [endBlock_inputs, ticks_inputs, beginBlock_inputs]
  · have hoffset : (start + BitVec.ofNat 16 k - start).toNat = k :=
      ((eq_add_ofNat_iff (by omega)).1 rfl).symm
    rw [endBlock_buffer, hword, voiceWord_eq (by omega), beginBlock_regs, hoffset,
      if_pos hk, ticks_regs]
    rfl
  · rw [endBlock_buffer, hword, voiceWord_eq (by omega), beginBlock_regs,
      if_neg (Nat.not_lt.2 ha)]
    exact BitVec.add_zero _

/-! A parameter write among the lines of a listing (30_encoding.md R118). -/

/-- Who waits behind a RENDER does not change what it leaves. -/
theorem ticks_withInputs (k : Nat) (s : State) (l : List Input) :
    ticks k { s with inputs := l } = { ticks k s with inputs := l } := by
  induction k with
  | zero => rfl
  | succ k ih =>
    rw [ticks_succ, ticks_succ, ih]
    rfl

theorem endBlock_withInputs (s : State) (l : List Input) :
    endBlock { s with inputs := l } = { endBlock s with inputs := l } := by
  rcases endBlock_cases s with ⟨hi, h⟩ | ⟨hi, h⟩ <;> rw [h]
  · exact endBlock_of_idle hi
  · exact endBlock_of_running hi

theorem renderWhole_withInputs (start : BitVec 16) (num : BitVec 13) (s : State) (l : List Input) :
    renderWhole start num { s with inputs := l } =
      { renderWhole start num s with inputs := l } := by
  by_cases h : s.regs.vstate = .idle ∨ num = 0#13
  · rw [renderWhole_of_nothing h, renderWhole_of_nothing (s := { s with inputs := l }) h]
  · obtain ⟨hvoice, hnum⟩ := not_or.1 h
    rw [renderWhole_eq_endBlock hvoice hnum,
      renderWhole_eq_endBlock (s := { s with inputs := l }) hvoice hnum, ← endBlock_withInputs,
      ← ticks_withInputs]
    rfl

/-- A listed parameter write at a unit that renders nothing: the wait, then the write. -/
theorem run_listed_pset {s : State} {idx : BitVec 7} {val : Param} {rest : List Input}
    (hin : s.inputs = .await :: .pset idx val :: rest) (hrc : s.regs.rc = 0#13) :
    core.run 2 s = .next (psetStep idx val { s with inputs := rest }) := by
  have hwait : step s = .next { s with inputs := .pset idx val :: rest } := by
    rw [step_of_await hin, awaitStep_of_waiting hrc]
  rw [run_step hwait, run_step (step_of_pset rfl)]
  rfl

section
variable {start num idx val : Nat}

theorem assemble_render (hstart : start < 65536) (hnum : num < 8192) :
    assemble (.render start num) =
      some (.command (encode (.render (BitVec.ofNat 16 start) (BitVec.ofNat 13 num)))) := by
  simp [assemble, AsmLine.wellFormed, hstart, hnum]

theorem assemble_pset (hidx : idx < 128) (hval : val < 65536) :
    assemble (.pset idx val) = some (.pset (BitVec.ofNat 7 idx) (BitVec.ofNat 16 val)) := by
  simp [assemble, AsmLine.wellFormed, hidx, hval]

theorem assembleAll_render_pset (hstart : start < 65536) (hnum : num < 8192) (hidx : idx < 128)
    (hval : val < 65536) :
    assembleAll [.render start num, .pset idx val] =
      some [.command (encode (.render (BitVec.ofNat 16 start) (BitVec.ofNat 13 num))), .await,
        .pset (BitVec.ofNat 7 idx) (BitVec.ofNat 16 val)] := by
  simp [assembleAll, assemble_render hstart hnum, assemble_pset hidx hval, portInputs]

theorem assembleAll_pset_render (hstart : start < 65536) (hnum : num < 8192) (hidx : idx < 128)
    (hval : val < 65536) :
    assembleAll [.pset idx val, .render start num] =
      some [.await, .pset (BitVec.ofNat 7 idx) (BitVec.ofNat 16 val),
        .command (encode (.render (BitVec.ofNat 16 start) (BitVec.ofNat 13 num)))] := by
  simp [assembleAll, assemble_render hstart hnum, assemble_pset hidx hval, portInputs]

end

/-! The two orders of a RENDER and a listed write, the write always at a unit that renders
nothing. -/

section
variable {s : State} {start : BitVec 16} {num : BitVec 13} {idx : BitVec 7} {val : Param}

theorem run_render_then_pset
    (hin : s.inputs = [.command (encode (.render start num)), .await, .pset idx val])
    (hrc : s.regs.rc = 0#13) :
    core.run (num.toNat + 3) s =
      .next (psetStep idx val (renderWhole start num { s with inputs := [] })) := by
  obtain ⟨k, hk, hrun⟩ := run_render hin hrc (.inr ⟨_, rfl⟩)
  have hwrite := run_listed_pset (renderWhole_inputs _ start num)
    (renderWhole_rc (s := { s with inputs := [.await, .pset idx val] }) hrc start num)
  rw [renderWhole_withInputs start num s] at hrun hwrite
  rw [show num.toNat + 3 = k + 1 + (2 + (num.toNat - k)) by omega, run_add hrun, run_add hwrite,
    renderWhole_withInputs start num s []]
  exact run_of_waiting (s := psetStep idx val { renderWhole start num s with inputs := [] }) rfl
    (renderWhole_rc hrc start num) _

theorem run_pset_then_render
    (hin : s.inputs = [.await, .pset idx val, .command (encode (.render start num))])
    (hrc : s.regs.rc = 0#13) :
    core.run (num.toNat + 3) s =
      .next (renderWhole start num (psetStep idx val { s with inputs := [] })) := by
  rw [show num.toNat + 3 = 2 + (num.toNat + 1) by omega, run_add (run_listed_pset hin hrc)]
  exact run_render_alone rfl hrc

end

/-- Settles O60: the wait is a tick or is over; in either order of the two lines the write meets a
unit that renders nothing. -/
theorem listedWritesFallBetweenTheirCommands :
    Obligations.ListedWritesFallBetweenTheirCommands := by
  unfold Obligations.ListedWritesFallBetweenTheirCommands
  refine ⟨fun s rest hin => ⟨fun hrc => ?_, fun hrc => ?_⟩,
    fun s start num idx val hstart hnum hidx hval hrc => ⟨fun hasm => ?_, fun hasm => ?_⟩⟩
  · refine ⟨unitStep s, ?_, unitStep_inputs s, ?_, unitStep_rc_toNat hrc⟩
    · rw [step_of_await hin, awaitStep_of_running hrc]
    · rw [unitStep_of_running hrc]
      rcases renderTick_cases s with ⟨-, h⟩ | ⟨-, h⟩ <;> simp [h]
  · rw [step_of_await hin, awaitStep_of_waiting hrc]
  · rw [assembleAll_render_pset hstart hnum hidx hval, Option.some.injEq] at hasm
    have hrun := run_render_then_pset hasm.symm hrc
    rwa [BitVec.toNat_ofNat, Nat.mod_eq_of_lt hnum] at hrun
  · rw [assembleAll_pset_render hstart hnum hidx hval, Option.some.injEq] at hasm
    have hrun := run_pset_then_render hasm.symm hrc
    rwa [BitVec.toNat_ofNat, Nat.mod_eq_of_lt hnum] at hrun

end Sys2Proof.Machine
end

section
/-! PROOF. Which words of the Parameter Array, and which part of the state, an operation reads
(10_state.md R51, 40_commands.md R136, 45_voice_mix.md R227). A machine with another array, or
another buffer, makes the same step where the two agree on what the step reads. -/

namespace Sys2Proof.Machine

/-! The read class of each named word (10_state.md R51, R52). -/

/-- Words 0 to 3 of a triple are cached, 4 to 8 latched, 9 to 12 live. -/
theorem readClass_triIdx (i : Fin 3) (k : Fin 16) :
    readClass (triIdx i k) =
      if k ≤ 3 then .cached else if k ≤ 8 then .latched else if k ≤ 12 then .live else .stored := by
  decide +revert

/-- Words 0 and 3 of a filter are cached, 1 and 2 live. -/
theorem readClass_fltIdx (f : Fin 2) (k : Fin 8) :
    readClass (fltIdx f k) =
      if k = 0 ∨ k = 3 then .cached else if k = 1 ∨ k = 2 then .live else .stored := by
  decide +revert

/-! Arrays that agree on the words of a class. -/

/-- The two arrays have the same words of class `c`. -/
def agreeOn (c : ReadClass) (pa pa' : Vector Param 128) : Prop :=
  ∀ k, readClass k = c → paRead pa k = paRead pa' k

theorem agreeOn_paWrite {c : ReadClass} {k : BitVec 7} (h : readClass k ≠ c)
    (pa : Vector Param 128) (v : Param) : agreeOn c pa (paWrite pa k v) := by
  intro j hj
  have hne : j ≠ k := fun he => h (he ▸ hj)
  rw [paRead_paWrite, if_neg hne]

theorem agreeOn_paWrite_paWrite {c : ReadClass} {pa pa' : Vector Param 128} (h : agreeOn c pa pa')
    (k : BitVec 7) (v : Param) : agreeOn c (paWrite pa k v) (paWrite pa' k v) := by
  intro j hj
  rw [paRead_paWrite, paRead_paWrite, h j hj]

/-! What each part reads. -/

section
variable {pa pa' : Vector Param 128}

theorem lfo_eq_of_agreeOn (h : agreeOn .live pa pa') (i : Fin 3) (l : Lfo) :
    lfoVib pa i l = lfoVib pa' i l ∧ lfoTrem pa i l = lfoTrem pa' i l ∧
      lfoAdvance pa i l = lfoAdvance pa' i l := by
  have hwave := h (lfoWaveIdx i) (readClass_triIdx i 9)
  have hrate := h (lfoRateIdx i) (readClass_triIdx i 10)
  have hdepth := h (lfoDepthIdx i) (readClass_triIdx i 11)
  have hdest := h (lfoDestIdx i) (readClass_triIdx i 12)
  have hout : lfoOutput pa i l = lfoOutput pa' i l := by
    rw [lfoOutput, lfoOutput, hwave, hdepth]
  exact ⟨by rw [lfoVib, lfoVib, hdest, hout], by rw [lfoTrem, lfoTrem, hdest, hdepth, hout],
    by rw [lfoAdvance, lfoAdvance, hrate]⟩

theorem flt_eq_of_agreeOn (h : agreeOn .live pa pa') (f : Fin 2) (t : Flt) (x e : Int) :
    fltOut pa f t x e = fltOut pa' f t x e ∧ fltAdvance pa f t x e = fltAdvance pa' f t x e := by
  have hcut := h (fltCutoffIdx f) (readClass_fltIdx f 1)
  have hres := h (fltResIdx f) (readClass_fltIdx f 2)
  have hfc : fltFc pa f t e = fltFc pa' f t e := by
    rw [fltFc, fltFc, fltPitch, fltPitch, hcut]
  have hqd : fltQd pa f = fltQd pa' f := by rw [fltQd, fltQd, hres]
  exact ⟨by rw [fltOut, fltOut, hfc, hqd], by rw [fltAdvance, fltAdvance, hfc, hqd]⟩

theorem loadOsc_eq_of_agreeOn (h : agreeOn .cached pa pa') (i : Fin 3) (o : Osc) :
    loadOsc pa i o = loadOsc pa' i o := by
  rw [loadOsc, loadOsc, h (oscWaveIdx i) (readClass_triIdx i 0),
    h (oscOctIdx i) (readClass_triIdx i 1), h (oscSemiIdx i) (readClass_triIdx i 2),
    h (oscLevelIdx i) (readClass_triIdx i 3)]

theorem loadFlt_eq_of_agreeOn (h : agreeOn .cached pa pa') (f : Fin 2) (t : Flt) :
    loadFlt pa f t = loadFlt pa' f t := by
  rw [loadFlt, loadFlt, h (fltTypeIdx f) (readClass_fltIdx f 0),
    h (fltEnvDepthIdx f) (readClass_fltIdx f 3)]

theorem envKeyOn_eq_of_agreeOn (h : agreeOn .latched pa pa') (i : Fin 3) (e : Env) :
    envKeyOn pa i e = envKeyOn pa' i e := by
  rw [envKeyOn, envKeyOn, h (envEnableIdx i) (readClass_triIdx i 4),
    h (envAttackIdx i) (readClass_triIdx i 5), h (envDecayIdx i) (readClass_triIdx i 6),
    h (envSustainIdx i) (readClass_triIdx i 7), h (envReleaseIdx i) (readClass_triIdx i 8)]

end

/-! Registers with another array. -/

/-- The registers with the Parameter Array replaced. -/
def Regs.withPa (r : Regs) (pa : Vector Param 128) : Regs := { r with pa := pa }

section
variable {r : Regs} {pa : Vector Param 128}

theorem tickMix_withPa (h : agreeOn .live r.pa pa) : tickMix (r.withPa pa) = tickMix r := by
  have hc (i : Fin 3) : tickC (r.withPa pa) i = tickC r i := by
    have hb : tickB (r.withPa pa) i = tickB r i := by
      rw [tickB, tickB, tickTrem, tickTrem, (lfo_eq_of_agreeOn h i (r.lfo.get i)).2.1]
      rfl
    rw [tickC, tickC, hb]
    rfl
  have hnz : tickNz (r.withPa pa) = tickNz r := by
    rw [tickNz, tickNz, h noiseLevelIdx rfl]
    rfl
  rw [tickMix, tickMix, hc, hc, hc, hnz]

theorem parallelRouting_eq_of_agreeOn (h : agreeOn .live r.pa pa) :
    parallelRouting pa = parallelRouting r.pa := by
  rw [parallelRouting, parallelRouting, h filterSeqIdx rfl]

theorem tickFlt_withPa_out (h : agreeOn .live r.pa pa) (x : Int) :
    tickFlt0 (r.withPa pa) x = tickFlt0 r x ∧ tickFlt1 (r.withPa pa) x = tickFlt1 r x :=
  ⟨(flt_eq_of_agreeOn h 0 r.flt.x0 x (tickE r 0)).1.symm,
    (flt_eq_of_agreeOn h 1 r.flt.x1 x (tickE r 1)).1.symm⟩

/-- The sample of a tick reads live words only (45_voice_mix.md R227). -/
theorem tickOut_withPa (h : agreeOn .live r.pa pa) : tickOut (r.withPa pa) = tickOut r := by
  have hy : tickY (r.withPa pa) = tickY r := by
    have hroute : parallelRouting (r.withPa pa).pa = parallelRouting r.pa :=
      parallelRouting_eq_of_agreeOn h
    simp only [tickY, hroute, tickMix_withPa h, (tickFlt_withPa_out h _).1,
      (tickFlt_withPa_out h _).2]
  rw [tickOut, tickOut, hy, h driveIdx rfl, h outGainIdx rfl]
  rfl

/-- So do the registers a tick writes. -/
theorem tickRegs_withPa (h : agreeOn .live r.pa pa) :
    tickRegs (r.withPa pa) = (tickRegs r).withPa pa := by
  have hlfo : (tickRegs (r.withPa pa)).lfo = (tickRegs r).lfo :=
    Three.ext_get fun i => by
      simp only [tickRegs_lfo, Three.get_ofFn]
      exact (lfo_eq_of_agreeOn h i (r.lfo.get i)).2.2.symm
  have hosc : (tickRegs (r.withPa pa)).osc = (tickRegs r).osc :=
    Three.ext_get fun i => by
      simp only [tickRegs_osc, Three.get_ofFn, tickVib]
      rw [(lfo_eq_of_agreeOn h i (r.lfo.get i)).1]
      rfl
  have hin : tickFlt1In (r.withPa pa) = tickFlt1In r := by
    have hroute : parallelRouting (r.withPa pa).pa = parallelRouting r.pa :=
      parallelRouting_eq_of_agreeOn h
    simp only [tickFlt1In, hroute, tickMix_withPa h, (tickFlt_withPa_out h _).1]
  have hflt : tickFlt (r.withPa pa) = tickFlt r := by
    rw [tickFlt, tickFlt, hin, tickMix_withPa h, (flt_eq_of_agreeOn h 0 _ _ _).2,
      (flt_eq_of_agreeOn h 1 _ _ _).2]
    rfl
  calc tickRegs (r.withPa pa)
      = { (tickRegs r).withPa pa with
          lfo := (tickRegs (r.withPa pa)).lfo
          osc := (tickRegs (r.withPa pa)).osc
          flt := (tickRegs (r.withPa pa)).flt } := rfl
    _ = (tickRegs r).withPa pa := by rw [hlfo, hosc, tickRegs_flt, hflt]; rfl

theorem loadCaches_withPa (h : agreeOn .cached r.pa pa) :
    loadCaches (r.withPa pa) = (loadCaches r).withPa pa := by
  simp only [loadCaches, Regs.withPa, loadOsc_eq_of_agreeOn h, loadFlt_eq_of_agreeOn h]

theorem startRegs_withPa (hc : agreeOn .cached r.pa pa) (hl : agreeOn .latched r.pa pa)
    (note : BitVec 7) (vel : BitVec 8) (pw : BitVec 14) :
    startRegs note vel pw (r.withPa pa) = (startRegs note vel pw r).withPa pa := by
  have hretrigger : retrigger (r.withPa pa) = (retrigger r).withPa pa := by
    rcases retrigger_cases r with ⟨hidle, h⟩ | ⟨hvoice, h⟩ <;> rw [h]
    · exact if_pos hidle
    · exact if_neg hvoice
  simp only [startRegs_eq, hretrigger, loadOsc_eq_of_agreeOn hc, loadFlt_eq_of_agreeOn hc,
    envKeyOn_eq_of_agreeOn hl]
  rfl

end

/-! Machines with another array. -/

/-- The machine with the Parameter Array replaced. -/
def State.withPa (s : State) (pa : Vector Param 128) : State :=
  { s with regs := s.regs.withPa pa }

section
variable {s t : State} {pa : Vector Param 128}

theorem psetStep_eq_withPa (k : BitVec 7) (v : Param) (s : State) :
    psetStep k v s = s.withPa (paWrite s.regs.pa k v) := rfl

theorem voiceTick_withPa (h : agreeOn .live s.regs.pa pa) :
    voiceTick (s.withPa pa) = (voiceTick s).withPa pa := by
  have hregs : (voiceTick (s.withPa pa)).regs = (tickRegs s.regs).withPa pa := tickRegs_withPa h
  have hbuffer : (voiceTick (s.withPa pa)).buffer = (voiceTick s).buffer :=
    congrArg (s.buffer.accumulate s.regs.rp) (tickOut_withPa h)
  calc voiceTick (s.withPa pa)
      = { s with
          regs := (voiceTick (s.withPa pa)).regs
          buffer := (voiceTick (s.withPa pa)).buffer } := rfl
    _ = (voiceTick s).withPa pa := by rw [hregs, hbuffer]; rfl

theorem endBlock_withPa (s : State) (pa : Vector Param 128) :
    endBlock (s.withPa pa) = (endBlock s).withPa pa := by
  rcases endBlock_cases s with ⟨hi, h⟩ | ⟨hi, h⟩ <;> rw [h]
  · exact endBlock_of_idle hi
  · exact endBlock_of_running hi

theorem unitStep_withPa (h : agreeOn .live s.regs.pa pa) :
    unitStep (s.withPa pa) = (unitStep s).withPa pa := by
  have htick : renderTick (s.withPa pa) = (renderTick s).withPa pa := by
    unfold renderTick
    rw [voiceTick_withPa h, endBlock_withPa]
    exact apply_ite (fun u : State => u.withPa pa) _ _ _ |>.symm
  unfold unitStep
  rw [htick]
  exact apply_ite (fun u : State => u.withPa pa) _ _ _ |>.symm

@[simp] theorem unitStep_pa (s : State) : (unitStep s).regs.pa = s.regs.pa := by
  unfold unitStep
  split
  · rfl
  · rcases renderTick_cases s with ⟨-, h⟩ | ⟨-, h⟩ <;> simp [h]

@[simp] theorem startRegs_pa (note : BitVec 7) (vel : BitVec 8) (pw : BitVec 14) (r : Regs) :
    (startRegs note vel pw r).pa = r.pa := by
  rw [startRegs_eq]

@[simp] theorem killVoice_pa (s : State) : (killVoice s).regs.pa = s.regs.pa := by
  rcases killVoice_cases s with ⟨-, h⟩ | ⟨-, h⟩ <;> simp [h]

@[simp] theorem releaseVoice_pa (s : State) : (releaseVoice s).regs.pa = s.regs.pa := by
  rcases releaseVoice_cases s with ⟨-, h⟩ | ⟨-, h⟩ <;> simp [h]

theorem killVoice_withPa (s : State) (pa : Vector Param 128) :
    killVoice (s.withPa pa) = (killVoice s).withPa pa := by
  rcases killVoice_cases s with ⟨hs, h⟩ | ⟨hs, h⟩ <;> rw [h]
  · exact if_pos hs
  · exact if_neg hs

theorem releaseVoice_withPa (s : State) (pa : Vector Param 128) :
    releaseVoice (s.withPa pa) = (releaseVoice s).withPa pa := by
  rcases releaseVoice_cases s with ⟨hs, h⟩ | ⟨hs, h⟩ <;> rw [h]
  · exact if_pos hs
  · exact if_neg hs

/-- No command writes the Parameter Array (20_memory.md R84). -/
theorem exec_keeps_pa {i : Instr} (h : exec i s = .next t) : t.regs.pa = s.regs.pa := by
  cases i with
  | nop => cases h; rfl
  | canplay sound => cases h; rfl
  | start note vel pw => cases h; exact startRegs_pa note vel pw s.regs
  | stop tail =>
    obtain rfl | rfl := tail_cases tail
    · cases h; exact killVoice_pa s
    · cases h; exact releaseVoice_pa s
  | pwheel pw => cases h; rfl
  | ctrl id val => cases h; rfl
  | render start num => cases h; split <;> rfl
  | reserved7 => cases h; rfl

/-- A command reads cached words, and START also latched ones (10_state.md R51). -/
theorem exec_withPa {i : Instr} (hc : agreeOn .cached s.regs.pa pa)
    (hl : (∃ note vel pw, i = .start note vel pw) → agreeOn .latched s.regs.pa pa)
    (h : exec i s = .next t) : exec i (s.withPa pa) = .next (t.withPa pa) := by
  cases i with
  | nop => cases h; rfl
  | canplay sound => cases h; rfl
  | start note vel pw =>
    cases h
    rw [exec_start]
    exact congrArg (fun q => Host.Outcome.next { s with regs := q })
      (startRegs_withPa hc (hl ⟨note, vel, pw, rfl⟩) note vel pw)
  | stop tail =>
    obtain rfl | rfl := tail_cases tail
    · cases h; exact congrArg Host.Outcome.next (killVoice_withPa s pa)
    · cases h; exact congrArg Host.Outcome.next (releaseVoice_withPa s pa)
  | pwheel pw => cases h; rfl
  | ctrl id val => cases h; rfl
  | render start num =>
    have hbegin : beginBlock start num (s.withPa pa) = (beginBlock start num s).withPa pa :=
      congrArg (fun q : Regs =>
        { s with regs := { q with rp := start, rc := num }, winStart := start })
        (loadCaches_withPa hc)
    cases h
    rw [exec_render, hbegin]
    exact congrArg Host.Outcome.next
      (apply_ite (fun u : State => u.withPa pa) _ _ _ |>.symm)
  | reserved7 => cases h; rfl

/-- Settles O15: a write of a word that is not live leaves the live words as they are. -/
theorem ticksReadLiveWordsOnly : Obligations.TicksReadLiveWordsOnly := by
  unfold Obligations.TicksReadLiveWordsOnly
  intro s k v hk
  rw [psetStep_eq_withPa, voiceTick_withPa (agreeOn_paWrite hk _ v)]
  rfl

/-- Settles O16: a write of a latched word leaves the cached words as they are, and a command the
array. -/
theorem latchedWordsAreReadByStartOnly : Obligations.LatchedWordsAreReadByStartOnly := by
  unfold Obligations.LatchedWordsAreReadByStartOnly
  intro s t i k v hk hstart h
  have hcached : agreeOn .cached s.regs.pa (paWrite s.regs.pa k v) :=
    agreeOn_paWrite (by rw [hk]; decide) _ v
  rw [psetStep_eq_withPa, psetStep_eq_withPa, exec_keeps_pa h]
  exact exec_withPa hcached (fun ⟨note, vel, pw, he⟩ => absurd he (hstart note vel pw)) h

/-- Two arrays that differ in stored words only. -/
def agreeButStored (pa pa' : Vector Param 128) : Prop := ∀ c ≠ .stored, agreeOn c pa pa'

theorem agreeButStored_iff {pa pa' : Vector Param 128} :
    agreeButStored pa pa' ↔
      ∀ k, (readClass k == .stored) = false → paRead pa k = paRead pa' k := by
  simp only [beq_eq_false_iff_ne]
  exact ⟨fun h k hk => h _ hk k rfl, fun h c hc k hk => h k (hk ▸ hc)⟩

/-- A machine that differs in stored words only makes the same step, and differs so again. -/
theorem step_withPa (h : agreeButStored s.regs.pa pa) (hstep : step s = .next t) :
    ∃ pa', step (s.withPa pa) = .next (t.withPa pa') ∧ agreeButStored t.regs.pa pa' := by
  have hlive := h .live (by decide)
  have hunit : agreeButStored (unitStep s).regs.pa pa := (unitStep_pa s).symm ▸ h
  rcases step_cases hstep with ⟨hin, rfl⟩ | ⟨w, rest, hin, hrc, rfl⟩ | ⟨w, rest, hin, hrc, hexec⟩ |
    ⟨idx, val, rest, hin, rfl⟩ | ⟨addr, val, rest, hin, hmay, rfl⟩ |
    ⟨addr, val, rest, hin, hmay, rfl⟩ | ⟨rest, hin, rfl⟩ | ⟨rest, hin, rfl⟩ |
    ⟨rest, hin, hrc, rfl⟩ | ⟨rest, hin, hrc, rfl⟩
  · refine ⟨pa, ?_, hunit⟩
    rw [step_of_no_input (s := s.withPa pa) hin, unitStep_withPa hlive]
  · refine ⟨pa, ?_, hunit⟩
    rw [step_of_waiting_command (s := s.withPa pa) hin hrc, unitStep_withPa hlive]
  · refine ⟨pa, ?_, (exec_keeps_pa hexec).symm ▸ h⟩
    rw [step_of_command (s := s.withPa pa) hin hrc]
    exact exec_withPa (s := { s with inputs := rest }) (h .cached (by decide))
      (fun _ => h .latched (by decide)) hexec
  · refine ⟨paWrite pa idx val, step_of_pset (s := s.withPa pa) hin, fun c hc => ?_⟩
    exact agreeOn_paWrite_paWrite (h c hc) idx val
  · exact ⟨pa, step_of_bufferWrite (s := s.withPa pa) hin hmay, h⟩
  · refine ⟨pa, ?_, hunit⟩
    rw [step_of_waiting_bufferWrite (s := s.withPa pa) hin hmay, unitStep_withPa hlive]
  · exact ⟨Regs.reset.pa, step_of_reset (s := s.withPa pa) hin, fun _ _ _ _ => rfl⟩
  · refine ⟨pa, ?_, (unitStep_pa _).symm ▸ h⟩
    exact (step_of_pause (s := s.withPa pa) hin).trans
      (congrArg _ (unitStep_withPa (s := { s with inputs := rest }) hlive))
  · refine ⟨pa, ?_, hunit⟩
    rw [step_of_await (s := s.withPa pa) hin, awaitStep_of_running (s := s.withPa pa) hrc,
      unitStep_withPa hlive]
  · refine ⟨pa, ?_, h⟩
    rw [step_of_await (s := s.withPa pa) hin, awaitStep_of_waiting (s := s.withPa pa) hrc]
    rfl

end

/-- Settles O14: the second machine is the first one with another array, before the step and
after it. -/
theorem storedWordsHaveNoEffect : Obligations.StoredWordsHaveNoEffect := by
  unfold Obligations.StoredWordsHaveNoEffect
  rintro s s' ⟨hwords, hregs⟩ hrest
  have hs' : s' = s.withPa s'.regs.pa :=
    calc s' = { ({ s' with regs := s.regs } : State) with regs := s'.regs } := rfl
      _ = { s with regs := { s.regs with pa := s'.regs.pa } } := by rw [hrest, hregs]
  obtain ⟨t, ht⟩ := step_eq_next s
  obtain ⟨pa', ht', hagree⟩ := step_withPa (agreeButStored_iff.2 hwords) ht
  exact ⟨t, t.withPa pa', ht, hs' ▸ ht', ⟨agreeButStored_iff.1 hagree, rfl⟩, rfl, rfl⟩

/-! Machines with another buffer (40_commands.md R136). -/

/-- The machine with the buffer replaced. -/
def State.withBuffer (s : State) (m : Memory) : State := { s with buffer := m }

theorem endBlock_withBuffer (s : State) (m : Memory) :
    endBlock (s.withBuffer m) = (endBlock s).withBuffer m := by
  rcases endBlock_cases s with ⟨hi, h⟩ | ⟨hi, h⟩ <;> rw [h]
  · exact endBlock_of_idle hi
  · exact endBlock_of_running hi

theorem unitStep_withBuffer (s : State) (m : Memory) :
    ∃ m', unitStep (s.withBuffer m) = (unitStep s).withBuffer m' := by
  by_cases hrc : s.regs.rc = 0#13
  · rw [unitStep_of_waiting hrc]
    exact ⟨m, unitStep_of_waiting (s := s.withBuffer m) hrc⟩
  · rw [unitStep_of_running hrc, unitStep_of_running (s := s.withBuffer m) hrc]
    have htick : voiceTick (s.withBuffer m) =
      (voiceTick s).withBuffer (m.accumulate s.regs.rp (tickOut s.regs)) := rfl
    refine ⟨m.accumulate s.regs.rp (tickOut s.regs), ?_⟩
    rcases renderTick_cases s with ⟨hlast, ht⟩ | ⟨hmore, ht⟩ <;> rw [ht, renderTick, htick]
    · rw [endBlock_withBuffer]
      exact if_pos hlast
    · exact if_neg hmore

theorem killVoice_withBuffer (s : State) (m : Memory) :
    killVoice (s.withBuffer m) = (killVoice s).withBuffer m := by
  rcases killVoice_cases s with ⟨hs, h⟩ | ⟨hs, h⟩ <;> rw [h]
  · exact if_pos hs
  · exact if_neg hs

theorem releaseVoice_withBuffer (s : State) (m : Memory) :
    releaseVoice (s.withBuffer m) = (releaseVoice s).withBuffer m := by
  rcases releaseVoice_cases s with ⟨hs, h⟩ | ⟨hs, h⟩ <;> rw [h]
  · exact if_pos hs
  · exact if_neg hs

theorem exec_withBuffer {i : Instr} {s t : State} (h : exec i s = .next t) (m : Memory) :
    exec i (s.withBuffer m) = .next (t.withBuffer m) := by
  cases i with
  | nop => cases h; rfl
  | canplay sound => cases h; rfl
  | start note vel pw => cases h; rfl
  | stop tail =>
    obtain rfl | rfl := tail_cases tail
    · cases h; exact congrArg Host.Outcome.next (killVoice_withBuffer s m)
    · cases h; exact congrArg Host.Outcome.next (releaseVoice_withBuffer s m)
  | pwheel pw => cases h; rfl
  | ctrl id val => cases h; rfl
  | render start num =>
    by_cases hnothing : s.regs.vstate = .idle ∨ num = 0#13
    · rw [exec_render_of_nothing hnothing] at h
      cases h
      exact exec_render_of_nothing (s := s.withBuffer m) hnothing start
    · obtain ⟨hvoice, hnum⟩ := not_or.1 hnothing
      rw [exec_render_of_block hvoice hnum] at h
      cases h
      exact exec_render_of_block (s := s.withBuffer m) hvoice hnum start
  | reserved7 => cases h; rfl

/-- With another buffer a step leaves another buffer and nothing else. -/
theorem step_withBuffer {s t : State} (hstep : step s = .next t) (m : Memory) :
    ∃ m', step (s.withBuffer m) = .next (t.withBuffer m') := by
  obtain ⟨m', hunit⟩ := unitStep_withBuffer s m
  rcases step_cases hstep with ⟨hin, rfl⟩ | ⟨w, rest, hin, hrc, rfl⟩ | ⟨w, rest, hin, hrc, hexec⟩ |
    ⟨idx, val, rest, hin, rfl⟩ | ⟨addr, val, rest, hin, hmay, rfl⟩ |
    ⟨addr, val, rest, hin, hmay, rfl⟩ | ⟨rest, hin, rfl⟩ | ⟨rest, hin, rfl⟩ |
    ⟨rest, hin, hrc, rfl⟩ | ⟨rest, hin, hrc, rfl⟩
  · exact ⟨m', by rw [step_of_no_input (s := s.withBuffer m) hin, hunit]⟩
  · exact ⟨m', by rw [step_of_waiting_command (s := s.withBuffer m) hin hrc, hunit]⟩
  · refine ⟨m, ?_⟩
    rw [step_of_command (s := s.withBuffer m) hin hrc]
    exact exec_withBuffer (s := { s with inputs := rest }) hexec m
  · exact ⟨m, step_of_pset (s := s.withBuffer m) hin⟩
  · exact ⟨m.writeWord addr val, step_of_bufferWrite (s := s.withBuffer m) hin hmay⟩
  · exact ⟨m', by rw [step_of_waiting_bufferWrite (s := s.withBuffer m) hin hmay, hunit]⟩
  · exact ⟨m, step_of_reset (s := s.withBuffer m) hin⟩
  · obtain ⟨m'', hpause⟩ := unitStep_withBuffer { s with inputs := rest } m
    exact ⟨m'', (step_of_pause (s := s.withBuffer m) hin).trans (congrArg _ hpause)⟩
  · refine ⟨m', ?_⟩
    rw [step_of_await (s := s.withBuffer m) hin, awaitStep_of_running (s := s.withBuffer m) hrc,
      hunit]
  · refine ⟨m, ?_⟩
    rw [step_of_await (s := s.withBuffer m) hin, awaitStep_of_waiting (s := s.withBuffer m) hrc]
    rfl

/-- Settles O19: the two steps end in machines that differ in the buffer only. -/
theorem bufferNeverReachesTheRegisters : Obligations.BufferNeverReachesTheRegisters := by
  unfold Obligations.BufferNeverReachesTheRegisters
  intro s m
  obtain ⟨t, ht⟩ := step_eq_next s
  obtain ⟨m', ht'⟩ := step_withBuffer ht m
  exact ⟨t, t.withBuffer m', ht, ht', rfl, rfl, rfl, rfl, rfl⟩

end Sys2Proof.Machine
end

section
/-! PROOF. The sine (41_oscillator.md R141), the phase increment of a pitch word (R146), the LFO's
effects (43_lfo.md R181 to R186) and the oscillator's phase (41_oscillator.md R147, R148). The
interpolation over an octave's table lies between the table's entries, which bounds every
increment. -/

namespace Sys2Proof.Machine

/-! The sine, by quadrant (41_oscillator.md R141). -/

theorem phase_quadrant_toNat (ph : BitVec 32) :
    (ph.extractLsb' 30 2).toNat = ph.toNat / 1073741824 := by
  rw [BitVec.extractLsb'_toNat, Nat.shiftRight_eq_div_pow]
  omega

theorem phase_index_toNat (ph : BitVec 32) :
    (ph.extractLsb' 24 6).toNat = ph.toNat / 16777216 % 64 := by
  rw [BitVec.extractLsb'_toNat, Nat.shiftRight_eq_div_pow]

theorem phase_fraction_toNat (ph : BitVec 32) :
    (ph.extractLsb' 16 8).toNat = ph.toNat / 65536 % 256 := by
  rw [BitVec.extractLsb'_toNat, Nat.shiftRight_eq_div_pow]

/-- The quarter wave read upward: the entry at the index and the one after it, interpolated. -/
def sineUp (idx fr : Nat) : Int :=
  Config.sinq idx + (Config.sinq (idx + 1) - Config.sinq idx) * fr / 256

/-- The quarter wave read downward. -/
def sineDown (idx fr : Nat) : Int :=
  Config.sinq (64 - idx) + (Config.sinq (63 - idx) - Config.sinq (64 - idx)) * fr / 256

/-- The sine of a quadrant, its sign that of the half period. -/
def sineOfQuadrant (q idx fr : Nat) : Int :=
  match q with
  | 0 => sineUp idx fr
  | 1 => sineDown idx fr
  | 2 => -sineUp idx fr
  | _ => -sineDown idx fr

theorem sinQ15_eq {ph : BitVec 32} {q : Nat} (h : ph.toNat / 1073741824 = q) :
    sinQ15 ph = sineOfQuadrant q (ph.toNat / 16777216 % 64) (ph.toNat / 65536 % 256) := by
  have hlt := ph.isLt
  have hq : q < 4 := by omega
  unfold sinQ15
  rw [phase_quadrant_toNat, phase_index_toNat, phase_fraction_toNat, h]
  match q with
  | 0 => rfl
  | 1 => rfl
  | 2 => rfl
  | 3 => rfl

/-- Half a period on, index and fraction are the same and the quadrant is the opposite one. -/
theorem sinQ15_half_period (ph : BitVec 32) : sinQ15 (ph + 0x80000000#32) = -sinQ15 ph := by
  have hlt := ph.isLt
  have hsum : (ph + 0x80000000#32).toNat = (ph.toNat + 2147483648) % 4294967296 :=
    BitVec.toNat_add _ _
  have hidx : (ph + 0x80000000#32).toNat / 16777216 % 64 = ph.toNat / 16777216 % 64 := by omega
  have hfr : (ph + 0x80000000#32).toNat / 65536 % 256 = ph.toNat / 65536 % 256 := by omega
  obtain ⟨q, hq⟩ : ∃ q, ph.toNat / 1073741824 = q := ⟨_, rfl⟩
  have hq' : (ph + 0x80000000#32).toNat / 1073741824 = (q + 2) % 4 := by omega
  have hrange : q < 4 := by omega
  rw [sinQ15_eq hq, sinQ15_eq hq', hidx, hfr]
  match q with
  | 0 => rfl
  | 1 => rfl
  | 2 => exact (Int.neg_neg _).symm
  | 3 => exact (Int.neg_neg _).symm

/-- Settles O38: the table by evaluation, the quadrants by the sine's equation. -/
theorem sineInterpolatesTheQuarterTable : Obligations.SineInterpolatesTheQuarterTable := by
  unfold Obligations.SineInterpolatesTheQuarterTable
  exact ⟨by decide, fun ph => ⟨sinQ15_eq, sinQ15_eq, sinQ15_eq, sinQ15_eq, sinQ15_half_period ph,
    sinQ15_range ph⟩⟩

/-! The increment of a pitch word (41_oscillator.md R146). -/

theorem asr_eq_div (v : Int) (n : Nat) : asr v n = v / 2 ^ n := by
  rw [asr, Nat.cast_pow, Nat.cast_ofNat]

/-- The increment in the top octave: the table at semitone `k`, interpolated over `fr` of 256. -/
def octaveStep (k fr : Nat) : Int :=
  Config.tune k + (Config.tune (k + 1) - Config.tune k) * fr / 256

theorem pitchToInc_eq {p : Nat} (h : p ≤ 33791) :
    pitchToInc p = octaveStep (p / 256 % 12) (p % 256) / 2 ^ (10 - p / 256 / 12) := by
  have hclamp : (clamp p 0 Config.pMax).toNat = p := by
    rw [clamp_of_mem (Int.natCast_nonneg p) (by rw [Config.pMax]; omega), Int.toNat_natCast]
  unfold pitchToInc
  rw [hclamp]
  exact asr_eq_div _ _

theorem pitchToInc_clamp (p : Int) : pitchToInc p = pitchToInc (min (max p 0) 33791) := by
  have hsame : clamp (min (max p 0) 33791) 0 Config.pMax = clamp p 0 Config.pMax := by
    rw [clamp_of_mem (by omega) (by rw [Config.pMax]; omega), clamp_eq_min_max p (by decide),
      Config.pMax]
  unfold pitchToInc
  rw [hsame]

theorem exists_pitchToInc_eq (p : Int) : ∃ c : Nat, c ≤ 33791 ∧ pitchToInc p = pitchToInc c := by
  refine ⟨(min (max p 0) 33791).toNat, by omega, ?_⟩
  rw [pitchToInc_clamp, Int.toNat_of_nonneg (by omega)]

/-- Between two semitones the increment lies between theirs. -/
theorem octaveStep_range {k fr : Nat} (hk : k < 12) (hfr : fr < 256) :
    Config.tune k ≤ octaveStep k fr ∧ octaveStep k fr ≤ Config.tune (k + 1) := by
  have hlt := Config.tune_lt_succ k hk
  exact interpolation_range ⟨le_rfl, hlt.le⟩ ⟨hlt.le, le_rfl⟩ ⟨by omega, by omega⟩

theorem tune_mono {k k' : Nat} (h : k ≤ k') (hk' : k' ≤ 12) : Config.tune k ≤ Config.tune k' := by
  induction k', h using Nat.le_induction with
  | base => exact le_rfl
  | succ n _ ih => exact (ih (by omega)).trans (Config.tune_lt_succ n (by omega)).le

/-- The top octave's increments: up to semitone 11 below `TUNE[11]`, and above it by the
fraction. -/
theorem octaveStep_bounds {k fr : Nat} (hk : k < 12) (hfr : fr < 256) :
    749115498 ≤ octaveStep k fr ∧ octaveStep k fr ≤ 1497902522 := by
  obtain ⟨hlo, hhi⟩ := octaveStep_range hk hfr
  have hbase := (Config.tune_range k hk.le).1
  refine ⟨hbase.trans hlo, ?_⟩
  rcases Nat.lt_or_ge k 11 with h | h
  · have h11 : Config.tune 11 = 1414141751 := by decide
    have hnext : Config.tune (k + 1) ≤ Config.tune 11 := tune_mono h (by decide)
    omega
  · have htop : octaveStep 11 fr = 1414141751 + 84089245 * fr / 256 := rfl
    obtain rfl : k = 11 := by omega
    omega

theorem pitchToInc_range (p : Int) : 731558 ≤ pitchToInc p ∧ pitchToInc p ≤ 1497902522 := by
  obtain ⟨c, hc, h⟩ := exists_pitchToInc_eq p
  obtain ⟨hlo, hhi⟩ := octaveStep_bounds (k := c / 256 % 12) (fr := c % 256)
    (Nat.mod_lt _ (by decide)) (Nat.mod_lt _ (by decide))
  have hn : 10 - c / 256 / 12 ≤ 10 := Nat.sub_le _ _
  rw [h, pitchToInc_eq hc]
  generalize 10 - c / 256 / 12 = n at hn ⊢
  have hpow : (2 : Int) ^ n ≤ 2 ^ 10 := pow_le_pow_right₀ (by decide) hn
  have hpos : (0 : Int) < 2 ^ n := by positivity
  constructor
  · rw [Int.le_ediv_iff_mul_le hpos]
    omega
  · exact (Int.ediv_le_self _ (by omega)).trans hhi

/-- Settles O39: the equation on clamped words, its bounds from the table's, and the whole semitones
of the top octave by evaluation. -/
theorem pitchIncrementIsClampedAndTuned : Obligations.PitchIncrementIsClampedAndTuned := by
  unfold Obligations.PitchIncrementIsClampedAndTuned
  refine ⟨fun p => ⟨(pitchToInc_range p).1, (pitchToInc_range p).2, pitchToInc_clamp p⟩,
    fun p hp => pitchToInc_eq hp, by decide, fun k hk => ?_⟩
  have hall : ∀ j : Fin 12, pitchToInc (256 * (120 + (j.val : Int))) = Config.tune j.val := by
    decide
  exact hall ⟨k, hk⟩

/-! The LFO's effects (43_lfo.md R181 to R186). -/

section
variable (pa : Vector Param 128) (i : Fin 3) (l : Lfo)

/-- The output is within the depth, and below full scale even at full depth. -/
theorem lfoOutput_range :
    -(u115 (paRead pa (lfoDepthIdx i)) : Int) ≤ lfoOutput pa i l ∧
      lfoOutput pa i l ≤ u115 (paRead pa (lfoDepthIdx i)) ∧
      -32767 ≤ lfoOutput pa i l ∧ lfoOutput pa i l ≤ 32767 := by
  have hdepth := u115_le (paRead pa (lfoDepthIdx i))
  obtain ⟨hw0, hw1⟩ := wave_range (paRead pa (lfoWaveIdx i)) l.phase
  obtain ⟨hlo, hhi⟩ := asr_gain_range (m := 32767) ⟨hw0, hw1⟩
    (g := u115 (paRead pa (lfoDepthIdx i))) ⟨by omega, by omega⟩
  refine ⟨?_, ?_, hlo, hhi⟩
  · rw [lfoOutput, asr_eq_div, Int.le_ediv_iff_mul_le (by decide)]
    nlinarith
  · rw [lfoOutput, asr_eq_div]
    exact Int.ediv_le_of_le_mul (by decide) (by nlinarith)

theorem lfoVib_range : -256 ≤ lfoVib pa i l ∧ lfoVib pa i l ≤ 255 := by
  obtain ⟨-, -, hlo, hhi⟩ := lfoOutput_range pa i l
  by_cases hdest : paRead pa (lfoDestIdx i) = 1#16
  · rw [lfoVib_of_dest_pitch hdest, asr_eq_div]
    omega
  · rw [lfoVib_of_dest_ne_pitch hdest]
    decide

theorem lfoTrem_range :
    32768 - (u115 (paRead pa (lfoDepthIdx i)) : Int) ≤ lfoTrem pa i l ∧
      lfoTrem pa i l ≤ 32768 := by
  obtain ⟨hlo, hhi, -, -⟩ := lfoOutput_range pa i l
  by_cases hdest : paRead pa (lfoDestIdx i) = 2#16
  · rw [lfoTrem_of_dest_amplitude hdest, asr_eq_div]
    omega
  · rw [lfoTrem_of_dest_ne_amplitude hdest]
    omega

/-- The tremolo factor is a U1.15 gain. -/
theorem lfoTrem_gain : 0 ≤ lfoTrem pa i l ∧ lfoTrem pa i l ≤ 32768 := by
  have hdepth := u115_le (paRead pa (lfoDepthIdx i))
  obtain ⟨hlo, hhi⟩ := lfoTrem_range pa i l
  exact ⟨by omega, hhi⟩

end

/-- Settles O43: the formulas are the definitions, their ranges the lemmas above. -/
theorem lfoOutputsStayInRange : Obligations.LfoOutputsStayInRange := by
  unfold Obligations.LfoOutputsStayInRange
  intro pa i l
  obtain ⟨hlo, hhi, -, -⟩ := lfoOutput_range pa i l
  exact ⟨rfl, rfl, rfl, hhi, hlo, (lfoVib_range pa i l).1, (lfoVib_range pa i l).2,
    (lfoTrem_range pa i l).1, (lfoTrem_range pa i l).2⟩

/-- The increment is a natural number, so the integer sum is one. -/
theorem lfoAdvance_phase_toNat (pa : Vector Param 128) (i : Fin 3) (l : Lfo) :
    (lfoAdvance pa i l).phase.toNat =
      (l.phase.toNat + (paRead pa (lfoRateIdx i)).toNat * 89478 / 256) % 4294967296 := by
  have hinc : lfoInc (paRead pa (lfoRateIdx i)) =
      (((paRead pa (lfoRateIdx i)).toNat * 89478 / 256 : Nat) : Int) := rfl
  rw [lfoAdvance, hinc, ← Int.natCast_add, BitVec.ofInt_natCast]
  exact BitVec.toNat_ofNat _ _

/-- Settles O44: a tick advances each LFO, and the advance reads the rate word only. -/
theorem lfoPhaseAdvancesInEveryTick : Obligations.LfoPhaseAdvancesInEveryTick := by
  unfold Obligations.LfoPhaseAdvancesInEveryTick
  intro s i
  rw [voiceTick_regs, tickRegs_lfo, Three.get_ofFn]
  exact lfoAdvance_phase_toNat s.regs.pa i (s.regs.lfo.get i)

/-! The oscillator's phase (41_oscillator.md R147, R148). -/

theorem oscPitch_range {bend : BitVec 11} (hlo : -512 ≤ bend.toInt) (hhi : bend.toInt ≤ 511)
    {vib : Int} (hvib : -256 ≤ vib ∧ vib ≤ 255) (note : BitVec 7) (o : Osc) :
    -16128 ≤ oscPitch note bend o vib ∧ oscPitch note bend o vib ≤ 48638 := by
  have hnote := note.isLt
  have hoct := clamp_range (sext16 o.cOct) (lo := -4) (hi := 4) (by decide)
  have hsemi := clamp_range (sext16 o.cSemi) (lo := -12) (hi := 12) (by decide)
  unfold oscPitch
  dsimp only
  omega

theorem oscAdvance_phase_toNat (note : BitVec 7) (bend : BitVec 11) (o : Osc) (vib : Int) :
    ((oscAdvance note bend o vib).phase.toNat : Int) =
      ((o.phase.toNat : Int) + pitchToInc (oscPitch note bend o vib)) % 4294967296 := by
  rw [oscAdvance, BitVec.toNat_ofInt]
  omega

/-- Settles O40: the tick's phase by the oscillator's advance, the pitch word by its parts. -/
theorem oscillatorPhaseAdvancesByThePresentPitch :
    Obligations.OscillatorPhaseAdvancesByThePresentPitch := by
  unfold Obligations.OscillatorPhaseAdvancesByThePresentPitch
  intro s i hlo hhi o o' p
  have hpitch := oscPitch_range hlo hhi (lfoVib_range s.regs.pa i (s.regs.lfo.get i)) s.regs.note o
  have ho' : o' = oscAdvance s.regs.note s.regs.bend o (tickVib s.regs i) := Three.get_ofFn _ i
  rw [ho']
  exact ⟨oscAdvance_phase_toNat .., hpitch.1, hpitch.2, rfl⟩

end Sys2Proof.Machine
end

section
/-! PROOF. The filters (44_filter.md R198 to R203), their routing (45_voice_mix.md R221, R223) and
the mix (R216 to R220): the ranges of the coefficients and of the signals. -/

namespace Sys2Proof.Machine

/-! The coefficients (44_filter.md R198, R199). -/

theorem sinq_mono {k k' : Nat} (h : k ≤ k') (hk' : k' ≤ 64) : Config.sinq k ≤ Config.sinq k' := by
  induction k', h using Nat.le_induction with
  | base => exact le_rfl
  | succ n _ ih => exact (ih (by omega)).trans (Config.sinq_le_succ n (by omega))

theorem sineUp_range {idx fr : Nat} (hidx : idx < 64) (hfr : fr < 256) :
    Config.sinq idx ≤ sineUp idx fr ∧ sineUp idx fr ≤ Config.sinq (idx + 1) := by
  have hle := Config.sinq_le_succ idx hidx
  exact interpolation_range ⟨le_rfl, hle⟩ ⟨hle, le_rfl⟩ ⟨by omega, by omega⟩

/-- The sine at the phases that a cutoff gives, up to a little over a quarter of the first quadrant:
half the coefficient's range. -/
theorem sinQ15_of_cutoff_phase {ph : BitVec 32} (hlo : 365779 ≤ ph.toNat)
    (hhi : ph.toNat ≤ 314964268) : 15 ≤ sinQ15 ph ∧ sinQ15 ph ≤ 14565 := by
  have hq : ph.toNat / 1073741824 = 0 := by omega
  rw [sinQ15_eq hq]
  obtain ⟨idx, hidx⟩ : ∃ idx, ph.toNat / 16777216 % 64 = idx := ⟨_, rfl⟩
  obtain ⟨fr, hfr⟩ : ∃ fr, ph.toNat / 65536 % 256 = fr := ⟨_, rfl⟩
  have hsplit : ph.toNat / 65536 = 256 * idx + fr := by
    have hdiv : ph.toNat / 16777216 = ph.toNat / 65536 / 256 :=
      (Nat.div_div_eq_div_mul ph.toNat 65536 256).symm
    omega
  have hidx18 : idx ≤ 18 := by omega
  rw [hidx, hfr, sineOfQuadrant]
  obtain ⟨hup0, hup1⟩ := sineUp_range (idx := idx) (fr := fr) (by omega) (by omega)
  constructor
  · rcases Nat.eq_zero_or_pos idx with h | h
    · have hfirst : sineUp 0 fr = 0 + 804 * fr / 256 := rfl
      rw [h] at hsplit
      have hfr5 : 5 ≤ fr := by omega
      rw [h, hfirst]
      omega
    · have h1 : Config.sinq 1 = 804 := by decide
      have hmono : Config.sinq 1 ≤ Config.sinq idx := sinq_mono h (by omega)
      omega
  · rcases Nat.lt_or_ge idx 18 with h | h
    · have h18 : Config.sinq 18 = 14010 := by decide
      have hmono : Config.sinq (idx + 1) ≤ Config.sinq 18 := sinq_mono h (by decide)
      omega
    · have hlast : sineUp 18 fr = 14010 + 722 * fr / 256 := rfl
      obtain rfl : idx = 18 := by omega
      rw [hlast]
      omega

/-- The largest cutoff is note 117, semitone 9 of octave 9. -/
theorem pitchToInc_le_of_cutoff {c : Nat} (hc : c ≤ 29952) : pitchToInc c ≤ 629928536 := by
  have hk : c / 256 % 12 < 12 := Nat.mod_lt _ (by decide)
  have hfr : c % 256 < 256 := Nat.mod_lt _ (by decide)
  obtain ⟨hlo, hhi⟩ := octaveStep_range hk hfr
  have h12 : Config.tune 12 = 1498230996 := by decide
  have h9 : Config.tune 9 = 1259857073 := by decide
  rw [pitchToInc_eq (by omega)]
  rcases Nat.lt_or_ge (c / 256 / 12) 9 with ho | ho
  · have hmono : Config.tune (c / 256 % 12 + 1) ≤ Config.tune 12 := tune_mono hk le_rfl
    have hpow : (2 : Int) ^ 2 ≤ 2 ^ (10 - c / 256 / 12) :=
      pow_le_pow_right₀ (by decide) (by omega)
    refine Int.ediv_le_of_le_mul (by positivity) ?_
    omega
  · have htop : octaveStep (c / 256 % 12) (c % 256) ≤ Config.tune 9 := by
      rcases Nat.lt_or_ge (c / 256 % 12) 9 with h | h
      · exact hhi.trans (tune_mono h (by decide))
      · obtain rfl : c = 29952 := by omega
        decide
    rw [show c / 256 / 12 = 9 by omega]
    omega

theorem fltCoeff_range {pc : Int} (h0 : 0 ≤ pc) (h1 : pc ≤ 29952) :
    30 ≤ fltCoeff pc ∧ fltCoeff pc ≤ 29130 := by
  obtain ⟨c, rfl⟩ := Int.eq_ofNat_of_zero_le h0
  have hlo := (pitchToInc_range c).1
  have hhi := pitchToInc_le_of_cutoff (c := c) (by omega)
  have hphase : ((BitVec.ofInt 32 (asr (pitchToInc c) 1)).toNat : Int) = pitchToInc c / 2 := by
    rw [BitVec.toNat_ofInt, asr_eq_div]
    omega
  obtain ⟨hs0, hs1⟩ := sinQ15_of_cutoff_phase
    (ph := BitVec.ofInt 32 (asr (pitchToInc c) 1)) (by omega) (by omega)
  unfold fltCoeff
  omega

theorem fltDamping_range (res : Param) : 512 ≤ fltDamping res ∧ fltDamping res ≤ 24576 := by
  have hgain := u115_le res
  unfold fltDamping Config.qdMax Config.qdMin
  rw [asr_eq_div]
  omega

/-- Settles O52: the cutoff is clamped, and the gain of the resonance is at most unity. -/
theorem filterCoefficientsStayInRange : Obligations.FilterCoefficientsStayInRange := by
  unfold Obligations.FilterCoefficientsStayInRange
  intro pa f t e
  obtain ⟨hp0, hp1⟩ : 0 ≤ fltPitch pa f t e ∧ fltPitch pa f t e ≤ 29952 :=
    clamp_range _ (by decide)
  obtain ⟨hc0, hc1⟩ := fltCoeff_range hp0 hp1
  obtain ⟨hd0, hd1⟩ := fltDamping_range (paRead pa (fltResIdx f))
  exact ⟨hc0, hc1, hd0, hd1⟩

/-! The signal range (44_filter.md R203). -/

theorem asr_sat32_range (v : Int) : -8388608 ≤ asr (sat32 v) 8 ∧ asr (sat32 v) 8 ≤ 8388607 := by
  obtain ⟨hlo, hhi⟩ := sat32_range v
  rw [asr_eq_div]
  omega

/-- A filter that is on puts out the upper 24 bits of a saturated signal; one that is off its
input. -/
theorem fltOut_range {x : Int} (hlo : -8388608 ≤ x) (hhi : x ≤ 8388607) (pa : Vector Param 128)
    (f : Fin 2) (t : Flt) (e : Int) :
    -8388608 ≤ fltOut pa f t x e ∧ fltOut pa f t x e ≤ 8388607 := by
  cases hon : fltOn t with
  | true =>
    rcases (fltOn_iff t).1 hon with h | h | h
    · rw [fltOut_lowPass h]
      exact asr_sat32_range _
    · rw [fltOut_highPass h]
      exact asr_sat32_range _
    · rw [fltOut_bandPass h]
      exact asr_sat32_range _
  | false =>
    rw [fltOut_off hon]
    exact ⟨hlo, hhi⟩

/-- Settles O53: the output's range by type, and an input that the saturation does not reach. -/
theorem filterKeepsItsSignalRange : Obligations.FilterKeepsItsSignalRange := by
  unfold Obligations.FilterKeepsItsSignalRange
  intro pa f t x e hlo hhi
  obtain ⟨h0, h1⟩ := fltOut_range hlo hhi pa f t e
  exact ⟨h0, h1, clamp_of_mem (by omega) (by omega)⟩

/-! The routing (45_voice_mix.md R221, R223). -/

section
variable {r : Regs}

theorem parallelRouting_iff (pa : Vector Param 128) :
    parallelRouting pa = true ↔ paRead pa filterSeqIdx = 1#16 := beq_iff_eq

theorem tickY_of_parallel (h : parallelRouting r.pa = true) :
    tickY r = (tickFlt0 r (tickMix r) + tickFlt1 r (tickMix r)) / 2 := by
  rw [tickY, if_pos h, asr_eq_div, pow_one]

theorem tickY_of_serial (h : ¬parallelRouting r.pa = true) :
    tickY r = tickFlt1 r (tickFlt0 r (tickMix r)) := if_neg h

theorem tickFlt1In_of_parallel (h : parallelRouting r.pa = true) : tickFlt1In r = tickMix r :=
  if_pos h

theorem tickFlt1In_of_serial (h : ¬parallelRouting r.pa = true) :
    tickFlt1In r = tickFlt0 r (tickMix r) := if_neg h

/-- Both filters off: each passes its input, and the mean of the mix and itself is the mix. -/
theorem tickY_of_bypass (h0 : fltOn r.flt.x0 = false) (h1 : fltOn r.flt.x1 = false) :
    tickY r = tickMix r := by
  have hpass0 (x : Int) : tickFlt0 r x = x := fltOut_off h0
  have hpass1 (x : Int) : tickFlt1 r x = x := fltOut_off h1
  by_cases hroute : parallelRouting r.pa = true
  · rw [tickY_of_parallel hroute, hpass0, hpass1]
    omega
  · rw [tickY_of_serial hroute, hpass0, hpass1]

theorem tickFlt_of_bypass (h0 : fltOn r.flt.x0 = false) (h1 : fltOn r.flt.x1 = false) :
    tickFlt r = r.flt := by
  rw [tickFlt, fltAdvance_off _ _ _ _ _ h0, fltAdvance_off _ _ _ _ _ h1]

end

/-- Settles O54: the output and filter 1's input by the routing word, and the bypass of both. -/
theorem bypassedFiltersPassTheMix : Obligations.BypassedFiltersPassTheMix := by
  unfold Obligations.BypassedFiltersPassTheMix
  intro s r out0 out1 next0 next1 mix t
  refine ⟨fun hseq => ?_, fun hseq => ?_, fun hoff => ?_⟩
  · have hroute := (parallelRouting_iff r.pa).2 hseq
    exact ⟨tickY_of_parallel hroute, rfl, congrArg next1 (tickFlt1In_of_parallel hroute)⟩
  · have hroute : ¬parallelRouting r.pa = true := mt (parallelRouting_iff r.pa).1 hseq
    exact ⟨tickY_of_serial hroute, rfl, congrArg next1 (tickFlt1In_of_serial hroute)⟩
  · have hoff' (f : Fin 2) : fltOn (r.flt.get f) = false := by
      obtain ⟨h1, h2, h3⟩ := hoff f
      simp [fltOn, h1, h2, h3]
    exact ⟨tickY_of_bypass (hoff' 0) (hoff' 1), tickFlt_of_bypass (hoff' 0) (hoff' 1)⟩

/-! The mix (45_voice_mix.md R216 to R220). -/

theorem oscScaled_range (o : Osc) {trem : Int} (h : 0 ≤ trem ∧ trem ≤ 32768) :
    -32767 ≤ oscScaled o trem ∧ oscScaled o trem ≤ 32767 := by
  have hlevel := u115_le o.cLevel
  exact asr_gain_range (asr_gain_range (wave_range o.cWave o.phase) ⟨by omega, by omega⟩) h

section
variable {r : Regs}

theorem tickE_range (h : r.Inv) (i : Fin 3) : 0 ≤ tickE r i ∧ tickE r i ≤ 32768 :=
  envOut_range (h.env i).envTick.level_le

theorem tickC_range (h : r.Inv) (i : Fin 3) : -32767 ≤ tickC r i ∧ tickC r i ≤ 32767 :=
  asr_gain_range (oscScaled_range _ (lfoTrem_gain _ _ _)) (tickE_range h i)

theorem tickEmax_range (h : r.Inv) : 0 ≤ tickEmax r ∧ tickEmax r ≤ 32768 :=
  ⟨le_max_of_le_left (tickE_range h 0).1,
    max_le (tickE_range h 0).2 (max_le (tickE_range h 1).2 (tickE_range h 2).2)⟩

theorem tickNz_range (h : r.Inv) : -32767 ≤ tickNz r ∧ tickNz r ≤ 32767 := by
  have hlevel := u115_le (paRead r.pa noiseLevelIdx)
  exact asr_gain_range (asr_gain_range (noiseSample_range _) ⟨by omega, by omega⟩)
    (tickEmax_range h)

/-- With every envelope at 0 each term of the sum has a factor 0 (40_commands.md R131). -/
theorem tickMix_of_silence (h : ∀ i, tickE r i = 0) : tickMix r = 0 := by
  have hc (i : Fin 3) : tickC r i = 0 := by rw [tickC, h, Int.mul_zero, asr_zero]
  have hmax : tickEmax r = 0 := by rw [tickEmax, h, h, h]; rfl
  have hnz : tickNz r = 0 := by rw [tickNz, hmax, Int.mul_zero, asr_zero]
  rw [tickMix, hc, hc, hc, hnz]
  rfl

end

/-- Settles O56: the formulas are the definitions; each term is a Q15 value under gains of at most
unity. -/
theorem mixIsBoundedAndSilentWithTheEnvelopes :
    Obligations.MixIsBoundedAndSilentWithTheEnvelopes := by
  unfold Obligations.MixIsBoundedAndSilentWithTheEnvelopes
  refine ⟨fun r => ⟨fun i => ⟨rfl, rfl, rfl⟩, rfl, rfl⟩, fun r h => ?_⟩
  have hc0 := tickC_range h 0
  have hc1 := tickC_range h 1
  have hc2 := tickC_range h 2
  have hnz := tickNz_range h
  refine ⟨tickC_range h, hnz.1, hnz.2, ?_, ?_, tickMix_of_silence⟩
  · rw [tickMix]
    omega
  · rw [tickMix]
    omega

end Sys2Proof.Machine
end
